-- ==== Sys2Proof/Word.lean ====
section
/-! DEFINITION. The word types of the block: a byte, a 16-bit operand, a 12-bit Command and the 36-bit request word
(spec 30_encoding.md R74, R80). -/

namespace Sys2Proof

/-- One byte: a UART character and one element of HB.DATA (10_state.md R31). -/
abbrev Byte := BitVec 8

/-- A 16-bit operand: `u16` commands and the thresholds of one outTick (10_state.md R36, R39). -/
abbrev Word16 := BitVec 16

/-- A received Command and the bit buffer it comes from: 12 bits (30_encoding.md R74). -/
abbrev Command := BitVec 12

/-- A request word OPREQ: 36 bits (30_encoding.md R80). -/
abbrev ReqWord := BitVec 36

end Sys2Proof
end

