-- ==== Sys2Proof/Config.lean ====
section
/-! DEFINITION. The constants and named parameters of the block (00_scope.md R7, R8) and its free values.
The parameters are an argument of the model: State holds them in the field `par`, no step changes them, and a claim over
all states is a claim over all their values (log entry 1). -/

namespace Sys2Proof

/-- A Command has 12 bits (00_scope.md R7). -/
def cmdBits : Nat := 12

/-- Bit events from one FrameStart to materialisation (00_scope.md R7). -/
def frameBitEvents : Nat := 13

/-- The named parameters of 00_scope.md R8, in the table's order. Durations are in ticks. -/
structure Params where
  /-- TICK_PERIOD_US, in microseconds. -/
  tickPeriodUs : Nat
  /-- TIMER_WIDTH, in bits. -/
  timerWidth : Nat
  hdrLo : Nat
  hdrHi : Nat
  oneLo : Nat
  oneHi : Nat
  zeroLo : Nat
  zeroHi : Nat
  txHdrHigh : Nat
  txHdrLow : Nat
  txBitHigh : Nat
  txOneLow : Nat
  txZeroLow : Nat
  txTrlHigh : Nat
  txTrlLow : Nat
  /-- TX_LATENCY: the most ticks by which an encoder level change may lag its threshold. -/
  txLatency : Nat
  /-- QUEUE_N: usable slots of the Event Queue. -/
  queueN : Nat
  /-- HB_CAP, in bytes. -/
  hbCap : Nat
  /-- HB_THRESHOLD, in bytes. -/
  hbThreshold : Nat
  /-- HEX_TERM. -/
  hexTerm : Byte
deriving DecidableEq, Repr

/-- FREE VALUE (DESIGN CHOICE, log entry 27): TICKS_PER_MS at a tick period that does not divide 1000, 0 among them. The
spec gives the quotient 1000 / TICK_PERIOD_US and no rounding (00_scope.md R8, R9). No definition reads it. -/
opaque Config.openTicksPerMs : Nat → Nat

/-- TICKS_PER_MS = 1000 / TICK_PERIOD_US (00_scope.md R8) where the quotient is exact; elsewhere the spec states no value and
it is free (DESIGN CHOICE, log entry 27). No definition reads it. -/
def Params.ticksPerMs (p : Params) : Nat :=
  if 1000 % p.tickPeriodUs = 0 then 1000 / p.tickPeriodUs else Config.openTicksPerMs p.tickPeriodUs

/-- The defaults of 00_scope.md R8. DESIGN CHOICE (log entry 1): QUEUE_N is OPEN in the spec, and 4 is the value of its
test vectors. -/
def Params.default : Params where
  tickPeriodUs := 10
  timerWidth := 16
  hdrLo := 250
  hdrHi := 350
  oneLo := 150
  oneHi := 250
  zeroLo := 50
  zeroHi := 150
  txHdrHigh := 300
  txHdrLow := 100
  txBitHigh := 100
  txOneLow := 200
  txZeroLow := 100
  txTrlHigh := 100
  txTrlLow := 100
  txLatency := 0
  queueN := 4
  hbCap := 10
  hbThreshold := 6
  hexTerm := 0x78

/-- FREE VALUE (DESIGN CHOICE, log entry 11): what a 16-bit threshold TX.D1 or TX.D2 holds when the phase table asks for
a number of ticks that 16 bits cannot hold. The spec states no result there (10_state.md R39, 42_encoder.md R141); the
default parameters never reach it. -/
opaque Config.wideThreshold : Nat → Word16

end Sys2Proof
end

