-- ==== Sys2Proof/Syntax.lean ====
section
/-! DEFINITION. The value sets of the block (edge direction, Symbol, Event) and the ONE inductive of its unit operations,
one constructor per row of spec/opcode_table.json (30_encoding.md R70 to R72, R81). -/

namespace Sys2Proof

/-- Edge direction of the RI input line (30_encoding.md R70). -/
inductive Dir where
  | falling
  | rising
deriving DecidableEq, Repr

/-- The result of classifying one edge (30_encoding.md R71). -/
inductive Symbol where
  | bitZero
  | bitOne
  | header
  | invalid
deriving DecidableEq, Repr

/-- A tag with no payload: the content of one queue slot (30_encoding.md R72). -/
inductive Event where
  | bitLow
  | bitHigh
  | frameStart
  | uartCommandReady
deriving DecidableEq, Repr

/-- The unit operations a request word can ask for, in the order of the opcode map (30_encoding.md R81). -/
inductive Instr where
  /-- OP 0x0, every operand bit don't-care: refused ILLEGAL_OP (R83). -/
  | reserved (operands : BitVec 32)
  /-- OP 0x1 (40_classifier.md R100). -/
  | classify (dir : Dir) (elapsed : Word16)
  /-- OP 0x2, the GPIO edge interrupt (40_classifier.md R104). -/
  | edge (dir : Dir)
  /-- OP 0x3 (41_assembler.md R120). -/
  | beginFrame
  /-- OP 0x4 (41_assembler.md R121). -/
  | applyBit (bit : Bool)
  /-- OP 0x5 (44_queue.md R191). -/
  | put (event : Event)
  /-- OP 0x6 (44_queue.md R192). -/
  | get
  /-- OP 0x7 (44_queue.md R194). -/
  | empty
  /-- OP 0x8 (44_queue.md R195). -/
  | full
  /-- OP 0x9 (44_queue.md R196). -/
  | qreset
  /-- OP 0xA, the UART receive interrupt (43_hexparse.md R171). -/
  | uartByte (byte : Byte)
  /-- OP 0xB (43_hexparse.md R176). -/
  | parseHex
  /-- OP 0xC (42_encoder.md R140). -/
  | transmit (command : Word16)
  /-- OP 0xD (42_encoder.md R144). -/
  | outTick (d1 d2 : Word16)
  /-- OP 0xE, one iteration of the main loop (45_dispatcher.md R222). -/
  | dispatch
  /-- OP 0xF, one period of the Pulse Timer (60_exceptions.md R262). -/
  | timerTick
deriving DecidableEq, Repr

end Sys2Proof
end

