-- ==== Sys2Proof/Machine/State.lean ====
section
/-! DEFINITION. The state of the block as plain data (10_state.md R23 to R45), its fault and refusal types, and reset
(10_state.md R47, 70_reset_and_hazards.md R290). Field names follow the spec's UNIT.FIELD names. -/

namespace Sys2Proof.Machine

/-- HB.DATA as (index, byte) cells: indices strictly rising, no cell that holds 0. An unlisted index reads as 0, the reset
content of 10_state.md R31. -/
abbrev Memory := List Host.Cell

/-- DEC, the Input Decoder (10_state.md R23 to R26). -/
structure Decoder where
  /-- DEC.TICK, 0 to 12. -/
  tick : BitVec 4
  /-- DEC.BUF. -/
  buf : Command
  /-- DEC.CMD, the last materialised Command. -/
  cmd : Command
  /-- DEC.FIP, the frame-in-progress indicator. -/
  fip : Bool
deriving DecidableEq, Repr

/-- Q, the Event Queue (10_state.md R27 to R29): N+1 slots and two indices in 0 to N, where N = QUEUE_N. -/
structure EventQueue where
  /-- Q.SLOT[0..N]. -/
  slot : List Event
  /-- Q.HEAD, the producer index. -/
  head : Nat
  /-- Q.TAIL, the consumer index. -/
  tail : Nat
deriving DecidableEq, Repr

/-- HB, the HexCommandBuffer and its receive control (10_state.md R31 to R33). -/
structure HexBuffer where
  /-- HB.DATA[0..HB_CAP-1]. -/
  data : Memory
  /-- HB.LEN, the bytes received since the last clear. -/
  len : Nat
  /-- HB.ARMED. -/
  armed : Bool
deriving DecidableEq, Repr

/-- TX.MODE (10_state.md R35): 0 = FRAME, 1 = SINGLE. -/
inductive TxMode where
  | frame
  | single
deriving DecidableEq, Repr

/-- TX.HALF (10_state.md R38): 1 = HIGH, 0 = LOW. -/
inductive Half where
  | low
  | high
deriving DecidableEq, Repr

/-- TX, the Output Encoder (10_state.md R34 to R40). -/
structure Encoder where
  /-- TX.ACTIVE. -/
  active : Bool
  /-- TX.MODE. -/
  mode : TxMode
  /-- TX.CMD. -/
  cmd : Word16
  /-- TX.PHASE, 0 to 13. -/
  phase : BitVec 4
  /-- TX.HALF. -/
  half : Half
  /-- TX.D1, the end of the high half, in ticks from the phase's timer reset. -/
  d1 : Word16
  /-- TX.D2, the end of the phase, in ticks from the same reset. -/
  d2 : Word16
  /-- TX.PIN, the RI output level. -/
  pin : Bool
deriving DecidableEq, Repr

/-- DSP.STATE (10_state.md R42): LOOP at the top of the main loop, IN_TX blocked inside `transmit`. -/
inductive DspState where
  | loop
  | inTx
deriving DecidableEq, Repr

/-- PT, the Pulse Timer (10_state.md R43). -/
structure PulseTimer where
  /-- PT.COUNT, below 2^TIMER_WIDTH. -/
  count : Nat
  /-- PT.RUN. -/
  run : Bool
deriving DecidableEq, Repr

/-- The requests of the output signal `timer_ctl` (10_state.md R20; 60_exceptions.md R260, R261). -/
inductive TimerRequest where
  | reset
  | start
  | stop
deriving DecidableEq, Repr

/-- The codes of `raise Fault` (60_exceptions.md R254). -/
inductive FaultCode where
  | queueUnderflow
  | indexRange
deriving DecidableEq, Repr

/-- M.FAULT, a set of fault codes (10_state.md R44). -/
structure FaultSet where
  queueUnderflow : Bool
  indexRange : Bool
deriving DecidableEq, Repr

/-- The codes of `refuse` (60_exceptions.md R255). -/
inductive RefuseCode where
  | illegalOp
  | txBusy
deriving DecidableEq, Repr

/-- M.REFUSED, a set of refusal codes (10_state.md R44). -/
structure RefuseSet where
  illegalOp : Bool
  txBusy : Bool
deriving DecidableEq, Repr

/-- The codes of drops (60_exceptions.md R251). -/
inductive DropCode where
  | noise
  | hexEmpty
  | hexNoDigits
  | hexBadDigit
  | queueOverflow
  | uartDisarmed
deriving DecidableEq, Repr

/-- The entries of the output history (10_state.md R45). -/
inductive Obs where
  /-- A freshly materialised Command (45_dispatcher.md R224). -/
  | cmdReport (c : Command)
  /-- A command handed to transmit by the Dispatcher (45_dispatcher.md R227). -/
  | txReport (c : Word16)
  /-- A write of the output pin, with M.TIME at the write. -/
  | pin (level : Bool) (t : Nat)
  /-- A drop (60_exceptions.md R251). -/
  | drop (code : DropCode)
deriving DecidableEq, Repr

/-- M, the bookkeeping the spec gives the model (10_state.md R44, R45). -/
structure Book where
  /-- M.FAULT. -/
  fault : FaultSet
  /-- M.REFUSED. -/
  refused : RefuseSet
  /-- M.OUT, oldest entry first. -/
  out : List Obs
  /-- M.TIME, the TIMER_TICK steps taken since reset. -/
  time : Nat
deriving DecidableEq, Repr

/-- What an operation returns to its requester (30_encoding.md R85). -/
inductive Result where
  | symbol (s : Symbol)
  | event (e : Event)
  | bool (b : Bool)
  | optU16 (r : Option Word16)
deriving DecidableEq, Repr

/-- A step the block's own agents take, with no request word (00_scope.md R12, 30_encoding.md R84). -/
inductive AgentStep where
  /-- The Dispatcher's own DISPATCH (45_dispatcher.md R222). -/
  | dispatch
  /-- The encoder engine's TX_STEP (42_encoder.md R146). -/
  | txStep
  /-- The Dispatcher's TX_RETURN (45_dispatcher.md R229). -/
  | txReturn
deriving DecidableEq, Repr

/-- One move of the total order of steps (00_scope.md R12, 60_exceptions.md R275). An input edge, a UART byte and a timer
tick are the words EDGE, UART_BYTE and TIMER_TICK (10_state.md R20). -/
inductive Move where
  | request (w : ReqWord)
  | agent (a : AgentStep)
deriving DecidableEq, Repr

/-- MODEL'S OWN (log entry 10): ticks taken since each threshold of the engine, or TX_RETURN's condition, came to hold.
They bound TX_LATENCY (42_encoder.md R152) and are read nowhere else. -/
structure Lag where
  /-- Ticks since PT.COUNT reached TX.D1 in this phase. -/
  high : Nat
  /-- Ticks since PT.COUNT reached TX.D2 in this phase. -/
  low : Nat
  /-- Ticks since TX_RETURN became enabled. -/
  ret : Nat
deriving DecidableEq, Repr

/-- The whole state. The fields marked MODEL'S OWN are not the hardware's. -/
structure State where
  dec : Decoder
  q : EventQueue
  hb : HexBuffer
  tx : Encoder
  /-- CTL.INPUT_EN (10_state.md R41). -/
  inputEn : Bool
  /-- DSP.STATE (10_state.md R42). -/
  dsp : DspState
  pt : PulseTimer
  m : Book
  /-- The output signal `timer_ctl` (10_state.md R20): the requests made of the Pulse Timer since reset, the oldest first.
  MODEL'S OWN form (log entry 28): the spec names the requests and not how they are recorded. -/
  timerCtl : List TimerRequest
  /-- MODEL'S OWN place for the parameters of 00_scope.md R8 (log entry 1); no step writes it. -/
  par : Params
  /-- MODEL'S OWN (log entry 3): the moves chosen by the environment and the interleaving, the next one first. -/
  sched : List Move
  /-- MODEL'S OWN (log entry 8): what the last step returned, `none` where it returned nothing. -/
  result : Option Result
  /-- MODEL'S OWN (log entry 10). -/
  lag : Lag
deriving DecidableEq, Repr

/-- Why the machine stops. No request and no step of the block stops it: the spec's own faults are entries of M.FAULT
(60_exceptions.md R254), after which the run goes on. -/
inductive Fault where
  /-- Raised by `step` alone, when the parameters break a constraint of 00_scope.md R8, so that the spec describes no such
  block. Safe: the model stops where the spec gives no behaviour (log entry 15). -/
  | badParameters
deriving DecidableEq, Repr

/-- Why an instruction has no meaning. The spec's own refusals are entries of M.REFUSED (60_exceptions.md R255). -/
inductive Refusal where
  /-- Raised by an arm of `exec` whose instruction has no meaning yet; no arm does. Safe: nothing is claimed of it. -/
  | notModelled (mnemonic : String)
deriving DecidableEq, Repr

/-- The state right after reset, for any parameters and any contents of the queue slots (10_state.md R47,
70_reset_and_hazards.md R290): the slots are the only value the spec leaves unspecified. -/
def State.resetOf (p : Params) (slots : List Event) : State where
  dec := { tick := 0, buf := 0, cmd := 0, fip := false }
  q := { slot := slots, head := 0, tail := 0 }
  hb := { data := [], len := 0, armed := true }
  tx := { active := false, mode := .frame, cmd := 0, phase := 0, half := .low, d1 := 0, d2 := 0, pin := false }
  inputEn := true
  dsp := .loop
  pt := { count := 0, run := true }
  m := { fault := { queueUnderflow := false, indexRange := false }
         refused := { illegalOp := false, txBusy := false }
         out := []
         time := 0 }
  timerCtl := []
  par := p
  sched := []
  result := none
  lag := { high := 0, low := 0, ret := 0 }

/-- The machine right after reset, at the default parameters. DESIGN CHOICE (log entries 1 and 2): QUEUE_N = 4, and every
slot holds BitLow, where the spec leaves both open. -/
def State.reset : State := State.resetOf Params.default (List.replicate (Params.default.queueN + 1) .bitLow)

end Sys2Proof.Machine
end

