-- ==== Sys2Proof/Machine/Flags.lean ====
section
/-! DEFINITION. The block has no flags register (10_state.md R46). What other hardware would keep as flags is derived here
from the state: the queue's status (R30), the observed signals that repeat a field (R20) and which internal steps are enabled.
Of the other outputs of R20, `timer_ctl` is the field `timerCtl`, and the two reports are entries of M.OUT. -/

namespace Sys2Proof.Machine

/-- The modulus of every queue index: N+1 (44_queue.md R197). -/
def ringSize (s : State) : Nat := s.par.queueN + 1

/-- `Q.empty` (10_state.md R30). -/
def queueEmpty (s : State) : Bool := s.q.head == s.q.tail

/-- `Q.full`, with modulus N+1 (10_state.md R30). -/
def queueFull (s : State) : Bool := (s.q.head + 1) % ringSize s == s.q.tail

/-- `Q.count = (Q.HEAD - Q.TAIL) mod (N+1)`, for indices in 0 to N (10_state.md R30). -/
def queueCount (s : State) : Nat := (s.q.head + ringSize s - s.q.tail) % ringSize s

/-- The observed signal `ri_out` (10_state.md R20). -/
def riOut (s : State) : Bool := s.tx.pin

/-- The observed signal `input_irq_en` (10_state.md R20). -/
def inputIrqEn (s : State) : Bool := s.inputEn

/-- The observed signal `frame_active` (10_state.md R20). -/
def frameActive (s : State) : Bool := s.dec.fip

/-- TX_STEP is enabled (42_encoder.md R146): the engine runs and the count has reached the threshold of its half. -/
def txStepEnabled (s : State) : Bool :=
  s.tx.active &&
    match s.tx.half with
    | .high => decide (s.tx.d1.toNat ≤ s.pt.count)
    | .low => decide (s.tx.d2.toNat ≤ s.pt.count)

/-- TX_RETURN is enabled (45_dispatcher.md R229). -/
def txReturnEnabled (s : State) : Bool := s.dsp == .inTx && !s.tx.active

/-- The Dispatcher's own DISPATCH is enabled (45_dispatcher.md R222). -/
def dispatchEnabled (s : State) : Bool := s.dsp == .loop && !s.tx.active && !queueEmpty s

/-- An urgent step is enabled (00_scope.md R13). -/
def urgentEnabled (s : State) : Bool := txStepEnabled s || txReturnEnabled s

/-- How long the enabled urgent step has been due, in ticks (42_encoder.md R152). -/
def urgentLag (s : State) : Nat :=
  if txStepEnabled s then
    match s.tx.half with
    | .high => s.lag.high
    | .low => s.lag.low
  else s.lag.ret

/-- PT.COUNT after one period: one more modulo 2^TIMER_WIDTH while PT.RUN = 1 (60_exceptions.md R262). -/
def nextCount (s : State) : Nat :=
  if s.pt.run then (s.pt.count + 1) % 2 ^ s.par.timerWidth else s.pt.count

/-- One more period leaves an enabled TX_STEP enabled: the count does not wrap below the threshold that is due. After such a
wrap the TX_STEP could no longer come within TX_LATENCY ticks of its threshold, as 42_encoder.md R152 bounds it (DEDUCED, log
entry 10). -/
def tickKeepsDue (s : State) : Bool := !txStepEnabled s || txStepEnabled { s with pt.count := nextCount s }

/-- TIMER_TICK is enabled: no urgent step is, or the one that is has latency left and can still be taken after the tick
(00_scope.md R13, 42_encoder.md R152). -/
def tickAllowed (s : State) : Bool :=
  !urgentEnabled s || (decide (urgentLag s < s.par.txLatency) && tickKeepsDue s)

end Sys2Proof.Machine
end

