-- ==== Sys2Proof/Decode.lean ====
section
/-! DEFINITION. The codes of the value sets (30_encoding.md R70 to R72), the decoder of request words (R80 to R83), total
and rejecting by name, and after it the encoder, written from the same map (R81). -/

namespace Sys2Proof

/-- The 1-bit code of a direction (30_encoding.md R70): RISING = 1, FALLING = 0. -/
def Dir.code : Dir → BitVec 1
  | .falling => 0
  | .rising => 1

/-- The direction a bit stands for (30_encoding.md R70). -/
def Dir.ofBit (b : Bool) : Dir := if b then .rising else .falling

/-- The 2-bit code of a Symbol (30_encoding.md R71). -/
def Symbol.code : Symbol → BitVec 2
  | .bitZero => 0b00
  | .bitOne => 0b01
  | .header => 0b10
  | .invalid => 0b11

/-- The 2-bit tag of an Event (30_encoding.md R72). -/
def Event.code : Event → BitVec 2
  | .bitLow => 0b00
  | .bitHigh => 0b01
  | .frameStart => 0b10
  | .uartCommandReady => 0b11

/-- The Event a 2-bit tag stands for; no tag is reserved (30_encoding.md R72). -/
def Event.ofCode (c : BitVec 2) : Event :=
  if c = 0b00 then .bitLow else if c = 0b01 then .bitHigh else if c = 0b10 then .frameStart else .uartCommandReady

/-- Field OP of a request word, bits 35 to 32 (30_encoding.md R80). -/
def reqOp (w : ReqWord) : BitVec 4 := w.extractLsb' 32 4

/-- Field A of a request word, bits 31 to 16 (30_encoding.md R80). -/
def reqA (w : ReqWord) : Word16 := w.extractLsb' 16 16

/-- Field B of a request word, bits 15 to 0 (30_encoding.md R80). -/
def reqB (w : ReqWord) : Word16 := w.extractLsb' 0 16

/-- Why the decoder rejects a word (30_encoding.md R83). OP 0x0 is a row of the table, decoded to `Instr.reserved`. -/
inductive DecodeError where
  /-- An operand bit outside the row's fields is set. -/
  | operandBits (op : BitVec 4)
deriving DecidableEq, Repr

/-- `i` when every operand bit the row wants 0 is 0, else a rejection naming the row (30_encoding.md R83). -/
def decodeIf (op : BitVec 4) (clear : Bool) (i : Instr) : Except DecodeError Instr :=
  if clear then .ok i else .error (.operandBits op)

/-- The operation of the fields OP, A and B: the map of 30_encoding.md R81, row by row. -/
def decodeFields (op : BitVec 4) (a b : Word16) : Except DecodeError Instr :=
  match op.toNat with
  | 0x0 => .ok (.reserved (a ++ b))
  | 0x1 => decodeIf op (a >>> 1 == 0) (.classify (Dir.ofBit (a.getLsbD 0)) b)
  | 0x2 => decodeIf op (a >>> 1 == 0 && b == 0) (.edge (Dir.ofBit (a.getLsbD 0)))
  | 0x3 => decodeIf op (a == 0 && b == 0) .beginFrame
  | 0x4 => decodeIf op (a == 0 && b >>> 1 == 0) (.applyBit (b.getLsbD 0))
  | 0x5 => decodeIf op (a == 0 && b >>> 2 == 0) (.put (Event.ofCode (b.extractLsb' 0 2)))
  | 0x6 => decodeIf op (a == 0 && b == 0) .get
  | 0x7 => decodeIf op (a == 0 && b == 0) .empty
  | 0x8 => decodeIf op (a == 0 && b == 0) .full
  | 0x9 => decodeIf op (a == 0 && b == 0) .qreset
  | 0xA => decodeIf op (a == 0 && b >>> 8 == 0) (.uartByte (b.extractLsb' 0 8))
  | 0xB => decodeIf op (a == 0 && b == 0) .parseHex
  | 0xC => decodeIf op (a == 0) (.transmit b)
  | 0xD => .ok (.outTick a b)
  | 0xE => decodeIf op (a == 0 && b == 0) .dispatch
  | _ => decodeIf op (a == 0 && b == 0) .timerTick

/-- The decoder of request words: every 36-bit word is exactly one row of 30_encoding.md R81 or is rejected (R83). -/
def decode (w : ReqWord) : Except DecodeError Instr := decodeFields (reqOp w) (reqA w) (reqB w)

/-- The instruction the decoder reads from a table word of `nbits` bits, the bits above `nbits` being 0; `none` where it
rejects, and where a bit above the word's 36 bits is set. -/
def decodeTableWord (nbits w : Nat) : Option Instr :=
  let v := w % 2 ^ nbits
  if v < 2 ^ 36 then
    match decode (BitVec.ofNat 36 v) with
    | .ok i => some i
    | .error _ => none
  else none

/-- A request word from its three fields (30_encoding.md R80). -/
def reqWord (op : BitVec 4) (a b : Word16) : ReqWord := op ++ (a ++ b)

/-- The encoder, from the map of 30_encoding.md R81. -/
def encode : Instr → ReqWord
  | .reserved operands => reqWord 0x0 (operands.extractLsb' 16 16) (operands.extractLsb' 0 16)
  | .classify dir elapsed => reqWord 0x1 (dir.code.zeroExtend 16) elapsed
  | .edge dir => reqWord 0x2 (dir.code.zeroExtend 16) 0
  | .beginFrame => reqWord 0x3 0 0
  | .applyBit bit => reqWord 0x4 0 ((BitVec.ofBool bit).zeroExtend 16)
  | .put event => reqWord 0x5 0 (event.code.zeroExtend 16)
  | .get => reqWord 0x6 0 0
  | .empty => reqWord 0x7 0 0
  | .full => reqWord 0x8 0 0
  | .qreset => reqWord 0x9 0 0
  | .uartByte byte => reqWord 0xA 0 (byte.zeroExtend 16)
  | .parseHex => reqWord 0xB 0 0
  | .transmit command => reqWord 0xC 0 command
  | .outTick d1 d2 => reqWord 0xD d1 d2
  | .dispatch => reqWord 0xE 0 0
  | .timerTick => reqWord 0xF 0 0

/-- The mnemonic of an operation, as spec/opcode_table.json spells it. -/
def Instr.mnemonic : Instr → String
  | .reserved _ => "(reserved)"
  | .classify _ _ => "CLASSIFY"
  | .edge _ => "EDGE"
  | .beginFrame => "BEGIN_FRAME"
  | .applyBit _ => "APPLY_BIT"
  | .put _ => "PUT"
  | .get => "GET"
  | .empty => "EMPTY"
  | .full => "FULL"
  | .qreset => "QRESET"
  | .uartByte _ => "UART_BYTE"
  | .parseHex => "PARSE_HEX"
  | .transmit _ => "TRANSMIT"
  | .outTick _ _ => "OUTTICK"
  | .dispatch => "DISPATCH"
  | .timerTick => "TIMER_TICK"

/-- One row of spec/opcode_table.json: a word is the row's when its bits under `mask` are `pattern`. -/
structure OpRow where
  mnemonic : String
  pattern : ReqWord
  mask : ReqWord
deriving DecidableEq, Repr

/-- The opcode table of 30_encoding.md R81, with the table's own match and mask. -/
def opcodeTable : List OpRow :=
  [⟨"(reserved)", 0x000000000, 0xF00000000⟩,
   ⟨"CLASSIFY", 0x100000000, 0xFFFFE0000⟩,
   ⟨"EDGE", 0x200000000, 0xFFFFEFFFF⟩,
   ⟨"BEGIN_FRAME", 0x300000000, 0xFFFFFFFFF⟩,
   ⟨"APPLY_BIT", 0x400000000, 0xFFFFFFFFE⟩,
   ⟨"PUT", 0x500000000, 0xFFFFFFFFC⟩,
   ⟨"GET", 0x600000000, 0xFFFFFFFFF⟩,
   ⟨"EMPTY", 0x700000000, 0xFFFFFFFFF⟩,
   ⟨"FULL", 0x800000000, 0xFFFFFFFFF⟩,
   ⟨"QRESET", 0x900000000, 0xFFFFFFFFF⟩,
   ⟨"UART_BYTE", 0xA00000000, 0xFFFFFFF00⟩,
   ⟨"PARSE_HEX", 0xB00000000, 0xFFFFFFFFF⟩,
   ⟨"TRANSMIT", 0xC00000000, 0xFFFFF0000⟩,
   ⟨"OUTTICK", 0xD00000000, 0xF00000000⟩,
   ⟨"DISPATCH", 0xE00000000, 0xFFFFFFFFF⟩,
   ⟨"TIMER_TICK", 0xF00000000, 0xFFFFFFFFF⟩]

/-- Whether a word is an instance of a row. -/
def OpRow.covers (r : OpRow) (w : ReqWord) : Bool := w &&& r.mask == r.pattern

end Sys2Proof
end

