-- ==== Sys2Proof/Machine/Operands.lean ====
section
/-! DEFINITION. The operand and result forms: codes of results (30_encoding.md R85), of modes and of drop, fault and refusal
codes, the Symbol-to-Event map (R73), hex characters (R77) and the phase thresholds (42_encoder.md R141). -/

namespace Sys2Proof.Machine

/-- The width of a result in bits (30_encoding.md R85). -/
def Result.width : Result → Nat
  | .symbol _ => 2
  | .event _ => 2
  | .bool _ => 1
  | .optU16 _ => 17

/-- The value of a result's bits (30_encoding.md R85): `ok` of an Option u16 is bit 16, and its value is 0 when `ok` is. -/
def Result.value : Result → Nat
  | .symbol s => s.code.toNat
  | .event e => e.code.toNat
  | .bool b => b.toNat
  | .optU16 (some v) => 2 ^ 16 + v.toNat
  | .optU16 none => 0

/-- The 1-bit code of TX.MODE (10_state.md R35). -/
def TxMode.code : TxMode → BitVec 1
  | .frame => 0
  | .single => 1

/-- The 1-bit code of TX.HALF (10_state.md R38). -/
def Half.code : Half → BitVec 1
  | .low => 0
  | .high => 1

/-- The 1-bit code of DSP.STATE (10_state.md R42). -/
def DspState.code : DspState → BitVec 1
  | .loop => 0
  | .inTx => 1

/-- The value of a drop code (60_exceptions.md R251). -/
def DropCode.value : DropCode → Nat
  | .noise => 1
  | .hexEmpty => 2
  | .hexNoDigits => 3
  | .hexBadDigit => 4
  | .queueOverflow => 5
  | .uartDisarmed => 6

/-- The value of a fault code (60_exceptions.md R254). -/
def FaultCode.value : FaultCode → Nat
  | .queueUnderflow => 1
  | .indexRange => 2

/-- The value of a refusal code (60_exceptions.md R255). -/
def RefuseCode.value : RefuseCode → Nat
  | .illegalOp => 1
  | .txBusy => 2

/-- The Event a Symbol becomes; Invalid becomes none (30_encoding.md R73). -/
def eventOf : Symbol → Option Event
  | .header => some .frameStart
  | .bitOne => some .bitHigh
  | .bitZero => some .bitLow
  | .invalid => none

/-- The bit event of a bit (45_dispatcher.md R224): BitHigh for 1, BitLow for 0. -/
def bitEvent (b : Bool) : Event := if b then .bitHigh else .bitLow

/-- The value of a hex digit character, `none` for every other byte (30_encoding.md R77). -/
def hexValue (b : Byte) : Option Nat :=
  if 0x30 ≤ b ∧ b ≤ 0x39 then some (b.toNat - 0x30)
  else if 0x61 ≤ b ∧ b ≤ 0x66 then some (b.toNat - 0x61 + 10)
  else if 0x41 ≤ b ∧ b ≤ 0x46 then some (b.toNat - 0x41 + 10)
  else none

/-- A number of ticks as the content of TX.D1 or TX.D2, 16 bits each (10_state.md R39). Beyond 16 bits the spec states no
content and it is the free value of log entry 11. -/
def threshold (n : Nat) : Word16 := if n < 2 ^ 16 then BitVec.ofNat 16 n else Config.wideThreshold n

/-- `phase(k, c)`, the end of the high half and the end of the window of phase k of a frame for c (42_encoder.md R141):
k = 0 the header, k = 1 to 12 data bit 12 - k, k = 13 the trailer. Bits 15 to 12 of c are never read (R142). -/
def phaseTicks (p : Params) (k : Nat) (c : Word16) : Nat × Nat :=
  if k = 0 then (p.txHdrHigh, p.txHdrHigh + p.txHdrLow)
  else if k ≤ 12 then
    if c.getLsbD (12 - k) then (p.txBitHigh, p.txBitHigh + p.txOneLow) else (p.txBitHigh, p.txBitHigh + p.txZeroLow)
  else (p.txTrlHigh, p.txTrlHigh + p.txTrlLow)

end Sys2Proof.Machine
end

