-- ==== Sys2Proof/Machine/Ops.lean ====
section
/-! DEFINITION. The named operations over the state: emit, raise and refuse (60_exceptions.md R252 to R255), the storage
primitives (20_memory.md R51), the Pulse Timer (60_exceptions.md R260 to R262), the queue (44_queue.md R191, R192), the bit
assembler (41_assembler.md R120, R121), the hex parse (43_hexparse.md R174) and the phases of the encoder (42_encoder.md
R143). An operation that may raise answers `Except FaultCode`; `commit` turns its answer into the step's state. -/

namespace Sys2Proof.Machine

/-! ### Observations, faults and refusals -/

/-- `emit`: append an entry to the output history (00_scope.md R10). -/
def emit (o : Obs) (s : State) : State := { s with m.out := s.m.out ++ [o] }

/-- Add a code to M.FAULT. -/
def FaultSet.add (c : FaultCode) (f : FaultSet) : FaultSet :=
  match c with
  | .queueUnderflow => { f with queueUnderflow := true }
  | .indexRange => { f with indexRange := true }

/-- Whether a code is in M.FAULT. -/
def FaultSet.has (c : FaultCode) (f : FaultSet) : Bool :=
  match c with
  | .queueUnderflow => f.queueUnderflow
  | .indexRange => f.indexRange

/-- Add a code to M.REFUSED. -/
def RefuseSet.add (c : RefuseCode) (r : RefuseSet) : RefuseSet :=
  match c with
  | .illegalOp => { r with illegalOp := true }
  | .txBusy => { r with txBusy := true }

/-- Whether a code is in M.REFUSED. -/
def RefuseSet.has (c : RefuseCode) (r : RefuseSet) : Bool :=
  match c with
  | .illegalOp => r.illegalOp
  | .txBusy => r.txBusy

/-- The state after an operation that returns `r` (30_encoding.md R85). No result outlives its step (10_state.md R46). -/
def returning (r : Option Result) (s : State) : State := { s with result := r }

/-- `raise Fault(code)` in a step that began at `s`: the step's writes are discarded, the code is added to M.FAULT, no
result is returned, and the run may go on (60_exceptions.md R254). -/
def raiseFault (c : FaultCode) (s : State) : State := { s with m.fault := s.m.fault.add c, result := none }

/-- `refuse(code)`: nothing changes but M.REFUSED, and no result is returned (60_exceptions.md R255). -/
def refuse (c : RefuseCode) (s : State) : State := { s with m.refused := s.m.refused.add c, result := none }

/-- The state a step that began at `s` ends in: the operation's state and result, or `raiseFault`. -/
def commit (s : State) (r : Except FaultCode (State × Option Result)) : State :=
  match r with
  | .ok (t, res) => returning res t
  | .error c => raiseFault c s

/-! ### Storage -/

/-- The byte at an index: 0 where nothing is listed (10_state.md R31). -/
def Memory.read (m : Memory) (i : Nat) : Byte :=
  match m with
  | [] => 0
  | (j, b) :: rest => if j = i then b else Memory.read rest i

/-- Write a byte, keeping the canonical form: a written 0 removes the cell. -/
def Memory.write (m : Memory) (i : Nat) (b : Byte) : Memory :=
  match m with
  | [] => if b = 0 then [] else [(i, b)]
  | (j, c) :: rest =>
    if j < i then (j, c) :: Memory.write rest i b
    else if j = i then (if b = 0 then rest else (i, b) :: rest)
    else if b = 0 then (j, c) :: rest
    else (i, b) :: (j, c) :: rest

/-- No cell lies below `lo`, the indices rise strictly, and no cell holds 0. -/
def Memory.wfFrom (lo : Nat) (m : Memory) : Bool :=
  match m with
  | [] => true
  | (i, b) :: rest => decide (lo ≤ i) && b != 0 && Memory.wfFrom (i + 1) rest

/-- The canonical form of a memory. -/
def Memory.wf (m : Memory) : Bool := Memory.wfFrom 0 m

/-- `MemRead(HB, i)` (20_memory.md R51). -/
def hbRead (s : State) (i : Nat) : Except FaultCode Byte :=
  if i < s.par.hbCap then .ok (s.hb.data.read i) else .error .indexRange

/-- `MemWrite(HB, i, b)` (20_memory.md R51). -/
def hbWrite (i : Nat) (b : Byte) (s : State) : Except FaultCode State :=
  if i < s.par.hbCap then .ok { s with hb.data := s.hb.data.write i b } else .error .indexRange

/-- `MemRead(HB, 0)` to `MemRead(HB, n - 1)`, in arrival order: what the backward scan of 43_hexparse.md R174 reads. The scan
reads index n - 1 first, so it raises INDEX_RANGE when that index lies outside the array (20_memory.md R51). -/
def hbFirst (s : State) (n : Nat) : Except FaultCode (List Byte) :=
  if n ≤ s.par.hbCap then .ok ((List.range n).map s.hb.data.read) else .error .indexRange

/-- `MemRead(Q, i)` (20_memory.md R51). -/
def slotRead (s : State) (i : Nat) : Except FaultCode Event :=
  match s.q.slot[i]? with
  | some e => .ok e
  | none => .error .indexRange

/-- `MemWrite(Q, i, e)` (20_memory.md R51). -/
def slotWrite (i : Nat) (e : Event) (s : State) : Except FaultCode State :=
  if i < s.q.slot.length then .ok { s with q.slot := s.q.slot.set i e } else .error .indexRange

/-! ### The Pulse Timer -/

/-- After the count goes to 0, a threshold of 0 ticks still holds and any other holds no more (log entry 10). -/
def Lag.settle (s : State) : Lag :=
  { s.lag with
    high := if s.tx.d1 = 0 then s.lag.high else 0
    low := if s.tx.d2 = 0 then s.lag.low else 0 }

/-- `elapsedTicks()` (60_exceptions.md R260). -/
def elapsedTicks (s : State) : Nat := s.pt.count

/-- Make a request on the output signal `timer_ctl` (10_state.md R20, log entry 28). -/
def requestTimer (r : TimerRequest) (s : State) : State := { s with timerCtl := s.timerCtl ++ [r] }

/-- Timer `reset()`: the count goes to 0, PT.RUN stays (60_exceptions.md R260). -/
def timerReset (s : State) : State := { requestTimer .reset s with pt.count := 0, lag := Lag.settle s }

/-- Timer start, the source's "re-arm" (60_exceptions.md R261). It also calls `reset()` (R260), so it makes two requests; that
`start` comes first is DEDUCED from R261's order of the two writes (log entry 28). -/
def timerStart (s : State) : State := { timerReset (requestTimer .start s) with pt.run := true }

/-- Timer stop: the count stays (60_exceptions.md R261). -/
def timerStop (s : State) : State := { requestTimer .stop s with pt.run := false }

/-- The lag counts after one period: one more where the threshold held before it and holds after it, and for TX_RETURN
where it was enabled; 0 elsewhere (log entry 10). -/
def Lag.advance (s : State) : Lag where
  high := if s.tx.active ∧ s.tx.d1.toNat ≤ s.pt.count ∧ s.tx.d1.toNat ≤ nextCount s then s.lag.high + 1 else 0
  low := if s.tx.active ∧ s.tx.d2.toNat ≤ s.pt.count ∧ s.tx.d2.toNat ≤ nextCount s then s.lag.low + 1 else 0
  ret := if txReturnEnabled s then s.lag.ret + 1 else 0

/-- One period of the Pulse Timer (60_exceptions.md R262). -/
def timerAdvance (s : State) : State :=
  { s with pt.count := nextCount s, m.time := s.m.time + 1, lag := Lag.advance s }

/-! ### The Event Queue -/

/-- The step of a queue index: one more modulo N+1 (44_queue.md R191, 90_conflicts.md C1). -/
def ringNext (s : State) (i : Nat) : Nat := (i + 1) % ringSize s

/-- The overflow branch of `put`: drop the oldest unread event (44_queue.md R191). -/
def dropOldest (s : State) : State := emit (.drop .queueOverflow) { s with q.tail := ringNext s s.q.tail }

/-- `put(e)`, with overwrite on full (44_queue.md R191). -/
def putEvent (e : Event) (s : State) : Except FaultCode State :=
  let t := if queueFull s then dropOldest s else s
  match slotWrite t.q.head e t with
  | .ok u => .ok { u with q.head := ringNext u u.q.head }
  | .error c => .error c

/-- `get()` (44_queue.md R192). The slot read keeps its value. -/
def getEvent (s : State) : Except FaultCode (Event × State) :=
  if queueEmpty s then .error .queueUnderflow
  else
    match slotRead s s.q.tail with
    | .ok e => .ok (e, { s with q.tail := ringNext s s.q.tail })
    | .error c => .error c

/-! ### The Input Decoder -/

/-- `classifyEdge(dir, e)`, a pure function of the windows, the direction and the elapsed ticks: open windows, and BitOne
before BitZero where they overlap (40_classifier.md R100 to R103). -/
def classifyEdge (p : Params) (dir : Dir) (e : Nat) : Symbol :=
  match dir with
  | .rising => if p.hdrLo < e ∧ e < p.hdrHi then .header else .invalid
  | .falling =>
    if p.oneLo < e ∧ e < p.oneHi then .bitOne
    else if p.zeroLo < e ∧ e < p.zeroHi then .bitZero
    else .invalid

/-- The edge handler's work on an enabled edge: read the count, reset it, classify, enqueue or drop (40_classifier.md
R104 to R106). -/
def handleEdge (dir : Dir) (s : State) : Except FaultCode State :=
  let t := timerReset s
  match eventOf (classifyEdge s.par dir (elapsedTicks s)) with
  | none => .ok (emit (.drop .noise) t)
  | some e => putEvent e t

/-- `beginFrame()` (41_assembler.md R120). -/
def beginFrame (s : State) : State := { s with dec.tick := 0, dec.buf := 0 }

/-- A 12-bit buffer with bit `i` set to `b`. -/
def setBit (v : Command) (i : Nat) (b : Bool) : Command :=
  if b then v ||| (1#12 <<< i) else v &&& ~~~(1#12 <<< i)

/-- The bit buffer after a bit event: position 12 - TICK is written while TICK is 1 to 12 (41_assembler.md R121). -/
def bufAfter (d : Decoder) (b : Bool) : Command :=
  if 1 ≤ d.tick.toNat ∧ d.tick.toNat ≤ 12 then setBit d.buf (12 - d.tick.toNat) b else d.buf

/-- `applyBit(bit)`: the decoder after it, and whether a Command was materialised (41_assembler.md R121, R122). -/
def assembleBit (b : Bool) (d : Decoder) : Decoder × Bool :=
  let buf := bufAfter d b
  if 12 < d.tick.toNat + 1 then ({ d with buf := buf, tick := 0, cmd := buf }, true)
  else ({ d with buf := buf, tick := d.tick + 1 }, false)

/-! ### The HexCommandBuffer -/

/-- The three failures of a parse (43_hexparse.md R175). -/
inductive HexFailure where
  | empty
  | noDigits
  | badDigit
deriving DecidableEq, Repr

/-- The drop code of a parse failure (43_hexparse.md R175). -/
def HexFailure.dropCode : HexFailure → DropCode
  | .empty => .hexEmpty
  | .noDigits => .hexNoDigits
  | .badDigit => .hexBadDigit

/-- The backward scan of 43_hexparse.md R174 over the bytes from the last received on: `v` the value so far, `w` the weight
of the next digit. It stops at the terminator or past index 0. -/
def scanHex (term : Byte) (rev : List Byte) (v w : Nat) : Except HexFailure Nat :=
  match rev with
  | [] => .ok v
  | b :: rest =>
    if b = term then .ok v
    else
      match hexValue b with
      | some d => scanHex term rest (v + d * w) (w * 16)
      | none => .error .badDigit

/-- `parseHex(data, len)` over the first `len` bytes, in arrival order (43_hexparse.md R174, R178 to R180). -/
def parseHex (term : Byte) (bytes : List Byte) : Except HexFailure Word16 :=
  match bytes.reverse with
  | [] => .error .empty
  | b :: rest =>
    if b = term then .error .noDigits
    else
      match scanHex term (b :: rest) 0 1 with
      | .ok v => .ok (BitVec.ofNat 16 v)
      | .error f => .error f

/-- The clear after a parse: HB.DATA all 0, HB.LEN 0 (43_hexparse.md R176). -/
def hbClear (s : State) : State := { s with hb.data := [], hb.len := 0 }

/-- Parse and clear, the parse step of the Dispatcher and of PARSE_HEX; HB.ARMED stays (43_hexparse.md R176). -/
def parseAndClear (s : State) : Except FaultCode (Option Word16 × State) :=
  match hbFirst s s.hb.len with
  | .error c => .error c
  | .ok bytes =>
    match parseHex s.par.hexTerm bytes with
    | .ok v => .ok (some v, hbClear s)
    | .error f => .ok (none, hbClear (emit (.drop f.dropCode) s))

/-- The UART handler's work on one byte (43_hexparse.md R171 to R173). It stops accepting bytes when HB.LEN reaches HB_THRESHOLD
(10_state.md R32), so that HB.LEN never exceeds it and every byte beyond stays 0 (43_hexparse.md R171, R182). Where the path is
armed with HB.LEN at the threshold, the byte is dropped (DEDUCED; the drop code is a DESIGN CHOICE; log entry 14). -/
def handleByte (b : Byte) (s : State) : Except FaultCode State :=
  if s.hb.armed && decide (s.hb.len < s.par.hbThreshold) then
    match hbWrite s.hb.len b s with
    | .error c => .error c
    | .ok t =>
      let u : State := { t with hb.len := t.hb.len + 1 }
      if u.hb.len = u.par.hbThreshold then putEvent .uartCommandReady { u with hb.armed := false }
      else .ok u
  else .ok (emit (.drop .uartDisarmed) s)

/-! ### The Output Encoder -/

/-- Drive the output pin and record it (42_encoder.md R143, R146; 60_exceptions.md R267). -/
def drivePin (level : Bool) (s : State) : State := emit (.pin level s.m.time) { s with tx.pin := level }

/-- Begin the high half of an outTick with the thresholds in TX.D1 and TX.D2: timer reset, pin high, engine running
(42_encoder.md R143, R144). -/
def beginHigh (s : State) : State :=
  let t := drivePin true (timerReset s)
  { t with tx.half := .high, tx.active := true, lag := { high := 0, low := 0, ret := 0 } }

/-- `startPhase(k)` (42_encoder.md R143). -/
def startPhase (k : Nat) (s : State) : State :=
  let d := phaseTicks s.par k s.tx.cmd
  beginHigh { s with tx.phase := BitVec.ofNat 4 k, tx.d1 := threshold d.1, tx.d2 := threshold d.2 }

/-- The engine's run of a frame begins: `transmit(c)` past its busy check (42_encoder.md R140). -/
def startFrame (c : Word16) (s : State) : State :=
  startPhase 0 (timerStart { s with tx.cmd := c, tx.mode := .frame })

/-- The engine's run of one outTick begins: `outTick(d1, d2)` past its busy check (42_encoder.md R144). It does not start
the timer. -/
def startSingle (d1 d2 : Word16) (s : State) : State :=
  beginHigh { s with tx.mode := .single, tx.phase := 0, tx.d1 := d1, tx.d2 := d2 }

/-- The engine's run ends (42_encoder.md R146). -/
def endRun (s : State) : State := { s with tx.active := false, lag := { high := 0, low := 0, ret := 0 } }

/-! ### The Dispatcher's handlers -/

/-- `onFrameStart()` (45_dispatcher.md R223). -/
def onFrameStart (s : State) : State := { beginFrame s with dec.fip := true }

/-- `onBit(b)` (45_dispatcher.md R224): a materialised Command is reported once, and DEC.FIP cleared. -/
def onBit (b : Bool) (s : State) : State :=
  let r := assembleBit b s.dec
  let t : State := { s with dec := r.1 }
  if r.2 then { emit (.cmdReport t.dec.cmd) t with dec.fip := false } else t

/-- `onUartReady()` (45_dispatcher.md R225 to R228): parse, then re-arm on failure, or disable the input, report and start
the frame. -/
def onUartReady (s : State) : Except FaultCode State :=
  match parseAndClear s with
  | .error c => .error c
  | .ok (none, t) => .ok { t with hb.armed := true }
  | .ok (some c, t) => .ok { startFrame c (emit (.txReport c) { t with inputEn := false }) with dsp := .inTx }

/-- One iteration of the main loop on a non-empty queue (45_dispatcher.md R222). -/
def dispatchOne (s : State) : Except FaultCode State :=
  match getEvent s with
  | .error c => .error c
  | .ok (.frameStart, t) => .ok (onFrameStart t)
  | .ok (.bitLow, t) => .ok (onBit false t)
  | .ok (.bitHigh, t) => .ok (onBit true t)
  | .ok (.uartCommandReady, t) => onUartReady t

/-- An operation that may raise and returns nothing. -/
def noResult (r : Except FaultCode State) : Except FaultCode (State × Option Result) :=
  match r with
  | .ok t => .ok (t, none)
  | .error c => .error c

end Sys2Proof.Machine
end

