-- ==== Sys2Proof/Machine/Assembler.lean ====
section
/-! DEFINITION. The meanings of the Input Decoder's bit assembler: BEGIN_FRAME and APPLY_BIT (41_assembler.md). -/

namespace Sys2Proof.Machine

/-- `BEGIN_FRAME` (41_assembler.md R120). -/
def execBeginFrame (s : State) : Host.Outcome State Fault Refusal :=
  .next (returning none (beginFrame s))

/-- `APPLY_BIT`: returns true exactly when a Command was materialised (41_assembler.md R121). As a direct request it reports
nothing and leaves DEC.FIP, which are the Dispatcher's (45_dispatcher.md R224). -/
def execApplyBit (bit : Bool) (s : State) : Host.Outcome State Fault Refusal :=
  let r := assembleBit bit s.dec
  .next (returning (some (.bool r.2)) { s with dec := r.1 })

end Sys2Proof.Machine
end

