-- ==== Sys2Proof/Machine/Classifier.lean ====
section
/-! DEFINITION. The meanings of the Input Decoder's classifier: CLASSIFY and EDGE (40_classifier.md). -/

namespace Sys2Proof.Machine

/-- `CLASSIFY`: returns the Symbol; reads no state but the parameters and writes none (40_classifier.md R100). -/
def execClassify (dir : Dir) (elapsed : Word16) (s : State) : Host.Outcome State Fault Refusal :=
  .next (returning (some (.symbol (classifyEdge s.par dir elapsed.toNat))) s)

/-- `EDGE`: the edge handler while the input is enabled, nothing while it is not (40_classifier.md R104, R107). -/
def execEdge (dir : Dir) (s : State) : Host.Outcome State Fault Refusal :=
  .next (if s.inputEn then commit s (noResult (handleEdge dir s)) else returning none s)

end Sys2Proof.Machine
end

