-- ==== Sys2Proof/Machine/Encoder.lean ====
section
/-! DEFINITION. The Output Encoder: the meanings of TRANSMIT and OUTTICK, and the engine's internal step TX_STEP
(42_encoder.md). -/

namespace Sys2Proof.Machine

/-- `TRANSMIT`: starts a frame, or is refused TX_BUSY while the engine runs (42_encoder.md R140, R148). It leaves
CTL.INPUT_EN and DSP.STATE and emits no TxReport, which are the Dispatcher's (R156). -/
def execTransmit (command : Word16) (s : State) : Host.Outcome State Fault Refusal :=
  .next (if s.tx.active then refuse .txBusy s else returning none (startFrame command s))

/-- `OUTTICK`: starts one phase on its own, or is refused TX_BUSY while the engine runs (42_encoder.md R144, R148). -/
def execOutTick (d1 d2 : Word16) (s : State) : Host.Outcome State Fault Refusal :=
  .next (if s.tx.active then refuse .txBusy s else returning none (startSingle d1 d2 s))

/-- What TX_STEP does when it is enabled (42_encoder.md R146): end the high half, or end the phase and start the next one,
or end the run, stopping the timer after a frame's trailer. -/
def txStep (s : State) : State :=
  match s.tx.half with
  | .high => { drivePin false s with tx.half := .low }
  | .low =>
    match s.tx.mode with
    | .single => endRun s
    | .frame => if s.tx.phase.toNat < 13 then startPhase (s.tx.phase.toNat + 1) s else endRun (timerStop s)

end Sys2Proof.Machine
end

