-- ==== Sys2Proof/Machine/HexBuffer.lean ====
section
/-! DEFINITION. The meanings of the HexCommandBuffer's operations: UART_BYTE and PARSE_HEX (43_hexparse.md). -/

namespace Sys2Proof.Machine

/-- `UART_BYTE`: the UART handler (43_hexparse.md R171 to R173). -/
def execUartByte (byte : Byte) (s : State) : Host.Outcome State Fault Refusal :=
  .next (commit s (noResult (handleByte byte s)))

/-- `PARSE_HEX`: parse and clear, returning the Option; HB.ARMED stays (43_hexparse.md R176). -/
def execParseHex (s : State) : Host.Outcome State Fault Refusal :=
  .next (commit s
    (match parseAndClear s with
     | .ok (r, t) => .ok (t, some (.optU16 r))
     | .error c => .error c))

end Sys2Proof.Machine
end

