-- ==== Sys2Proof/Machine/MainLoop.lean ====
section
/-! DEFINITION. The Dispatcher: the meaning of DISPATCH, the internal step TX_RETURN, and the urgent step of a state
(45_dispatcher.md R222, R229; 00_scope.md R13). -/

namespace Sys2Proof.Machine

/-- `DISPATCH`: refused TX_BUSY while the Dispatcher is blocked or the engine runs, nothing on an empty queue, else one
event dequeued and handled (45_dispatcher.md R222). -/
def execDispatch (s : State) : Host.Outcome State Fault Refusal :=
  .next
    (if s.dsp = .inTx ∨ s.tx.active = true then refuse .txBusy s
     else if queueEmpty s then returning none s
     else commit s (noResult (dispatchOne s)))

/-- What TX_RETURN does when it is enabled (45_dispatcher.md R229): re-enable the input, re-arm the timer and the UART,
return to the top of the loop. -/
def txReturn (s : State) : State :=
  { timerStart s with inputEn := true, hb.armed := true, dsp := .loop, lag := { high := 0, low := 0, ret := 0 } }

/-- The urgent step of a state (00_scope.md R13): TX_STEP, or else TX_RETURN; never are both enabled. -/
def urgentStep (s : State) : State :=
  if txStepEnabled s then txStep s else if txReturnEnabled s then txReturn s else s

end Sys2Proof.Machine
end

