-- ==== Sys2Proof/Machine/Queue.lean ====
section
/-! DEFINITION. The meanings of the Event Queue's operations: PUT, GET, EMPTY, FULL and QRESET (44_queue.md). -/

namespace Sys2Proof.Machine

/-- `PUT` (44_queue.md R191). -/
def execPut (event : Event) (s : State) : Host.Outcome State Fault Refusal :=
  .next (commit s (noResult (putEvent event s)))

/-- `GET`: returns the oldest unread event, or raises QUEUE_UNDERFLOW on an empty queue (44_queue.md R192, R198). -/
def execGet (s : State) : Host.Outcome State Fault Refusal :=
  .next (commit s
    (match getEvent s with
     | .ok (e, t) => .ok (t, some (.event e))
     | .error c => .error c))

/-- `EMPTY` (44_queue.md R194). -/
def execEmpty (s : State) : Host.Outcome State Fault Refusal :=
  .next (returning (some (.bool (queueEmpty s))) s)

/-- `FULL` (44_queue.md R195). -/
def execFull (s : State) : Host.Outcome State Fault Refusal :=
  .next (returning (some (.bool (queueFull s))) s)

/-- `QRESET`: every unread event is discarded, with no drop reported (44_queue.md R196). -/
def execQreset (s : State) : Host.Outcome State Fault Refusal :=
  .next (returning none { s with q.tail := s.q.head })

end Sys2Proof.Machine
end

