-- ==== Sys2Proof/Machine/Reserved.lean ====
section
/-! DEFINITION. The meaning of the reserved row OP 0x0 (30_encoding.md R83). -/

namespace Sys2Proof.Machine

/-- `(reserved)`: refuse(ILLEGAL_OP) whatever the operand bits are (30_encoding.md R83, 60_exceptions.md R255). -/
def execReserved (_operands : BitVec 32) (s : State) : Host.Outcome State Fault Refusal :=
  .next (refuse .illegalOp s)

end Sys2Proof.Machine
end

