-- ==== Sys2Proof/Machine/Timer.lean ====
section
/-! DEFINITION. The meaning of TIMER_TICK (60_exceptions.md R262, 00_scope.md R13). -/

namespace Sys2Proof.Machine

/-- `TIMER_TICK`: one period of the timer. While an urgent step is due the request waits: that step is taken in its place and
the request stays next in the schedule (60_exceptions.md R262, log entry 9). -/
def execTimerTick (s : State) : Host.Outcome State Fault Refusal :=
  .next
    (if tickAllowed s then returning none (timerAdvance s)
     else returning none { urgentStep s with sched := .request (encode .timerTick) :: s.sched })

end Sys2Proof.Machine
end

