-- ==== Sys2Proof/Machine/Dispatch.lean ====
section
/-! DEFINITION. The dispatch of an operation to its meaning, one arm per row of spec/opcode_table.json. -/

namespace Sys2Proof.Machine

def exec (i : Instr) (s : State) : Host.Outcome State Fault Refusal :=
  match i with
  | .reserved operands => Sys2Proof.Machine.execReserved operands s
  | .classify dir elapsed => Sys2Proof.Machine.execClassify dir elapsed s
  | .edge dir => Sys2Proof.Machine.execEdge dir s
  | .beginFrame => Sys2Proof.Machine.execBeginFrame s
  | .applyBit bit => Sys2Proof.Machine.execApplyBit bit s
  | .put event => Sys2Proof.Machine.execPut event s
  | .get => Sys2Proof.Machine.execGet s
  | .empty => Sys2Proof.Machine.execEmpty s
  | .full => Sys2Proof.Machine.execFull s
  | .qreset => Sys2Proof.Machine.execQreset s
  | .uartByte byte => Sys2Proof.Machine.execUartByte byte s
  | .parseHex => Sys2Proof.Machine.execParseHex s
  | .transmit command => Sys2Proof.Machine.execTransmit command s
  | .outTick d1 d2 => Sys2Proof.Machine.execOutTick d1 d2 s
  | .dispatch => Sys2Proof.Machine.execDispatch s
  | .timerTick => Sys2Proof.Machine.execTimerTick s

end Sys2Proof.Machine
end

