-- ==== Sys2Proof/WellFormed.lean ====
section
/-! DEFINITION. The checks the spec asks of parameters (00_scope.md R8, "Constraints a model must check") and of operands
(40_classifier.md R100). -/

namespace Sys2Proof

/-- `QUEUE_N ≥ 1`. -/
def Params.queueOk (p : Params) : Bool := decide (1 ≤ p.queueN)

/-- `HB_THRESHOLD ≤ HB_CAP`. -/
def Params.thresholdOk (p : Params) : Bool := decide (p.hbThreshold ≤ p.hbCap)

/-- The tick-valued parameters of 00_scope.md R8. -/
def Params.tickValued (p : Params) : List Nat :=
  [p.hdrLo, p.hdrHi, p.oneLo, p.oneHi, p.zeroLo, p.zeroHi, p.txHdrHigh, p.txHdrLow, p.txBitHigh, p.txOneLow,
    p.txZeroLow, p.txTrlHigh, p.txTrlLow, p.txLatency]

/-- Every tick-valued parameter is below `2^TIMER_WIDTH`. -/
def Params.ticksOk (p : Params) : Bool := p.tickValued.all fun t => decide (t < 2 ^ p.timerWidth)

/-- `TIMER_WIDTH ≤ 16`, since the request word is used. -/
def Params.widthOk (p : Params) : Bool := decide (p.timerWidth ≤ 16)

/-- All four constraints of 00_scope.md R8. The width is tested first, so that no huge power is computed. -/
def Params.wellFormed (p : Params) : Bool := p.widthOk && p.queueOk && p.thresholdOk && p.ticksOk

/-- An operand that the spec bounds: CLASSIFY's `elapsed` lies below `2^TIMER_WIDTH` (40_classifier.md R100). Every
other operand is legal at every value its field can hold (30_encoding.md R81, R82). -/
def Instr.wellFormed (p : Params) : Instr → Bool
  | .reserved _ => true
  | .classify _ elapsed => decide (elapsed.toNat < 2 ^ p.timerWidth)
  | .edge _ => true
  | .beginFrame => true
  | .applyBit _ => true
  | .put _ => true
  | .get => true
  | .empty => true
  | .full => true
  | .qreset => true
  | .uartByte _ => true
  | .parseHex => true
  | .transmit _ => true
  | .outTick _ _ => true
  | .dispatch => true
  | .timerTick => true

end Sys2Proof
end

