-- ==== Sys2Proof/Machine/Schedule.lean ====
section
/-! DEFINITION. What one move of the schedule does (00_scope.md R12): a request word is decoded and run or refused, an
agent's own step is taken when it is enabled, and with nothing scheduled the block runs on its own. -/

namespace Sys2Proof.Machine

/-- A request word, already taken from the schedule: the operation it decodes to, or refuse(ILLEGAL_OP), which comes before
every other check (30_encoding.md R83, 60_exceptions.md R256). -/
def runWord (w : ReqWord) (s : State) : Host.Outcome State Fault Refusal :=
  match decode w with
  | .ok i => exec i s
  | .error _ => .next (refuse .illegalOp s)

/-- An agent's own step, already taken from the schedule. The agent takes it only while it is enabled and is never refused
(60_exceptions.md R255); otherwise the move is spent and nothing changes (log entry 5). -/
def runAgent (a : AgentStep) (s : State) : Host.Outcome State Fault Refusal :=
  match a with
  | .dispatch => if dispatchEnabled s then execDispatch s else .next (returning none s)
  | .txStep => .next (returning none (if txStepEnabled s then txStep s else s))
  | .txReturn => .next (returning none (if txReturnEnabled s then txReturn s else s))

/-- The step taken when nothing is scheduled: an enabled urgent step, else an enabled DISPATCH, else a period of the timer
(00_scope.md R13, 45_dispatcher.md R233: "time passes and nothing else changes"; log entry 4). -/
def runAlone (s : State) : Host.Outcome State Fault Refusal :=
  if urgentEnabled s then .next (returning none (urgentStep s))
  else if dispatchEnabled s then execDispatch s
  else .next (returning none (timerAdvance s))

/-- The next move of the schedule, or the block on its own. -/
def runMove (s : State) : Host.Outcome State Fault Refusal :=
  match s.sched with
  | [] => runAlone s
  | .request w :: rest => runWord w { s with sched := rest }
  | .agent a :: rest => runAgent a { s with sched := rest }

/-- `s` with a request word put next in the schedule. -/
def withRequest (w : ReqWord) (s : State) : State := { s with sched := .request w :: s.sched }

end Sys2Proof.Machine
end

