-- ==== Sys2Proof/Machine/Step.lean ====
section
/-! DEFINITION. The one step function: one atomic step of the block (00_scope.md R12). -/

namespace Sys2Proof.Machine

/-- One step. Parameters that break a constraint of 00_scope.md R8 describe no block, and the model stops (log entry 15). -/
def step (s : State) : Host.Outcome State Fault Refusal :=
  if s.par.wellFormed then runMove s else .fault .badParameters

/-- `s` with the table word `w` of `nbits` bits next in the schedule, where `step` takes its next request from. -/
def State.withFetchWord (s : State) (nbits w : Nat) : State :=
  withRequest (BitVec.ofNat 36 (w % 2 ^ nbits)) s

end Sys2Proof.Machine
end

