-- ==== Sys2Proof/Machine/Pseudo.lean ====
section
/-! DEFINITION. The pseudo-operations of 30_encoding.md R87 and the decoder-input sequence of a frame (42_encoder.md R153).
A harness runs them: each is a sequence of requests it sends and of places where it lets every urgent step go first. The
machine itself does not know them. -/

namespace Sys2Proof.Machine

/-- The state after an outcome, the state before it where the machine stopped. -/
def stateAfter (s : State) (o : Host.Outcome State Fault Refusal) : State :=
  match o with
  | .next t => t
  | .fault _ => s
  | .refused _ => s

/-- At most `fuel` urgent steps, one after the other, while one is enabled (00_scope.md R13). -/
def takeUrgent (fuel : Nat) (s : State) : State :=
  match fuel with
  | 0 => s
  | n + 1 => if urgentEnabled s then takeUrgent n (returning none (urgentStep s)) else s

/-- Every urgent step then enabled. No tick passes between them, and 29 are enough from any state: two TX_STEPs for each of
the 14 phases of a frame, and TX_RETURN. -/
def settleUrgent (s : State) : State := takeUrgent 29 s

/-- One item of an expansion: a request, or "every urgent step then enabled" (30_encoding.md R87). -/
inductive HarnessStep where
  | request (i : Instr)
  | urgent
deriving DecidableEq, Repr

/-- The state after one item. -/
def runHarnessStep (h : HarnessStep) (s : State) : State :=
  match h with
  | .request i => stateAfter s (exec i s)
  | .urgent => settleUrgent s

/-- The state after an expansion. -/
def runHarness (hs : List HarnessStep) (s : State) : State := hs.foldl (fun t h => runHarnessStep h t) s

/-- `tick <n>`: n copies of `tick`, each preceded by every urgent step then enabled, whatever TX_LATENCY allows
(30_encoding.md R87). -/
def tickTimes (n : Nat) : List HarnessStep := (List.replicate n [.urgent, .request .timerTick]).flatten

/-- `send "<s>"`, one byte per character (30_encoding.md R87). -/
def sendBytes (bytes : List Byte) : List HarnessStep := bytes.map fun b => .request (.uartByte b)

/-- The data bits of a Command in the order of the line, bit 11 first (20_memory.md R53). -/
def lineBits (c : Command) : List Bool := (List.range cmdBits).map fun k => c.getLsbD (11 - k)

/-- Rows 4 to 27 of 42_encoder.md R153: for each data bit the rising edge that ends its high, and the falling edge that ends
its low. -/
def bitEdges (p : Params) (b : Bool) : List (Dir × Nat) :=
  [(.rising, p.txBitHigh), (.falling, if b then p.txOneLow else p.txZeroLow)]

/-- Rows 2 to 28 of 42_encoder.md R153: the edges a frame for `c` makes at the receiver, with the ticks since the edge
before. -/
def frameEdges (p : Params) (c : Command) : List (Dir × Nat) :=
  (.rising, p.txHdrHigh) :: (.falling, p.txHdrLow) ::
    ((lineBits c).flatMap (bitEdges p) ++ [(.rising, p.txTrlHigh)])

/-- `rxframe <c>`: row 1, and for each later row its ticks and its edge (30_encoding.md R87). -/
def rxFrame (p : Params) (c : Command) : List HarnessStep :=
  .request (.edge .falling) :: (frameEdges p c).flatMap fun r => tickTimes r.2 ++ [.request (.edge r.1)]

/-- `rxframe <c>` with a `dispatch` after each edge, which keeps the queue from overflowing at every QUEUE_N
(30_encoding.md R87). -/
def rxFrameDispatched (p : Params) (c : Command) : List HarnessStep :=
  .request (.edge .falling) :: .request .dispatch ::
    (frameEdges p c).flatMap fun r => tickTimes r.2 ++ [.request (.edge r.1), .request .dispatch]

/-- `drain`, at most `fuel` steps of it (30_encoding.md R87): urgent steps as they become enabled, and `dispatch` while the
queue is not empty and the Dispatcher is at LOOP. -/
def drain (fuel : Nat) (s : State) : State :=
  match fuel with
  | 0 => s
  | n + 1 =>
    if urgentEnabled s then drain n (returning none (urgentStep s))
    else if !queueEmpty s && s.dsp == .loop then drain n (stateAfter s (execDispatch s))
    else s

/-- `run_tx`, at most `fuel` steps of it (30_encoding.md R87): ticks with the urgent steps between, until the Dispatcher is at
LOOP and the engine is idle. -/
def runTx (fuel : Nat) (s : State) : State :=
  match fuel with
  | 0 => s
  | n + 1 =>
    if s.dsp == .loop && !s.tx.active then s
    else if urgentEnabled s then runTx n (returning none (urgentStep s))
    else runTx n (stateAfter s (execTimerTick s))

/-- One line of a program (30_encoding.md R86, R87): a line that expands without looking at the state, `drain`, or
`run_tx`. -/
inductive HarnessLine where
  | steps (hs : List HarnessStep)
  | drain
  | runTx
deriving DecidableEq, Repr

/-- The state after one line, with at most `fuel` steps of a line that looks at the state. -/
def runLine (fuel : Nat) (line : HarnessLine) (s : State) : State :=
  match line with
  | .steps hs => runHarness hs s
  | .drain => drain fuel s
  | .runTx => runTx fuel s

/-- The state after a program at TX_LATENCY = 0: every urgent step then enabled is taken after each line, before the next
(00_scope.md R13; the convention of 95_test_vectors.md). -/
def runProgram (fuel : Nat) (lines : List HarnessLine) (s : State) : State :=
  lines.foldl (fun t l => settleUrgent (runLine fuel l t)) s

end Sys2Proof.Machine
end

