-- ==== Sys2Proof/Safety.lean ====
section
/-! DEFINITION. What counts as a good state and a good run, in the terms claims use: the premises of 10_state.md R44 and
70_reset_and_hazards.md R294, the quiescent states (45_dispatcher.md R233), the queue as the list of its unread events
(44_queue.md R199 to R202), the invariant every step keeps, and the waveform of a frame (42_encoder.md R149). -/

namespace Sys2Proof.Machine

/-- "`M.FAULT` empty and `M.REFUSED` empty", the premise of every claim of the spec (10_state.md R44). -/
def untroubled (s : State) : Prop :=
  s.m.fault = { queueUnderflow := false, indexRange := false } ∧
    s.m.refused = { illegalOp := false, txBusy := false }

/-- The launch premise `clean_entry` (70_reset_and_hazards.md R294). -/
def cleanEntry (s : State) : Prop :=
  untroubled s ∧
    s.tx.active = false ∧ s.dsp = .loop ∧ s.inputEn = true ∧ s.hb.armed = true ∧ s.pt.run = true ∧
    s.hb.len = 0 ∧ (∀ i, s.hb.data.read i = 0) ∧ queueEmpty s = true ∧ s.dec.tick = 0

/-- A quiescent state (45_dispatcher.md R233). -/
def quiescent (s : State) : Prop := s.dsp = .loop ∧ s.tx.active = false ∧ queueEmpty s = true

/-- The slot index of the k-th unread event (44_queue.md R193). -/
def unreadIndex (s : State) (k : Nat) : Nat := (s.q.tail + k) % ringSize s

/-- Slot i holds an unread event (44_queue.md R193). -/
def unreadAt (s : State) (i : Nat) : Prop := ∃ k, k < queueCount s ∧ unreadIndex s k = i

/-- The unread events, oldest first: the `Q = [a, b]` of the test vectors (44_queue.md R199, R200). -/
def unread (s : State) : List Event := (List.range (queueCount s)).filterMap fun k => s.q.slot[unreadIndex s k]?

/-- The queue's part of the invariant (44_queue.md R197, R199): N+1 slots and two indices in 0 to N, with N at least 1. -/
structure QueueOk (s : State) : Prop where
  capacity : 1 ≤ s.par.queueN
  slots : s.q.slot.length = s.par.queueN + 1
  head_le : s.q.head ≤ s.par.queueN
  tail_le : s.q.tail ≤ s.par.queueN

/-- The level of the last `Pin` entry of a history, the reset level 0 where it has none (10_state.md R40, R45). -/
def lastPin (out : List Obs) : Bool :=
  out.foldl (fun level o => match o with | .pin l _ => l | .cmdReport _ => level | .txReport _ => level | .drop _ => level) false

/-- The invariant of the block. Each field names the rule that asks for it. -/
structure Inv (s : State) : Prop where
  /-- The parameters keep the constraints of 00_scope.md R8. -/
  par : s.par.wellFormed = true
  /-- 41_assembler.md R128: `0 ≤ DEC.TICK ≤ 12`. -/
  tick : s.dec.tick.toNat ≤ 12
  /-- 44_queue.md R199. -/
  queue : QueueOk s
  /-- HB.DATA keeps its canonical form. -/
  memory : s.hb.data.wf = true
  /-- HB.LEN stays within the threshold (10_state.md R32), and every byte from HB.LEN on is 0 (43_hexparse.md R171, R176), the
  spare bytes of R182 among them. -/
  len : s.hb.len ≤ s.par.hbThreshold
  unfilled : ∀ i, s.hb.len ≤ i → s.hb.data.read i = 0
  /-- 10_state.md R37: TX.PHASE is 0 to 13, and 0 in SINGLE mode. -/
  phase : s.tx.phase.toNat ≤ 13
  single : s.tx.mode = .single → s.tx.phase = 0
  /-- 10_state.md R43: PT.COUNT is TIMER_WIDTH bits wide. -/
  count : s.pt.count < 2 ^ s.par.timerWidth
  /-- 45_dispatcher.md R226: the input is enabled exactly while the Dispatcher is at LOOP. -/
  input : s.inputEn = true ↔ s.dsp = .loop
  /-- 10_state.md R38, R40: the pin is high exactly in a high half, and no high half outlives its run. -/
  pin : s.tx.pin = true ↔ s.tx.half = .high
  idle : s.tx.active = false → s.tx.half = .low
  /-- 42_encoder.md R143: during a frame the thresholds are those of its phase. -/
  thresholds : s.tx.active = true → s.tx.mode = .frame →
    s.tx.d1 = threshold (phaseTicks s.par s.tx.phase.toNat s.tx.cmd).1 ∧
      s.tx.d2 = threshold (phaseTicks s.par s.tx.phase.toNat s.tx.cmd).2
  /-- 42_encoder.md R140, R147: the timer runs throughout a frame, since only its last step stops it. -/
  running : s.tx.active = true → s.tx.mode = .frame → s.pt.run = true
  /-- 10_state.md R45: the history's last pin level is the pin's, and no entry is later than M.TIME. -/
  history : lastPin s.m.out = s.tx.pin
  stamps : ∀ l t, Obs.pin l t ∈ s.m.out → t ≤ s.m.time

/-- The start of phase k of a frame for c, in ticks from the frame's start: the sum of the phases before it (42_encoder.md
R149). -/
def phaseStart (p : Params) (c : Word16) (k : Nat) : Nat := ((List.range k).map fun j => (phaseTicks p j c).2).sum

/-- The `Pin` entries of phases 0 to k - 1 of a frame for c that starts at `t0` (42_encoder.md R149). -/
def framePins (p : Params) (c : Word16) (t0 k : Nat) : List Obs :=
  (List.range k).flatMap fun j =>
    [.pin true (t0 + phaseStart p c j), .pin false (t0 + phaseStart p c j + (phaseTicks p j c).1)]

/-- The number of 1 bits among bits 11 to 0 of a command (42_encoder.md R149). -/
def popcount12 (c : Word16) : Nat := ((List.range cmdBits).filter fun i => c.getLsbD i).length

/-- The state after a list of operations, one after the other. -/
def runInstrs (is : List Instr) (s : State) : State := is.foldl (fun t i => stateAfter t (exec i t)) s

/-- The value of a string of hex digits, most significant first (30_encoding.md R78, 20_memory.md R52). -/
def digitsValue (digits : List Byte) : Nat := digits.foldl (fun v b => v * 16 + (hexValue b).getD 0) 0

/-- The drops among the entries of a history (60_exceptions.md R251). -/
def drops (out : List Obs) : List Obs :=
  out.filter fun o => match o with | .drop _ => true | .cmdReport _ => false | .txReport _ => false | .pin _ _ => false

/-- The Commands a history reports, in order (45_dispatcher.md R224). -/
def reports (out : List Obs) : List Command :=
  out.filterMap fun o =>
    match o with | .cmdReport c => some c | .txReport _ => none | .pin _ _ => none | .drop _ => none

/-- How late the engine and TX_RETURN are allowed to be (00_scope.md R13, 42_encoder.md R152): while a run whose low half
does not end before its high half is active, neither threshold of the half in progress has been due for more than
TX_LATENCY ticks, and neither has an enabled TX_RETURN; and PT.COUNT, of TIMER_WIDTH bits (10_state.md R43), is beyond a
threshold by no more ticks than it has been due. -/
structure LatencyOk (s : State) : Prop where
  high : s.tx.active = true → s.tx.d1.toNat ≤ s.tx.d2.toNat → s.tx.half = .high →
    s.lag.low ≤ s.lag.high ∧ s.lag.high ≤ s.par.txLatency
  low : s.tx.active = true → s.tx.d1.toNat ≤ s.tx.d2.toNat → s.tx.half = .low → s.lag.low ≤ s.par.txLatency
  ret : txReturnEnabled s = true → s.lag.ret ≤ s.par.txLatency
  count : s.tx.active = true → s.pt.count ≤ s.tx.d1.toNat + s.lag.high ∧ s.pt.count ≤ s.tx.d2.toNat + s.lag.low
  width : s.pt.count < 2 ^ s.par.timerWidth

/-- M.TIME at the last rise of the pin, the start of the last phase (42_encoder.md R143, R144); 0 where there is none. -/
def lastRise (out : List Obs) : Nat :=
  out.foldl (fun t o =>
    match o with | .pin true u => u | .pin false _ => t | .cmdReport _ => t | .txReport _ => t | .drop _ => t) 0

/-- PT.COUNT is the time since the phase began: no edge has reset it and it has not wrapped. Of a stopped timer and of
thresholds the timer cannot reach it says nothing (42_encoder.md R151). -/
def phaseOnTime (s : State) : Prop :=
  s.tx.active = true → s.pt.run = true →
    s.tx.d1.toNat < 2 ^ s.par.timerWidth → s.tx.d2.toNat < 2 ^ s.par.timerWidth →
      s.m.time = lastRise s.m.out + s.pt.count

/-- The dead end of 70_reset_and_hazards.md R300: the UART path is disarmed, the Dispatcher is at LOOP, and no
UartCommandReady is left to be read. -/
def readyEventLost (s : State) : Prop :=
  s.hb.armed = false ∧ s.dsp = .loop ∧ Event.uartCommandReady ∉ unread s

/-! ### Fair runs (60_exceptions.md R276) -/

/-- The four steps whose weak fairness liveness rests on (60_exceptions.md R276). -/
inductive FairStep where
  | timerTick
  | txStep
  | txReturn
  | dispatch
deriving DecidableEq, Repr

/-- When each of the four is enabled: 00_scope.md R13, 42_encoder.md R146, 45_dispatcher.md R229 and R222. -/
def FairStep.enabled : FairStep → State → Bool
  | .timerTick => tickAllowed
  | .txStep => txStepEnabled
  | .txReturn => txReturnEnabled
  | .dispatch => dispatchEnabled

/-- The urgent step a state takes (00_scope.md R13), as `urgentStep` does. -/
def urgentTaken (s : State) : Option FairStep :=
  if txStepEnabled s then some .txStep else if txReturnEnabled s then some .txReturn else none

/-- Which of the four a request is: TIMER_TICK, or the urgent step it waits for; a DISPATCH that is enabled, whoever asks for
it (log entry 26). -/
def takenByRequest (i : Instr) (s : State) : Option FairStep :=
  if i = .timerTick then if tickAllowed s then some .timerTick else urgentTaken s
  else if i = .dispatch then if dispatchEnabled s then some .dispatch else none
  else none

/-- Which of the four an agent's move is, where it is enabled. -/
def takenByAgent (a : AgentStep) (s : State) : Option FairStep :=
  match a with
  | .dispatch => if dispatchEnabled s then some .dispatch else none
  | .txStep => if txStepEnabled s then some .txStep else none
  | .txReturn => if txReturnEnabled s then some .txReturn else none

/-- Which of the four the block takes on its own, as `runAlone` does. -/
def takenAlone (s : State) : Option FairStep :=
  if urgentEnabled s then urgentTaken s else if dispatchEnabled s then some .dispatch else some .timerTick

/-- Which of the four the next step from a state is, if any. -/
def stepTaken (s : State) : Option FairStep :=
  match s.sched with
  | [] => takenAlone s
  | .request w :: _ => match decode w with | .ok i => takenByRequest i s | .error _ => none
  | .agent a :: _ => takenByAgent a s

/-- A state with moves put at the end of its schedule: what the environment sends and how the agents interleave, as they come
(00_scope.md R12, 60_exceptions.md R275). -/
def offer (ms : List Move) (s : State) : State := { s with sched := s.sched ++ ms }

/-- Weak fairness of a step along an infinite run (60_exceptions.md R276): a step enabled from some point on is taken
again and again. -/
def weaklyFair (run : Nat → State) (enabled : State → Bool) (taken : Nat → Prop) : Prop :=
  (∃ n, ∀ m, n ≤ m → enabled (run m) = true) → ∀ n, ∃ m, n ≤ m ∧ taken m

/-- An infinite run (00_scope.md R15) to which `inputs n` is offered before its step n, and which is weakly fair to
TIMER_TICK, TX_STEP, TX_RETURN and DISPATCH (60_exceptions.md R276). What is offered need not be fair. -/
structure FairRun (run : Nat → State) (inputs : Nat → List Move) : Prop where
  next : ∀ n, step (offer (inputs n) (run n)) = .next (run (n + 1))
  fair : ∀ k : FairStep, weaklyFair run k.enabled fun n => stepTaken (offer (inputs n) (run n)) = some k

/-- No move of a list asks for an operation that has `p`. -/
def noneAsksFor (p : Instr → Bool) (ms : List Move) : Prop :=
  ∀ w, Move.request w ∈ ms → ∀ i, decode w = .ok i → p i = false

/-- The operations that start the engine at a harness's request (42_encoder.md R140, R144). -/
def startsEngine : Instr → Bool
  | .transmit _ => true
  | .outTick _ _ => true
  | .reserved _ => false
  | .classify _ _ => false
  | .edge _ => false
  | .beginFrame => false
  | .applyBit _ => false
  | .put _ => false
  | .get => false
  | .empty => false
  | .full => false
  | .qreset => false
  | .uartByte _ => false
  | .parseHex => false
  | .dispatch => false
  | .timerTick => false

/-- The operations that take events from the queue at a harness's request (44_queue.md R192, R196). -/
def takesEvents : Instr → Bool
  | .get => true
  | .qreset => true
  | .reserved _ => false
  | .classify _ _ => false
  | .edge _ => false
  | .beginFrame => false
  | .applyBit _ => false
  | .put _ => false
  | .empty => false
  | .full => false
  | .uartByte _ => false
  | .parseHex => false
  | .transmit _ => false
  | .outTick _ _ => false
  | .dispatch => false
  | .timerTick => false

/-- The state after `n` steps (00_scope.md R15: a run does not end); a step that stops leaves the state. -/
def runSteps (s : State) (n : Nat) : State :=
  match n with
  | 0 => s
  | k + 1 => stateAfter (runSteps s k) (step (runSteps s k))

end Sys2Proof.Machine
end

