-- ==== Sys2Proof/Certificates/Slice0/Obligations.lean ====
section
/-! DEFINITION. The statements for the provers, from the numbered rules of spec/. Every equation `exec i s = .next t` names
every field of `t` that differs from `s`, so it is the operation's frame as well as its effect. The fields `result`, `lag`
and `sched` are the model's own (log entries 3, 8 and 10), and so is the form of `timerCtl`, the record of the requests on the
signal timer_ctl of 10_state.md R20 (log entry 28). -/

open Sys2Proof Sys2Proof.Machine

/-! ### Request words -/

/-- 30_encoding.md R81, R82: no operand bit of any operation is lost between the encoder and the decoder. -/
def Obligations.DecodeOfEncodeIsIdentity : Prop := ∀ i : Instr, decode (encode i) = .ok i

/-- 30_encoding.md R81, R83: a word the decoder accepts is the only word of the operation it decodes to. -/
def Obligations.EncodeOfDecodeIsIdentity : Prop := ∀ (w : ReqWord) (i : Instr), decode w = .ok i → encode i = w

/-- 30_encoding.md R83: "every 36-bit word decodes to exactly one row of rule R81 or is refused". -/
def Obligations.EveryWordIsExactlyOneRowOrRejected : Prop :=
  ∀ w : ReqWord,
    (∃ i, decode w = .ok i ∧
        ∃ r ∈ opcodeTable, r.covers w = true ∧ r.mnemonic = i.mnemonic ∧
          ∀ r' ∈ opcodeTable, r'.covers w = true → r' = r) ∨
      ((∃ e, decode w = .error e) ∧ ∀ r ∈ opcodeTable, r.covers w = false)

/-- Words written out from the fields of 30_encoding.md R80 and the map of R81 decode to their operations. -/
def Obligations.WordsOfTheMapDecodeToTheirOperations : Prop :=
  decode 0b0001_0000000000000001_0000000100101100#36 = .ok (.classify .rising 300) ∧
    decode 0b0010_0000000000000000_0000000000000000#36 = .ok (.edge .falling) ∧
    decode 0b0100_0000000000000000_0000000000000001#36 = .ok (.applyBit true) ∧
    decode 0b0101_0000000000000000_0000000000000010#36 = .ok (.put .frameStart) ∧
    decode 0b1010_0000000000000000_0000000001111000#36 = .ok (.uartByte 0x78) ∧
    decode 0b1100_0000000000000000_1111000110100010#36 = .ok (.transmit 0xF1A2) ∧
    decode 0b1101_0000000100101100_0000000110010000#36 = .ok (.outTick 300 400) ∧
    decode 0b1111_0000000000000000_0000000000000000#36 = .ok .timerTick

/-- A step runs the operation that the next scheduled word decodes to, on the state with that word taken from the schedule,
and does nothing else. The schedule is the model's own (log entry 3). -/
def Obligations.StepRunsTheDecodedRequest : Prop :=
  ∀ (w : ReqWord) (rest : List Move) (i : Instr) (s : State),
    s.par.wellFormed = true → s.sched = .request w :: rest → decode w = .ok i →
      step s = exec i { s with sched := rest }

/-- 30_encoding.md R83, 60_exceptions.md R255: the reserved row is refused ILLEGAL_OP whatever its operand bits, and so is every
word of OP 0x0 and every word of no row; nothing but M.REFUSED changes. -/
def Obligations.IllegalWordsOnlyMarkRefused : Prop :=
  (∀ (operands : BitVec 32) (s : State),
    exec (.reserved operands) s = .next { s with m.refused.illegalOp := true, result := none }) ∧
  ∀ (w : ReqWord) (rest : List Move) (s : State),
    s.par.wellFormed = true → s.sched = .request w :: rest →
      (reqOp w = 0 ∨ ∀ r ∈ opcodeTable, r.covers w = false) →
        step s = .next { s with sched := rest, m.refused.illegalOp := true, result := none }

/-! ### The duration classifier -/

/-- 40_classifier.md R100 to R103: CLASSIFY answers the window's Symbol and changes nothing. An `elapsed` of 2^TIMER_WIDTH or
more, which R100 does not speak of, is compared as it stands, which is the model's reading (log entry 21). -/
def Obligations.ClassifyAnswersTheOpenWindow : Prop :=
  ∀ (dir : Dir) (elapsed : Word16) (s : State), ∃ sym : Symbol,
    exec (.classify dir elapsed) s = .next { s with result := some (.symbol sym) } ∧
      (sym = .header ↔ dir = .rising ∧ s.par.hdrLo < elapsed.toNat ∧ elapsed.toNat < s.par.hdrHi) ∧
      (sym = .bitOne ↔ dir = .falling ∧ s.par.oneLo < elapsed.toNat ∧ elapsed.toNat < s.par.oneHi) ∧
      (sym = .bitZero ↔ dir = .falling ∧ ¬(s.par.oneLo < elapsed.toNat ∧ elapsed.toNat < s.par.oneHi) ∧
        s.par.zeroLo < elapsed.toNat ∧ elapsed.toNat < s.par.zeroHi)

/-- 40_classifier.md R104, R105, R106: an enabled edge whose Symbol is Invalid resets the count with one request on timer_ctl,
is recorded as noise, and does nothing else. The new `lag` and the form of `timerCtl` are the model's own choice (log entries 10
and 28). -/
def Obligations.NoiseEdgeOnlyResetsTheTimer : Prop :=
  ∀ (dir : Dir) (s : State),
    s.inputEn = true → classifyEdge s.par dir s.pt.count = .invalid →
      exec (.edge dir) s =
        .next { s with
          pt.count := 0
          timerCtl := s.timerCtl ++ [.reset]
          lag := Lag.settle s
          m.out := s.m.out ++ [.drop .noise]
          result := none }

/-- 40_classifier.md R104, 44_queue.md R191: an enabled edge with a Symbol resets the count and enqueues the Symbol's event,
dropping the oldest unread event of a full queue. The new `lag` and the form of `timerCtl` are the model's own choice (log
entries 10 and 28). -/
def Obligations.EdgeEnqueuesTheSymbolsEvent : Prop :=
  ∀ (dir : Dir) (e : Event) (s : State),
    QueueOk s → s.inputEn = true → eventOf (classifyEdge s.par dir s.pt.count) = some e →
      exec (.edge dir) s =
        .next { s with
          pt.count := 0
          timerCtl := s.timerCtl ++ [.reset]
          lag := Lag.settle s
          q := { slot := s.q.slot.set s.q.head e
                 head := (s.q.head + 1) % (s.par.queueN + 1)
                 tail := if (s.q.head + 1) % (s.par.queueN + 1) = s.q.tail
                   then (s.q.tail + 1) % (s.par.queueN + 1) else s.q.tail }
          m.out := s.m.out ++
            (if (s.q.head + 1) % (s.par.queueN + 1) = s.q.tail then [.drop .queueOverflow] else [])
          result := none }

/-- 40_classifier.md R107: while CTL.INPUT_EN = 0 an edge changes nothing: not the timer, not the queue, not the history. -/
def Obligations.EdgeWhileDisabledChangesNothing : Prop :=
  ∀ (dir : Dir) (s : State), s.inputEn = false → exec (.edge dir) s = .next { s with result := none }

/-! ### The bit assembler -/

/-- 41_assembler.md R120: BEGIN_FRAME clears the tick and the whole buffer, and keeps DEC.CMD. -/
def Obligations.BeginFrameClearsTickAndBuffer : Prop :=
  ∀ s : State, exec .beginFrame s = .next { s with dec.tick := 0, dec.buf := 0, result := none }

/-- 41_assembler.md R121, R122: APPLY_BIT at TICK 0 writes nothing, at TICK 1 to 12 it writes position 12 - TICK and no other;
below 12 it counts and returns false, at 12 it materialises and returns true. -/
def Obligations.ApplyBitWritesOnePositionAndCounts : Prop :=
  ∀ (b : Bool) (s : State), s.dec.tick.toNat ≤ 12 → ∃ buf : Command,
    (∀ i, i < 12 → buf.getLsbD i =
      if 1 ≤ s.dec.tick.toNat ∧ i = 12 - s.dec.tick.toNat then b else s.dec.buf.getLsbD i) ∧
    (s.dec.tick.toNat < 12 →
      exec (.applyBit b) s =
        .next { s with dec.buf := buf, dec.tick := s.dec.tick + 1, result := some (.bool false) }) ∧
    (s.dec.tick.toNat = 12 →
      exec (.applyBit b) s =
        .next { s with dec.buf := buf, dec.tick := 0, dec.cmd := buf, result := some (.bool true) })

/-- 41_assembler.md R123: after one BEGIN_FRAME the first bit event is counted and not written, the next twelve are bits 11 to
0, and the 13th materialises; no call before it does. -/
def Obligations.ThirteenthBitAfterAHeaderMaterialises : Prop :=
  ∀ (gap : Bool) (c : Command) (s : State),
    runInstrs (.beginFrame :: (gap :: lineBits c).map .applyBit) s =
        { s with dec := { s.dec with tick := 0, buf := c, cmd := c }, result := some (.bool true) } ∧
      ∀ k, 1 ≤ k → k ≤ 12 →
        (runInstrs (.beginFrame :: ((gap :: lineBits c).take k).map .applyBit) s).dec.cmd = s.dec.cmd ∧
          (runInstrs (.beginFrame :: ((gap :: lineBits c).take k).map .applyBit) s).dec.tick = BitVec.ofNat 4 k ∧
          (runInstrs (.beginFrame :: ((gap :: lineBits c).take k).map .applyBit) s).result = some (.bool false)

/-- 41_assembler.md R124: with no header at all, thirteen bit events from TICK = 0 materialise the last twelve of them, over
any old buffer. -/
def Obligations.ThirteenBitsWithNoHeaderMaterialise : Prop :=
  ∀ (first : Bool) (c : Command) (s : State),
    s.dec.tick = 0 →
      runInstrs ((first :: lineBits c).map .applyBit) s =
        { s with dec := { s.dec with tick := 0, buf := c, cmd := c }, result := some (.bool true) }

/-! ### The Event Queue -/

/-- 44_queue.md R191: PUT writes the slot at Q.HEAD and advances Q.HEAD modulo N+1; on a full queue it first advances Q.TAIL
and records the overflow. -/
def Obligations.PutWritesAtHeadWithOverwrite : Prop :=
  ∀ (e : Event) (s : State), QueueOk s →
    exec (.put e) s =
      .next { s with
        q := { slot := s.q.slot.set s.q.head e
               head := (s.q.head + 1) % (s.par.queueN + 1)
               tail := if (s.q.head + 1) % (s.par.queueN + 1) = s.q.tail
                 then (s.q.tail + 1) % (s.par.queueN + 1) else s.q.tail }
        m.out := s.m.out ++
          (if (s.q.head + 1) % (s.par.queueN + 1) = s.q.tail then [.drop .queueOverflow] else [])
        result := none }

/-- 44_queue.md R192: GET on an empty queue raises QUEUE_UNDERFLOW, which adds it to M.FAULT, moves no index and returns no event
(R198); on any other queue it returns the event at Q.TAIL and advances Q.TAIL modulo N+1, and the slot keeps its value. -/
def Obligations.GetReturnsTheEventAtTail : Prop :=
  ∀ s : State,
    (s.q.head = s.q.tail → exec .get s = .next { s with m.fault.queueUnderflow := true, result := none }) ∧
      (QueueOk s → s.q.head ≠ s.q.tail → ∃ e : Event, s.q.slot[s.q.tail]? = some e ∧
        exec .get s =
          .next { s with q.tail := (s.q.tail + 1) % (s.par.queueN + 1), result := some (.event e) })

/-- 44_queue.md R194, R195: EMPTY and FULL answer their index tests and change nothing. -/
def Obligations.EmptyAndFullAnswerTheIndexTests : Prop :=
  ∀ s : State,
    exec .empty s = .next { s with result := some (.bool (decide (s.q.head = s.q.tail))) } ∧
      exec .full s =
        .next { s with result := some (.bool (decide ((s.q.head + 1) % (s.par.queueN + 1) = s.q.tail))) }

/-- 44_queue.md R196: QRESET sets Q.TAIL to Q.HEAD, which empties the queue, and reports no drop. -/
def Obligations.QresetCollapsesTheQueue : Prop :=
  ∀ s : State, ∃ t : State,
    exec .qreset s = .next t ∧ t = { s with q.tail := s.q.head, result := none } ∧ unread t = [] ∧ queueEmpty t = true

/-- 44_queue.md R199 and 10_state.md R30: the count lies in 0 to N, it is 0 exactly when the queue is empty and N exactly when
it is full, never both, and it counts the unread events. -/
def Obligations.QueueStatusAgreesWithTheCount : Prop :=
  ∀ s : State, QueueOk s →
    queueCount s ≤ s.par.queueN ∧ (unread s).length = queueCount s ∧
      (queueEmpty s = true ↔ queueCount s = 0) ∧ (queueFull s = true ↔ queueCount s = s.par.queueN) ∧
      ¬(queueEmpty s = true ∧ queueFull s = true)

/-- 44_queue.md R191, R202: PUT appends the event to the unread ones, after dropping the oldest of N; no other unread event
changes. -/
def Obligations.PutAppendsDroppingOnlyTheOldest : Prop :=
  ∀ (e : Event) (s : State), QueueOk s → ∃ t : State,
    exec (.put e) s = .next t ∧ QueueOk t ∧
      unread t = (if (unread s).length = s.par.queueN then (unread s).drop 1 else unread s) ++ [e]

/-- 44_queue.md R192, R200: GET returns the oldest unread event and leaves the others in order. -/
def Obligations.GetTakesTheOldestUnreadEvent : Prop :=
  ∀ (e : Event) (later : List Event) (s : State), QueueOk s → unread s = e :: later → ∃ t : State,
    exec .get s = .next t ∧ t.result = some (.event e) ∧ unread t = later ∧ QueueOk t

/-- 44_queue.md R200: k PUTs from empty with no GET between leave exactly the last min(k, N) events, oldest first, and as many
GETs after them return those events in that order. -/
def Obligations.PutsFromEmptyKeepTheLastN : Prop :=
  ∀ (es : List Event) (s : State), QueueOk s → s.q.head = s.q.tail →
    unread (runInstrs (es.map .put) s) = es.drop (es.length - s.par.queueN) ∧
      ∀ j, j < (es.drop (es.length - s.par.queueN)).length →
        (runInstrs (es.map .put ++ List.replicate (j + 1) .get) s).result =
          ((es.drop (es.length - s.par.queueN))[j]?).map .event

/-! ### The HexCommandBuffer -/

/-- 43_hexparse.md R171: an armed byte that does not bring HB.LEN to the threshold is stored at HB.LEN, HB.LEN counts it, and no
other byte of HB.DATA changes. -/
def Obligations.UartByteIsStoredAtLen : Prop :=
  ∀ (b : Byte) (s : State),
    s.hb.data.wf = true → s.hb.armed = true → s.hb.len < s.par.hbCap → s.hb.len + 1 < s.par.hbThreshold →
      ∃ data : Memory,
        exec (.uartByte b) s = .next { s with hb.data := data, hb.len := s.hb.len + 1, result := none } ∧
          data.wf = true ∧ ∀ i, data.read i = if i = s.hb.len then b else s.hb.data.read i

/-- 43_hexparse.md R171, R172: the byte that reaches the threshold is stored, disarms the path, and enqueues one
UartCommandReady, in one step. -/
def Obligations.UartByteAtTheThresholdRaisesReady : Prop :=
  ∀ (b : Byte) (s : State),
    QueueOk s → s.hb.data.wf = true → s.hb.armed = true → s.hb.len < s.par.hbCap → s.hb.len + 1 = s.par.hbThreshold →
      ∃ data : Memory,
        exec (.uartByte b) s =
            .next { s with
              hb := { data := data, len := s.hb.len + 1, armed := false }
              q := { slot := s.q.slot.set s.q.head .uartCommandReady
                     head := (s.q.head + 1) % (s.par.queueN + 1)
                     tail := if (s.q.head + 1) % (s.par.queueN + 1) = s.q.tail
                       then (s.q.tail + 1) % (s.par.queueN + 1) else s.q.tail }
              m.out := s.m.out ++
                (if (s.q.head + 1) % (s.par.queueN + 1) = s.q.tail then [.drop .queueOverflow] else [])
              result := none } ∧
          data.wf = true ∧ ∀ i, data.read i = if i = s.hb.len then b else s.hb.data.read i

/-- 43_hexparse.md R173: a byte while the path is disarmed changes nothing but M.OUT. -/
def Obligations.UartByteWhileDisarmedIsDropped : Prop :=
  ∀ (b : Byte) (s : State), s.hb.armed = false →
    exec (.uartByte b) s = .next { s with m.out := s.m.out ++ [.drop .uartDisarmed], result := none }

/-- 10_state.md R32, 43_hexparse.md R182: with HB.LEN at the threshold no byte is stored, armed or not, and nothing but M.OUT
changes; that the byte is dropped as UART_DISARMED where the path is armed is the model's choice (log entry 14). 20_memory.md
R51, 60_exceptions.md R254: an index that lies outside its array all the same, in a state that no run reaches, raises
INDEX_RANGE, is not wrapped, and neither reads nor writes: HB.LEN for UART_BYTE and PARSE_HEX, Q.HEAD for PUT, Q.TAIL for GET. -/
def Obligations.IndexesBeyondTheirBoundsTouchNothing : Prop :=
  (∀ (b : Byte) (s : State), s.par.hbThreshold ≤ s.hb.len →
    exec (.uartByte b) s = .next { s with m.out := s.m.out ++ [.drop .uartDisarmed], result := none }) ∧
  (∀ (b : Byte) (s : State), s.hb.armed = true → s.hb.len < s.par.hbThreshold → s.par.hbCap ≤ s.hb.len →
    exec (.uartByte b) s = .next { s with m.fault.indexRange := true, result := none }) ∧
  (∀ s : State, s.par.hbCap < s.hb.len →
    exec .parseHex s = .next { s with m.fault.indexRange := true, result := none }) ∧
  (∀ (e : Event) (s : State), s.q.slot.length ≤ s.q.head →
    exec (.put e) s = .next { s with m.fault.indexRange := true, result := none }) ∧
  ∀ s : State, s.q.head ≠ s.q.tail → s.q.slot.length ≤ s.q.tail →
    exec .get s = .next { s with m.fault.indexRange := true, result := none }

/-- 43_hexparse.md R176, R177: PARSE_HEX returns the parse of the first HB.LEN bytes, clears the buffer whether it succeeded or
not, records a failure by its code, and changes nothing else: HB.ARMED stays. -/
def Obligations.ParseHexReturnsTheParseAndClears : Prop :=
  ∀ s : State, s.hb.len ≤ s.par.hbCap →
    match parseHex s.par.hexTerm ((List.range s.hb.len).map s.hb.data.read) with
    | .ok v =>
      exec .parseHex s = .next { s with hb.data := [], hb.len := 0, result := some (.optU16 (some v)) }
    | .error f =>
      exec .parseHex s =
        .next { s with
          hb.data := []
          hb.len := 0
          m.out := s.m.out ++ [.drop f.dropCode]
          result := some (.optU16 none) }

/-- 30_encoding.md R77, R78, 43_hexparse.md R174, R178, R179: the hex digits are the 22 characters of R77 with their values, and
no other byte is one; a buffer P ++ "x" ++ D, or D alone, with D one or more hex digits, parses to the numeral D modulo 2^16,
whatever P holds. That the digits stand after the last "x" is the spec's own resolution of its sources (R78, 90_conflicts.md
C3), and the codes of the characters are ASCII as R77 presumes them (log entry 23). -/
def Obligations.ParseReadsTheNumeralAfterTheLastTerminator : Prop :=
  (∀ n, n < 10 → hexValue (BitVec.ofNat 8 (0x30 + n)) = some n) ∧
    (∀ n, n < 6 →
      hexValue (BitVec.ofNat 8 (0x61 + n)) = some (10 + n) ∧ hexValue (BitVec.ofNat 8 (0x41 + n)) = some (10 + n)) ∧
    (∀ b : Byte,
      ¬(0x30 ≤ b.toNat ∧ b.toNat ≤ 0x39) → ¬(0x61 ≤ b.toNat ∧ b.toNat ≤ 0x66) →
        ¬(0x41 ≤ b.toNat ∧ b.toNat ≤ 0x46) → hexValue b = none) ∧
    ∀ (term : Byte) (before digits : List Byte),
      digits ≠ [] → (∀ d ∈ digits, d ≠ term ∧ (hexValue d).isSome = true) →
        parseHex term (before ++ term :: digits) = .ok (BitVec.ofNat 16 (digitsValue digits)) ∧
          parseHex term digits = .ok (BitVec.ofNat 16 (digitsValue digits))

/-- 43_hexparse.md R175, and the source's sentence at the end of R174: when a parse fails, and with which code: no byte; the
last byte is the terminator; a scanned byte, one with no terminator after it, is neither a hex digit nor the terminator. -/
def Obligations.ParseFailsExactlyOnTheThreeConditions : Prop :=
  ∀ (term : Byte) (bytes : List Byte),
    (parseHex term bytes = .error .empty ↔ bytes = []) ∧
      (parseHex term bytes = .error .noDigits ↔ ∃ before, bytes = before ++ [term]) ∧
      (parseHex term bytes = .error .badDigit ↔
        ∃ before b after, bytes = before ++ b :: after ∧ b ≠ term ∧ hexValue b = none ∧ ∀ d ∈ after, d ≠ term)

/-! ### The Output Encoder -/

/-- 42_encoder.md R140, R143, R156: TRANSMIT on an idle engine re-arms the timer with a start and the resets of R260, loads the
header's thresholds and drives the pin high; CTL.INPUT_EN, DSP.STATE and every other field stay. The new `lag` and the form of
`timerCtl` are the model's own choice (log entries 10 and 28). -/
def Obligations.TransmitStartsTheHeader : Prop :=
  ∀ (c : Word16) (s : State), s.tx.active = false →
    exec (.transmit c) s =
      .next { s with
        tx := { active := true, mode := .frame, cmd := c, phase := 0, half := .high, pin := true
                d1 := threshold s.par.txHdrHigh, d2 := threshold (s.par.txHdrHigh + s.par.txHdrLow) }
        pt := { count := 0, run := true }
        timerCtl := s.timerCtl ++ [.start, .reset, .reset]
        m.out := s.m.out ++ [.pin true s.m.time]
        lag := { high := 0, low := 0, ret := 0 }
        result := none }

/-- 42_encoder.md R144: OUTTICK on an idle engine loads its own thresholds, resets the count and drives the pin high; it does
not start the timer and keeps TX.CMD. The new `lag` and the form of `timerCtl` are the model's own choice (log entries 10 and
28). -/
def Obligations.OutTickStartsOneHighHalf : Prop :=
  ∀ (d1 d2 : Word16) (s : State), s.tx.active = false →
    exec (.outTick d1 d2) s =
      .next { s with
        tx := { active := true, mode := .single, cmd := s.tx.cmd, phase := 0, half := .high, pin := true
                d1 := d1, d2 := d2 }
        pt.count := 0
        timerCtl := s.timerCtl ++ [.reset]
        m.out := s.m.out ++ [.pin true s.m.time]
        lag := { high := 0, low := 0, ret := 0 }
        result := none }

/-- 42_encoder.md R148, 45_dispatcher.md R222, 60_exceptions.md R255: while the engine runs, TRANSMIT, OUTTICK and DISPATCH are
refused TX_BUSY, and so is DISPATCH while DSP.STATE = IN_TX; nothing but M.REFUSED changes. -/
def Obligations.BusyRequestsOnlyMarkRefused : Prop :=
  ∀ (c d1 d2 : Word16) (s : State),
    (s.tx.active = true →
      exec (.transmit c) s = .next { s with m.refused.txBusy := true, result := none } ∧
        exec (.outTick d1 d2) s = .next { s with m.refused.txBusy := true, result := none }) ∧
    (s.tx.active = true ∨ s.dsp = .inTx →
      exec .dispatch s = .next { s with m.refused.txBusy := true, result := none })

/-- 42_encoder.md R142, in the table of R141: the header's phase is 0 and the trailer's is 13, and phases 1 to 12 read bit 11
down to bit 0 of the command, which alone picks the end of the phase. Bits 15 to 12 are never read: `transmit(c)` and
`transmit(c mod 4096)` have the same thresholds in every phase and the same train, and from any state, under any schedule and
after any number of steps, the two runs differ in TX.CMD at most. -/
def Obligations.OnlyTwelveBitsReachTheLine : Prop :=
  ∀ (p : Params) (c c' : Word16), c'.toNat = c.toNat % 4096 →
    phaseTicks p 0 c = (p.txHdrHigh, p.txHdrHigh + p.txHdrLow) ∧
      (∀ k, 1 ≤ k → k ≤ 12 →
        phaseTicks p k c = (p.txBitHigh, p.txBitHigh + if c.getLsbD (12 - k) then p.txOneLow else p.txZeroLow)) ∧
      phaseTicks p 13 c = (p.txTrlHigh, p.txTrlHigh + p.txTrlLow) ∧
      (∀ k t0, phaseTicks p k c = phaseTicks p k c' ∧ framePins p c t0 k = framePins p c' t0 k) ∧
      ∀ (s : State) (n : Nat),
        { runSteps (stateAfter s (exec (.transmit c) s)) n with tx.cmd := 0 } =
          { runSteps (stateAfter s (exec (.transmit c') s)) n with tx.cmd := 0 }

/-- 42_encoder.md R146, 30_encoding.md R84: an enabled TX_STEP, taken by the engine. In a high half it drives the pin low. In a
low half it ends an outTick run, or starts the next phase of a frame, or after the trailer stops the timer and ends the run. The
new `lag` and the form of `timerCtl` are the model's own choice (log entries 10 and 28). -/
def Obligations.EnabledTxStepFollowsThePhaseTable : Prop :=
  ∀ (rest : List Move) (s : State),
    s.par.wellFormed = true → s.sched = .agent .txStep :: rest → txStepEnabled s = true → s.tx.phase.toNat ≤ 13 →
      (s.tx.half = .high →
        step s =
          .next { s with
            sched := rest
            tx.pin := false
            tx.half := .low
            m.out := s.m.out ++ [.pin false s.m.time]
            result := none }) ∧
      (s.tx.half = .low → s.tx.mode = .single →
        step s =
          .next { s with sched := rest, tx.active := false, lag := { high := 0, low := 0, ret := 0 }, result := none }) ∧
      (s.tx.half = .low → s.tx.mode = .frame → s.tx.phase.toNat = 13 →
        step s =
          .next { s with
            sched := rest
            tx.active := false
            pt.run := false
            timerCtl := s.timerCtl ++ [.stop]
            lag := { high := 0, low := 0, ret := 0 }
            result := none }) ∧
      (s.tx.half = .low → s.tx.mode = .frame → s.tx.phase.toNat < 13 →
        step s =
          .next { s with
            sched := rest
            tx.phase := s.tx.phase + 1
            tx.d1 := threshold (phaseTicks s.par (s.tx.phase.toNat + 1) s.tx.cmd).1
            tx.d2 := threshold (phaseTicks s.par (s.tx.phase.toNat + 1) s.tx.cmd).2
            tx.pin := true
            tx.half := .high
            pt.count := 0
            timerCtl := s.timerCtl ++ [.reset]
            m.out := s.m.out ++ [.pin true s.m.time]
            lag := { high := 0, low := 0, ret := 0 }
            result := none })

/-- 42_encoder.md R145, R150: the waveform of one outTick on a running timer, both thresholds counted from one reset. From
OUTTICK on an idle engine, with nothing else scheduled, the pin is high for d1 ticks and low for max(d2 - d1, 0), and the run
ends after max(d1, d2) ticks with the timer running on. Where TX_LATENCY is not 0, which R145 does not speak of, the waveform is
exact because the block on its own takes an urgent step at once, which is the model's choice (log entry 4). The new `lag` and
the form of `timerCtl` are the model's own choice too (log entries 10 and 28). -/
def Obligations.OutTickHasTwoThresholdsFromOneReset : Prop :=
  ∀ (d1 d2 : Word16) (s : State),
    s.par.wellFormed = true → s.sched = [] → s.tx.active = false → s.pt.run = true →
      d1.toNat < 2 ^ s.par.timerWidth → d2.toNat < 2 ^ s.par.timerWidth →
        runSteps (stateAfter s (exec (.outTick d1 d2) s)) (max d1.toNat d2.toNat + 2) =
          { s with
            tx := { active := false, mode := .single, cmd := s.tx.cmd, phase := 0, half := .low, d1 := d1, d2 := d2
                    pin := false }
            pt.count := max d1.toNat d2.toNat
            timerCtl := s.timerCtl ++ [.reset]
            m.time := s.m.time + max d1.toNat d2.toNat
            m.out := s.m.out ++ [.pin true s.m.time, .pin false (s.m.time + d1.toNat)]
            lag := { high := 0, low := 0, ret := 0 }
            result := none }

/-- 42_encoder.md R149, R145, R147: the waveform of a frame. From TRANSMIT on an idle engine, with nothing else scheduled, the
block takes `phaseStart 14` ticks and 28 TX_STEPs, and then the history has gained exactly the 28 Pin entries of the timeline,
the engine has ended with the pin low, and the timer is stopped at the trailer's second threshold, after one start, fifteen
resets and one stop. Where TX_LATENCY is not 0 (R152) the timeline is exact because the block on its own takes an urgent step at
once, which is the model's choice (log entry 4). The new `lag` and the form of `timerCtl` are the model's own choice too (log
entries 10 and 28). -/
def Obligations.FrameHasTheTimelineOfItsPhases : Prop :=
  ∀ (c : Word16) (s : State),
    s.par.wellFormed = true → s.sched = [] → s.tx.active = false →
      (∀ k, k ≤ 13 → (phaseTicks s.par k c).2 < 2 ^ s.par.timerWidth) →
      runSteps (stateAfter s (exec (.transmit c) s)) (phaseStart s.par c 14 + 28) =
        { s with
          tx := { active := false, mode := .frame, cmd := c, phase := 13, half := .low, pin := false
                  d1 := threshold s.par.txTrlHigh, d2 := threshold (s.par.txTrlHigh + s.par.txTrlLow) }
          pt := { count := s.par.txTrlHigh + s.par.txTrlLow, run := false }
          timerCtl := s.timerCtl ++ [.start] ++ List.replicate 15 .reset ++ [.stop]
          m.time := s.m.time + phaseStart s.par c 14
          m.out := s.m.out ++ framePins s.par c s.m.time 14
          lag := { high := 0, low := 0, ret := 0 }
          result := none }

/-- 42_encoder.md R149, 70_reset_and_hazards.md R315: at the defaults a frame lasts 3000 + 100 * popcount(c[11:0]) ticks. -/
def Obligations.DefaultFrameLengthFollowsPopcount : Prop :=
  ∀ c : Word16, phaseStart Params.default c 14 = 3000 + 100 * popcount12 c

/-- 42_encoder.md R151, 70_reset_and_hazards.md R310: with the timer stopped and the threshold of its half not reached, the
engine hangs. No step of any schedule ends the run, starts the timer or enables TX_STEP: the engine's fields stay, and the count
can only go down. On its own the block only lets M.TIME pass, for ever (its order of steps is the model's choice, log entry 4,
and so is the new `lag`, log entry 10). -/
def Obligations.StoppedTimerHangsTheEngine : Prop :=
  (∀ s t : State,
    s.tx.active = true → s.pt.run = false → txStepEnabled s = false → step s = .next t →
      t.tx = s.tx ∧ t.pt.run = false ∧ t.pt.count ≤ s.pt.count ∧ txStepEnabled t = false) ∧
  ∀ (n : Nat) (s : State),
    s.par.wellFormed = true → s.sched = [] → s.tx.active = true → s.pt.run = false → txStepEnabled s = false →
      ∃ l : Lag, ∃ r : Option Result, runSteps s n = { s with m.time := s.m.time + n, lag := l, result := r }

/-- 00_scope.md R13, 42_encoder.md R152: every step keeps the engine and TX_RETURN within TX_LATENCY ticks of the moment they
come due, and every step but an enabled edge keeps the phase on time (R156 admits the edge that stretches a phase). So, with
thresholds that the running timer reaches, a high half ends between d1 and d1 + L ticks after the rise of the pin, and a phase
between d2 and d2 + L. How the latency is counted, and that no tick wraps the count below a threshold that is due, is the
model's reading (log entry 10). -/
def Obligations.StepsKeepTheLatencyBound : Prop :=
  (∀ s t : State, LatencyOk s → step s = .next t →
    LatencyOk t ∧
      (phaseOnTime s →
        (s.inputEn = false ∨ ∀ dir rest, s.sched ≠ .request (encode (.edge dir)) :: rest) → phaseOnTime t)) ∧
  ∀ s : State, LatencyOk s → phaseOnTime s → s.pt.run = true → txStepEnabled s = true →
    s.tx.d1.toNat ≤ s.tx.d2.toNat → s.tx.d2.toNat < 2 ^ s.par.timerWidth →
      (s.tx.half = .high →
        lastRise s.m.out + s.tx.d1.toNat ≤ s.m.time ∧
          s.m.time ≤ lastRise s.m.out + s.tx.d1.toNat + s.par.txLatency) ∧
      (s.tx.half = .low →
        lastRise s.m.out + s.tx.d2.toNat ≤ s.m.time ∧
          s.m.time ≤ lastRise s.m.out + s.tx.d2.toNat + s.par.txLatency)

/-! ### The Dispatcher -/

/-- 45_dispatcher.md R223: DISPATCH of a FrameStart dequeues it, begins a frame and sets DEC.FIP. -/
def Obligations.DispatchOfFrameStartBeginsAFrame : Prop :=
  ∀ s : State, s.dsp = .loop → s.tx.active = false → s.q.head ≠ s.q.tail → s.q.slot[s.q.tail]? = some .frameStart →
    exec .dispatch s =
      .next { s with
        q.tail := (s.q.tail + 1) % (s.par.queueN + 1)
        dec := { tick := 0, buf := 0, cmd := s.dec.cmd, fip := true }
        result := none }

/-- 45_dispatcher.md R224: DISPATCH of a bit event dequeues it and applies its bit; when that materialises a Command it reports
it once and clears DEC.FIP, and otherwise it reports nothing. -/
def Obligations.DispatchOfABitAppliesAndReports : Prop :=
  ∀ (b : Bool) (s : State),
    s.dsp = .loop → s.tx.active = false → s.q.head ≠ s.q.tail → s.q.slot[s.q.tail]? = some (bitEvent b) →
      s.dec.tick.toNat ≤ 12 → ∃ buf : Command,
        (∀ i, i < 12 → buf.getLsbD i =
          if 1 ≤ s.dec.tick.toNat ∧ i = 12 - s.dec.tick.toNat then b else s.dec.buf.getLsbD i) ∧
        (s.dec.tick.toNat < 12 →
          exec .dispatch s =
            .next { s with
              q.tail := (s.q.tail + 1) % (s.par.queueN + 1)
              dec.buf := buf
              dec.tick := s.dec.tick + 1
              result := none }) ∧
        (s.dec.tick.toNat = 12 →
          exec .dispatch s =
            .next { s with
              q.tail := (s.q.tail + 1) % (s.par.queueN + 1)
              dec := { tick := 0, buf := buf, cmd := buf, fip := false }
              m.out := s.m.out ++ [.cmdReport buf]
              result := none })

/-- 45_dispatcher.md R225 to R228: DISPATCH of a UartCommandReady parses and clears the buffer. On success it disables the
input, reports the command before the first Pin entry, starts the frame and goes to IN_TX with HB.ARMED unchanged; on failure it
records the code and re-arms the path, and no frame is sent. The new `lag` and the form of `timerCtl` are the model's own choice
(log entries 10 and 28). -/
def Obligations.DispatchOfReadyTransmitsOrRearms : Prop :=
  ∀ s : State,
    s.dsp = .loop → s.tx.active = false → s.q.head ≠ s.q.tail → s.q.slot[s.q.tail]? = some .uartCommandReady →
      s.hb.len ≤ s.par.hbCap →
        match parseHex s.par.hexTerm ((List.range s.hb.len).map s.hb.data.read) with
        | .ok c =>
          exec .dispatch s =
            .next { s with
              q.tail := (s.q.tail + 1) % (s.par.queueN + 1)
              hb.data := []
              hb.len := 0
              inputEn := false
              dsp := .inTx
              tx := { active := true, mode := .frame, cmd := c, phase := 0, half := .high, pin := true
                      d1 := threshold s.par.txHdrHigh, d2 := threshold (s.par.txHdrHigh + s.par.txHdrLow) }
              pt := { count := 0, run := true }
              timerCtl := s.timerCtl ++ [.start, .reset, .reset]
              m.out := s.m.out ++ [.txReport c, .pin true s.m.time]
              lag := { high := 0, low := 0, ret := 0 }
              result := none }
        | .error f =>
          exec .dispatch s =
            .next { s with
              q.tail := (s.q.tail + 1) % (s.par.queueN + 1)
              hb := { data := [], len := 0, armed := true }
              m.out := s.m.out ++ [.drop f.dropCode]
              result := none }

/-- 45_dispatcher.md R222, R232, 60_exceptions.md R255: at LOOP, with the engine idle and an event unread, the Dispatcher's own
DISPATCH is what the operation DISPATCH does. A move of an agent whose step is not enabled is never refused; it changes nothing
but the model's own `sched` and `result`, which is the model's choice (log entry 5). A direct DISPATCH on an empty queue changes
nothing and is no fault. -/
def Obligations.DispatchRunsOnlyWhenEnabled : Prop :=
  (∀ (rest : List Move) (s : State),
    s.par.wellFormed = true → s.sched = .agent .dispatch :: rest →
      s.dsp = .loop → s.tx.active = false → s.q.head ≠ s.q.tail →
        step s = exec .dispatch { s with sched := rest }) ∧
  (∀ (a : AgentStep) (rest : List Move) (s : State),
    s.par.wellFormed = true → s.sched = .agent a :: rest → takenByAgent a s = none →
      step s = .next { s with sched := rest, result := none }) ∧
  ∀ s : State, s.dsp = .loop → s.tx.active = false → s.q.head = s.q.tail →
    exec .dispatch s = .next { s with result := none }

/-- 45_dispatcher.md R229: an enabled TX_RETURN re-enables the input, re-arms the timer and the UART path and returns to LOOP.
The new `lag` and the form of `timerCtl` are the model's own choice (log entries 10 and 28). -/
def Obligations.EnabledTxReturnRestoresReception : Prop :=
  ∀ (rest : List Move) (s : State),
    s.par.wellFormed = true → s.sched = .agent .txReturn :: rest → s.dsp = .inTx → s.tx.active = false →
      step s =
        .next { s with
          sched := rest
          inputEn := true
          pt := { count := 0, run := true }
          timerCtl := s.timerCtl ++ [.start, .reset]
          hb.armed := true
          dsp := .loop
          lag := { high := 0, low := 0, ret := 0 }
          result := none }

/-- 60_exceptions.md R274, R276, 45_dispatcher.md R229: a transmission ends. From any state of the invariant that is inside
a frame, whose phases fit the timer, the block on its own comes back to LOOP with the input enabled and the UART path armed.
The order of the block's own steps is the model's choice (log entry 4). -/
def Obligations.TransmissionEndsWithReceptionRestored : Prop :=
  ∀ s : State, Inv s → s.sched = [] → s.dsp = .inTx → s.tx.active = true → s.tx.mode = .frame →
    (∀ k, k ≤ 13 → (phaseTicks s.par k s.tx.cmd).2 < 2 ^ s.par.timerWidth) →
      ∃ n, (runSteps s n).dsp = .loop ∧ (runSteps s n).inputEn = true ∧ (runSteps s n).hb.armed = true

/-- 60_exceptions.md R276, R274, 45_dispatcher.md R229: "a transmission ends", on every fair run. From any state of the
invariant that is inside a frame, whose phases fit the timer, whatever TX_LATENCY, every run that is weakly fair to TIMER_TICK,
TX_STEP, TX_RETURN and DISPATCH comes back to LOOP with the input enabled and the UART path armed, whatever edges, bytes and
requests it is offered but for TRANSMIT and OUTTICK. What a fair run is, is the model's reading (log entry 26), and so is the
count of TX_LATENCY (log entry 10). -/
def Obligations.TransmissionEndsOnEveryFairRun : Prop :=
  ∀ (run : Nat → State) (inputs : Nat → List Move),
    FairRun run inputs → (∀ n, noneAsksFor startsEngine (inputs n)) → (run 0).sched = [] → Inv (run 0) →
      (run 0).dsp = .inTx → (run 0).tx.active = true → (run 0).tx.mode = .frame →
        (∀ k, k ≤ 13 → (phaseTicks (run 0).par k (run 0).tx.cmd).2 < 2 ^ (run 0).par.timerWidth) →
          ∃ n, (run n).dsp = .loop ∧ (run n).inputEn = true ∧ (run n).hb.armed = true

/-- 60_exceptions.md R276, 45_dispatcher.md R222, 44_queue.md R191: what becomes of an unread event on every fair run, whatever
edges, bytes and requests the run is offered but for those that start the engine or take events themselves. With an event unread
at LOOP and the engine idle, a DISPATCH is taken sooner or later. And with phases that fit the timer for every command, every
unread event, in whatever place of the queue, with the engine idle or inside the Dispatcher's own transmission, keeps its slot
until it is the oldest, and then either a DISPATCH takes it or a `put` on the full queue drops it. What a fair run is, is the
model's reading (log entry 26). -/
def Obligations.UnreadEventsAreDispatchedOrOverwrittenOnEveryFairRun : Prop :=
  ∀ (run : Nat → State) (inputs : Nat → List Move) (n : Nat),
    FairRun run inputs → (∀ k, noneAsksFor (fun i => startsEngine i || takesEvents i) (inputs k)) →
      (run 0).sched = [] → Inv (run 0) →
        ((run n).dsp = .loop → (run n).tx.active = false → (run n).q.head ≠ (run n).q.tail →
          ∃ m, n ≤ m ∧ stepTaken (offer (inputs m) (run m)) = some .dispatch) ∧
        ((∀ (c : Word16) (k : Nat), k ≤ 13 → (phaseTicks (run 0).par k c).2 < 2 ^ (run 0).par.timerWidth) →
          ((run n).tx.active = true → (run n).dsp = .inTx ∧ (run n).tx.mode = .frame) →
            ∀ i, unreadAt (run n) i →
              ∃ m, n ≤ m ∧
                (∀ j, n ≤ j → j ≤ m → unreadAt (run j) i ∧ (run j).q.slot[i]? = (run n).q.slot[i]?) ∧
                (run m).q.tail = i ∧ ¬unreadAt (run (m + 1)) i ∧
                ((stepTaken (offer (inputs m) (run m)) = some .dispatch ∧
                    ∃ rest, exec .dispatch { run m with sched := rest } = .next (run (m + 1))) ∨
                  (run (m + 1)).m.out = (run m).m.out ++ [.drop .queueOverflow]))

/-- 45_dispatcher.md R234: while DSP.STATE = IN_TX no step changes the decoder, but for a direct request of the decoder's own
operations. -/
def Obligations.DecoderUntouchedDuringATransmission : Prop :=
  ∀ s t : State, s.dsp = .inTx → step s = .next t →
    (∀ rest, s.sched ≠ .request (encode .beginFrame) :: rest) →
    (∀ b rest, s.sched ≠ .request (encode (.applyBit b)) :: rest) →
      t.dec = s.dec

/-- 70_reset_and_hazards.md R300: once the UartCommandReady is lost while the path is disarmed, no step recovers, but for a
direct PUT of UartCommandReady. -/
def Obligations.LostReadyEventIsNeverRecovered : Prop :=
  ∀ s t : State, Inv s → readyEventLost s → step s = .next t →
    (∀ rest, s.sched ≠ .request (encode (.put .uartCommandReady)) :: rest) →
      readyEventLost t

/-- 42_encoder.md R153, R154: the round trip, for all 4096 Commands, at the default durations and windows, from row 1 on, for an
idle receiver with any PT.COUNT and any decoder. With a DISPATCH after each edge the receiver materialises c and reports it
exactly once, after the twelve noise edges of the bits and before the trailer's; row 1 comes first, as noise or as one bit
event, which reports an old Command only where the decoder was waiting for its last bit. With any other draining that loses no
event and leaves none unread, the decoder ends the same and c is the last Command reported, once. -/
def Obligations.ReceivedFrameMaterialisesItsCommand : Prop :=
  ∀ (c : Command) (s : State),
    QueueOk s → quiescent s → s.inputEn = true → s.pt.run = true →
      s.par = { Params.default with queueN := s.par.queueN } →
        (∃ t : State, ∃ first : List Obs,
          t = runHarness (rxFrameDispatched s.par c) s ∧
            t.dec = { tick := 0, buf := c, cmd := c, fip := false } ∧
            t.m.out = s.m.out ++ first ++ List.replicate 12 (.drop .noise) ++ [.cmdReport c, .drop .noise] ∧
            first.length ≤ 1 ∧
            (classifyEdge s.par .falling s.pt.count = .invalid → first = [.drop .noise]) ∧
            (classifyEdge s.par .falling s.pt.count ≠ .invalid → s.dec.tick.toNat < 12 → first = []) ∧
            t.m.fault = s.m.fault ∧ t.m.refused = s.m.refused ∧ quiescent t) ∧
        ∀ (hs : List HarnessStep) (t : State),
          (hs.filter fun h => h != .request .dispatch) = rxFrame s.par c →
            t = runHarness hs s → queueEmpty t = true →
            t.m.out.count (.drop .queueOverflow) = s.m.out.count (.drop .queueOverflow) →
              t.dec = { tick := 0, buf := c, cmd := c, fip := false } ∧
                t.m.fault = s.m.fault ∧ t.m.refused = s.m.refused ∧
                ∃ first : List Command,
                  reports t.m.out = reports s.m.out ++ first ++ [c] ∧ first.length ≤ 1 ∧
                    (classifyEdge s.par .falling s.pt.count = .invalid ∨ s.dec.tick.toNat < 12 → first = [])

/-! ### The Pulse Timer -/

/-- 60_exceptions.md R262, 00_scope.md R13, 42_encoder.md R152. A TIMER_TICK with no urgent step enabled, or with one that has
TX_LATENCY left and stays enabled after the tick, adds 1 to the count modulo 2^TIMER_WIDTH while PT.RUN = 1, adds 1 to M.TIME
whether it runs or not, and changes nothing else of the block; how the latency is counted, and the new `lag`, are the model's
own (log entry 10). A TIMER_TICK request made while a step is urgent with no latency left, or while the tick would wrap the
count below the threshold that is due, waits: the urgent step is taken, the request stays next, and no time passes. That the
waiting word is put back into the schedule is the model's choice (log entry 9). -/
def Obligations.TimerTickAdvancesOrWaits : Prop :=
  ∀ s : State,
    (tickAllowed s = true →
      exec .timerTick s =
        .next { s with
          pt.count := if s.pt.run then (s.pt.count + 1) % 2 ^ s.par.timerWidth else s.pt.count
          m.time := s.m.time + 1
          lag := Lag.advance s
          result := none }) ∧
    (urgentEnabled s = true → s.par.txLatency ≤ urgentLag s ∨ tickKeepsDue s = false → ∃ t : State,
      exec .timerTick s = .next t ∧
        t = { urgentStep s with sched := .request (encode .timerTick) :: s.sched, result := none } ∧
        t.m.time = s.m.time)

/-- 60_exceptions.md R276: time passes. From every state of the invariant, the block running on its own takes a tick after
finitely many urgent steps and dispatches. The order of the block's own steps is the model's choice (log entry 4). -/
def Obligations.TimePassesWhenTheBlockRunsAlone : Prop :=
  ∀ s : State, Inv s → s.sched = [] → ∃ n, (runSteps s n).m.time = s.m.time + 1

/-! ### The whole machine -/

/-- 10_state.md R47: every field holds its reset value, for any parameters; the slots of the queue alone are unspecified, and
hold whatever they hold. The fields `par`, `sched`, `result`, `lag` and `timerCtl` are the model's own, or have its own form,
and are no part of this statement. -/
def Obligations.ResetHoldsTheStatedValues : Prop :=
  ∀ (p : Params) (slots : List Event), ∃ s : State, s = State.resetOf p slots ∧
    s.dec = { tick := 0, buf := 0, cmd := 0, fip := false } ∧
    s.q.head = 0 ∧ s.q.tail = 0 ∧ s.q.slot = slots ∧
    (∀ i, s.hb.data.read i = 0) ∧ s.hb.len = 0 ∧ s.hb.armed = true ∧
    s.tx.active = false ∧ s.tx.mode.code = 0 ∧ s.tx.cmd = 0 ∧ s.tx.phase = 0 ∧ s.tx.half.code = 0 ∧ s.tx.d1 = 0 ∧
    s.tx.d2 = 0 ∧ s.tx.pin = false ∧
    s.inputEn = true ∧ s.dsp = .loop ∧ s.pt = { count := 0, run := true } ∧
    (∀ c, s.m.fault.has c = false) ∧ (∀ c, s.m.refused.has c = false) ∧ s.m.out = [] ∧ s.m.time = 0

/-- 10_state.md R47, 70_reset_and_hazards.md R290, R291, R294: the reset state, for any legal parameters and any contents of the
N+1 slots: it satisfies the invariant and clean_entry, and it is quiescent. -/
def Obligations.ResetIsCleanAndKeepsTheInvariant : Prop :=
  ∀ (p : Params) (slots : List Event), p.wellFormed = true → slots.length = p.queueN + 1 →
    Inv (State.resetOf p slots) ∧ cleanEntry (State.resetOf p slots) ∧ quiescent (State.resetOf p slots)

/-- Every step keeps the invariant, from every state that has it, whatever the schedule asks for. The fields of `Inv` name their
rules (41_assembler.md R128, 44_queue.md R199, 10_state.md R32, R37, R40, R43 and the rest). So the spare bytes of HB.DATA, from
HB_THRESHOLD on, are 0 after every step (43_hexparse.md R182; log entry 14 says how bytes stop at the threshold). -/
def Obligations.EveryStepKeepsTheInvariant : Prop :=
  ∀ s t : State, Inv s → step s = .next t → Inv t ∧ ∀ i, t.par.hbThreshold ≤ i → t.hb.data.read i = 0

/-- 60_exceptions.md R250 (d), R253: the block never halts. Every operation on every state ends in a next state, and a step stops
only where the parameters are illegal, which is the model's choice (log entry 15). -/
def Obligations.NothingHaltsTheBlock : Prop :=
  (∀ (i : Instr) (s : State), ∃ t : State, exec i s = .next t) ∧
    ∀ s : State, s.par.wellFormed = true → ∃ t : State, step s = .next t

/-- 10_state.md R44: no step clears a code of M.FAULT or M.REFUSED. -/
def Obligations.NoStepClearsFaultsOrRefusals : Prop :=
  ∀ s t : State, step s = .next t →
    (∀ c, s.m.fault.has c = true → t.m.fault.has c = true) ∧
      ∀ c, s.m.refused.has c = true → t.m.refused.has c = true

/-- 10_state.md R45, 60_exceptions.md R256: a step only appends to the history, M.TIME moves by at most 1, and a step reports at
most one of a refusal, a fault or a drop. -/
def Obligations.StepReportsAtMostOneAnomaly : Prop :=
  ∀ s t : State, step s = .next t → ∃ new : List Obs,
    t.m.out = s.m.out ++ new ∧ (t.m.time = s.m.time ∨ t.m.time = s.m.time + 1) ∧
      (drops new).length ≤ 1 ∧
      (t.m.fault ≠ s.m.fault → drops new = [] ∧ t.m.refused = s.m.refused) ∧
      (t.m.refused ≠ s.m.refused → drops new = [] ∧ t.m.fault = s.m.fault)

/-- 60_exceptions.md R264: what the interrupt context may write. EDGE writes the count, by one reset of the timer at most, and
the queue by one `put` of its Symbol's event at most. UART_BYTE writes HB.DATA at HB.LEN alone, counts it in HB.LEN, clears
HB.ARMED at most, writes the queue by one `put` of UartCommandReady at most, which disarms the path, and makes no request of the
timer (10_state.md R20, log entry 28). A `put` writes the slot at Q.HEAD alone and moves Q.TAIL only on overflow (44_queue.md
R191). Neither touches the decoder, the encoder, the controls or the parameters, and neither adds anything to M.OUT but drops. -/
def Obligations.InterruptContextWritesOnlyItsOwn : Prop :=
  ∀ (dir : Dir) (b : Byte) (s t : State),
    let put : Event → EventQueue := fun e =>
      { slot := s.q.slot.set s.q.head e
        head := (s.q.head + 1) % (s.par.queueN + 1)
        tail := if (s.q.head + 1) % (s.par.queueN + 1) = s.q.tail then (s.q.tail + 1) % (s.par.queueN + 1) else s.q.tail }
    let addsOnlyDrops : Prop := ∃ new : List Obs, t.m.out = s.m.out ++ new ∧ ∀ o ∈ new, ∃ code, o = .drop code
    (exec (.edge dir) s = .next t →
      t.dec = s.dec ∧ t.hb = s.hb ∧ t.tx = s.tx ∧ t.inputEn = s.inputEn ∧ t.dsp = s.dsp ∧ t.pt.run = s.pt.run ∧
        t.par = s.par ∧ t.m.time = s.m.time ∧ t.m.refused = s.m.refused ∧ addsOnlyDrops ∧
        (t.timerCtl = s.timerCtl ∧ t.pt.count = s.pt.count ∨
          s.inputEn = true ∧ t.timerCtl = s.timerCtl ++ [.reset] ∧ t.pt.count = 0) ∧
        (t.q = s.q ∨
          s.inputEn = true ∧ ∃ e, eventOf (classifyEdge s.par dir s.pt.count) = some e ∧ t.q = put e)) ∧
    (exec (.uartByte b) s = .next t →
      t.dec = s.dec ∧ t.pt = s.pt ∧ t.tx = s.tx ∧ t.inputEn = s.inputEn ∧ t.dsp = s.dsp ∧
        t.timerCtl = s.timerCtl ∧ t.par = s.par ∧ t.m.time = s.m.time ∧ t.m.refused = s.m.refused ∧ addsOnlyDrops ∧
        (t.hb = s.hb ∨
          s.hb.armed = true ∧ t.hb.len = s.hb.len + 1 ∧
            (s.hb.data.wf = true → t.hb.data.read s.hb.len = b) ∧
            ∀ i, i ≠ s.hb.len → t.hb.data.read i = s.hb.data.read i) ∧
        (t.hb.armed = s.hb.armed ∧ t.q = s.q ∨
          s.hb.armed = true ∧ t.hb.armed = false ∧ t.q = put .uartCommandReady))

/-- 10_state.md R40, 60_exceptions.md R267: TX.PIN is written only by the encoder engine, which TRANSMIT, OUTTICK and a DISPATCH
start and whose TX_STEP moves it on; every change of the level is recorded as the last Pin entry. Of the operations, TIMER_TICK
moves the pin only by taking the urgent TX_STEP it waits for in its own place, which is the model's reading (log entry 9). Of
the steps, whatever the schedule, only a TX_STEP, a DISPATCH, and a request of TRANSMIT or OUTTICK do. -/
def Obligations.OnlyTheEngineMovesThePin : Prop :=
  (∀ (i : Instr) (s t : State), exec i s = .next t → t.tx.pin ≠ s.tx.pin →
    ((∃ c, i = .transmit c) ∨ (∃ d1 d2, i = .outTick d1 d2) ∨ i = .dispatch ∨ i = .timerTick) ∧
      ∃ before, t.m.out = before ++ [.pin t.tx.pin t.m.time]) ∧
  ∀ s t : State, step s = .next t → t.tx.pin ≠ s.tx.pin →
    (stepTaken s = some .txStep ∨ stepTaken s = some .dispatch ∨
        ∃ w rest i, s.sched = .request w :: rest ∧ decode w = .ok i ∧ startsEngine i = true) ∧
      ∃ before, t.m.out = before ++ [.pin t.tx.pin t.m.time]
end

