-- ==== Sys2Proof/Laws/Memory.lean ====
section
/-! SUPPORT. The laws of HB.DATA (20_memory.md R51): reading after a write, the canonical form every write keeps, and the
canonical form as extensionality. -/

namespace Sys2Proof.Machine

@[simp] theorem Memory.read_nil (i : Nat) : Memory.read [] i = 0 := rfl

theorem Memory.read_cons (j i : Nat) (b : Byte) (m : Memory) :
    Memory.read ((j, b) :: m) i = if j = i then b else Memory.read m i := rfl

/-- Below the bound of the canonical form nothing is listed. -/
theorem Memory.read_below {lo i : Nat} {m : Memory} (h : Memory.wfFrom lo m = true) (hi : i < lo) :
    Memory.read m i = 0 := by
  induction m generalizing lo with
  | nil => rfl
  | cons c rest ih =>
    obtain ⟨j, b⟩ := c
    simp only [Memory.wfFrom, Bool.and_eq_true, decide_eq_true_eq] at h
    rw [Memory.read_cons, if_neg (by omega)]
    exact ih h.2 (by omega)

theorem Memory.wfFrom_mono {lo lo' : Nat} {m : Memory} (h : Memory.wfFrom lo m = true) (hl : lo' ≤ lo) :
    Memory.wfFrom lo' m = true := by
  cases m with
  | nil => rfl
  | cons c rest =>
    simp only [Memory.wfFrom, Bool.and_eq_true, decide_eq_true_eq] at h ⊢
    exact ⟨⟨by omega, h.1.2⟩, h.2⟩

/-- Reading after a write: the byte written at its index, the byte before it elsewhere. -/
theorem Memory.read_write {lo : Nat} {m : Memory} (h : Memory.wfFrom lo m = true) (i j : Nat) (b : Byte) :
    Memory.read (Memory.write m i b) j = if j = i then b else Memory.read m j := by
  induction m generalizing lo with
  | nil =>
    simp only [Memory.write]
    by_cases hj : j = i
    · subst hj; split <;> simp_all [Memory.read_cons]
    · split <;> simp_all [Memory.read_cons, Ne.symm hj]
  | cons c rest ih =>
    obtain ⟨k, d⟩ := c
    simp only [Memory.wfFrom, Bool.and_eq_true, decide_eq_true_eq] at h
    have rest_i : i ≤ k → Memory.read rest i = 0 := fun hk => Memory.read_below h.2 (by omega)
    simp only [Memory.write]
    split
    · rename_i hk
      rw [Memory.read_cons, Memory.read_cons, ih h.2]
      split
      · subst_vars; rw [if_neg (by omega)]
      · rfl
    · split
      · rename_i hk
        subst hk
        by_cases hj : j = k
        · subst hj; split <;> simp_all [Memory.read_cons]
        · split <;> simp_all [Memory.read_cons, Ne.symm hj]
      · have hr : Memory.read rest i = 0 := rest_i (by omega)
        by_cases hj : j = i
        · subst hj; split <;> simp_all [Memory.read_cons]
        · split <;> simp_all [Memory.read_cons, Ne.symm hj]

/-- A write keeps the canonical form above any bound not above its index. -/
theorem Memory.wfFrom_write {lo : Nat} {m : Memory} (h : Memory.wfFrom lo m = true) (i : Nat) (hi : lo ≤ i) (b : Byte) :
    Memory.wfFrom lo (Memory.write m i b) = true := by
  induction m generalizing lo with
  | nil => simp only [Memory.write]; split <;> simp_all [Memory.wfFrom]
  | cons c rest ih =>
    obtain ⟨k, d⟩ := c
    simp only [Memory.wfFrom, Bool.and_eq_true, decide_eq_true_eq] at h
    simp only [Memory.write]
    split
    · simp only [Memory.wfFrom, Bool.and_eq_true, decide_eq_true_eq]
      exact ⟨h.1, ih h.2 (by omega)⟩
    · split
      · rename_i hk
        subst hk
        split
        · exact Memory.wfFrom_mono h.2 (by omega)
        · simp_all [Memory.wfFrom]
      · split
        · simp_all [Memory.wfFrom]
        · rename_i hlt hne hb
          simp only [Memory.wfFrom, Bool.and_eq_true, decide_eq_true_eq, bne_iff_ne, ne_eq] at h ⊢
          exact ⟨⟨hi, hb⟩, ⟨by omega, h.1.2⟩, h.2⟩

/-- Every memory operation keeps the canonical form: the write. -/
theorem Memory.wf_write {m : Memory} (h : m.wf = true) (i : Nat) (b : Byte) : (m.write i b).wf = true :=
  Memory.wfFrom_write h i (Nat.zero_le i) b

/-- Every memory operation keeps the canonical form: the clear. -/
theorem Memory.wf_clear : Memory.wf [] = true := rfl

/-- Reading after a write, for a canonical memory. -/
theorem Memory.read_write_wf {m : Memory} (h : m.wf = true) (i j : Nat) (b : Byte) :
    (m.write i b).read j = if j = i then b else m.read j := Memory.read_write h i j b

theorem Memory.ext_from {lo : Nat} {m n : Memory} (hm : Memory.wfFrom lo m = true) (hn : Memory.wfFrom lo n = true)
    (h : ∀ i, Memory.read m i = Memory.read n i) : m = n := by
  induction m generalizing lo n with
  | nil =>
    cases n with
    | nil => rfl
    | cons c rest =>
      obtain ⟨j, b⟩ := c
      have := h j
      simp_all [Memory.wfFrom, Memory.read_cons]
  | cons c rest ih =>
    obtain ⟨j, b⟩ := c
    simp only [Memory.wfFrom, Bool.and_eq_true, decide_eq_true_eq, bne_iff_ne, ne_eq] at hm
    cases n with
    | nil => have := h j; simp_all [Memory.read_cons]
    | cons c' rest' =>
      obtain ⟨k, d⟩ := c'
      simp only [Memory.wfFrom, Bool.and_eq_true, decide_eq_true_eq, bne_iff_ne, ne_eq] at hn
      have hjk : j = k := by
        rcases Nat.lt_trichotomy j k with hlt | heq | hgt
        · have h1 := h j
          rw [Memory.read_cons, Memory.read_cons, if_pos rfl, if_neg (by omega), Memory.read_below hn.2 (by omega)] at h1
          exact absurd h1 hm.1.2
        · exact heq
        · have h1 := h k
          rw [Memory.read_cons, Memory.read_cons, if_pos rfl, if_neg (by omega), Memory.read_below hm.2 (by omega)] at h1
          exact absurd h1.symm hn.1.2
      subst hjk
      have hbd : b = d := by have h1 := h j; simpa [Memory.read_cons] using h1
      subst hbd
      congr 1
      refine ih hm.2 hn.2 fun i => ?_
      by_cases hi : i = j
      · subst hi; rw [Memory.read_below hm.2 (by omega), Memory.read_below hn.2 (by omega)]
      · have h1 := h i
        rwa [Memory.read_cons, Memory.read_cons, if_neg (Ne.symm hi), if_neg (Ne.symm hi)] at h1

/-- Two canonical memories that read alike are one: the canonical form is canonical. -/
theorem Memory.ext_of_wf {m n : Memory} (hm : m.wf = true) (hn : n.wf = true) (h : ∀ i, m.read i = n.read i) : m = n :=
  Memory.ext_from hm hn h

end Sys2Proof.Machine
end

