-- ==== Sys2Proof/Laws/State.lean ====
section
/-! SUPPORT. What each state update of Machine/Ops.lean, MainLoop.lean and Schedule.lean does to each field of State: one lemma
per field per update, true by rfl, so that no later proof unfolds an update. -/

namespace Sys2Proof.Machine

@[simp] theorem emit_dec (o : Obs) (s : State) : (emit o s).dec = s.dec := rfl
@[simp] theorem emit_q (o : Obs) (s : State) : (emit o s).q = s.q := rfl
@[simp] theorem emit_hb (o : Obs) (s : State) : (emit o s).hb = s.hb := rfl
@[simp] theorem emit_tx (o : Obs) (s : State) : (emit o s).tx = s.tx := rfl
@[simp] theorem emit_inputEn (o : Obs) (s : State) : (emit o s).inputEn = s.inputEn := rfl
@[simp] theorem emit_dsp (o : Obs) (s : State) : (emit o s).dsp = s.dsp := rfl
@[simp] theorem emit_pt (o : Obs) (s : State) : (emit o s).pt = s.pt := rfl
@[simp] theorem emit_m (o : Obs) (s : State) : (emit o s).m = { s.m with out := s.m.out ++ [o] } := rfl
@[simp] theorem emit_timerCtl (o : Obs) (s : State) : (emit o s).timerCtl = s.timerCtl := rfl
@[simp] theorem emit_par (o : Obs) (s : State) : (emit o s).par = s.par := rfl
@[simp] theorem emit_sched (o : Obs) (s : State) : (emit o s).sched = s.sched := rfl
@[simp] theorem emit_result (o : Obs) (s : State) : (emit o s).result = s.result := rfl
@[simp] theorem emit_lag (o : Obs) (s : State) : (emit o s).lag = s.lag := rfl

@[simp] theorem returning_dec (r : Option Result) (s : State) : (returning r s).dec = s.dec := rfl
@[simp] theorem returning_q (r : Option Result) (s : State) : (returning r s).q = s.q := rfl
@[simp] theorem returning_hb (r : Option Result) (s : State) : (returning r s).hb = s.hb := rfl
@[simp] theorem returning_tx (r : Option Result) (s : State) : (returning r s).tx = s.tx := rfl
@[simp] theorem returning_inputEn (r : Option Result) (s : State) : (returning r s).inputEn = s.inputEn := rfl
@[simp] theorem returning_dsp (r : Option Result) (s : State) : (returning r s).dsp = s.dsp := rfl
@[simp] theorem returning_pt (r : Option Result) (s : State) : (returning r s).pt = s.pt := rfl
@[simp] theorem returning_m (r : Option Result) (s : State) : (returning r s).m = s.m := rfl
@[simp] theorem returning_timerCtl (r : Option Result) (s : State) : (returning r s).timerCtl = s.timerCtl := rfl
@[simp] theorem returning_par (r : Option Result) (s : State) : (returning r s).par = s.par := rfl
@[simp] theorem returning_sched (r : Option Result) (s : State) : (returning r s).sched = s.sched := rfl
@[simp] theorem returning_result (r : Option Result) (s : State) : (returning r s).result = r := rfl
@[simp] theorem returning_lag (r : Option Result) (s : State) : (returning r s).lag = s.lag := rfl

@[simp] theorem raiseFault_dec (c : FaultCode) (s : State) : (raiseFault c s).dec = s.dec := rfl
@[simp] theorem raiseFault_q (c : FaultCode) (s : State) : (raiseFault c s).q = s.q := rfl
@[simp] theorem raiseFault_hb (c : FaultCode) (s : State) : (raiseFault c s).hb = s.hb := rfl
@[simp] theorem raiseFault_tx (c : FaultCode) (s : State) : (raiseFault c s).tx = s.tx := rfl
@[simp] theorem raiseFault_inputEn (c : FaultCode) (s : State) : (raiseFault c s).inputEn = s.inputEn := rfl
@[simp] theorem raiseFault_dsp (c : FaultCode) (s : State) : (raiseFault c s).dsp = s.dsp := rfl
@[simp] theorem raiseFault_pt (c : FaultCode) (s : State) : (raiseFault c s).pt = s.pt := rfl
@[simp] theorem raiseFault_m (c : FaultCode) (s : State) :
    (raiseFault c s).m = { s.m with fault := s.m.fault.add c } := rfl
@[simp] theorem raiseFault_timerCtl (c : FaultCode) (s : State) : (raiseFault c s).timerCtl = s.timerCtl := rfl
@[simp] theorem raiseFault_par (c : FaultCode) (s : State) : (raiseFault c s).par = s.par := rfl
@[simp] theorem raiseFault_sched (c : FaultCode) (s : State) : (raiseFault c s).sched = s.sched := rfl
@[simp] theorem raiseFault_result (c : FaultCode) (s : State) : (raiseFault c s).result = none := rfl
@[simp] theorem raiseFault_lag (c : FaultCode) (s : State) : (raiseFault c s).lag = s.lag := rfl

@[simp] theorem refuse_dec (c : RefuseCode) (s : State) : (refuse c s).dec = s.dec := rfl
@[simp] theorem refuse_q (c : RefuseCode) (s : State) : (refuse c s).q = s.q := rfl
@[simp] theorem refuse_hb (c : RefuseCode) (s : State) : (refuse c s).hb = s.hb := rfl
@[simp] theorem refuse_tx (c : RefuseCode) (s : State) : (refuse c s).tx = s.tx := rfl
@[simp] theorem refuse_inputEn (c : RefuseCode) (s : State) : (refuse c s).inputEn = s.inputEn := rfl
@[simp] theorem refuse_dsp (c : RefuseCode) (s : State) : (refuse c s).dsp = s.dsp := rfl
@[simp] theorem refuse_pt (c : RefuseCode) (s : State) : (refuse c s).pt = s.pt := rfl
@[simp] theorem refuse_m (c : RefuseCode) (s : State) :
    (refuse c s).m = { s.m with refused := s.m.refused.add c } := rfl
@[simp] theorem refuse_timerCtl (c : RefuseCode) (s : State) : (refuse c s).timerCtl = s.timerCtl := rfl
@[simp] theorem refuse_par (c : RefuseCode) (s : State) : (refuse c s).par = s.par := rfl
@[simp] theorem refuse_sched (c : RefuseCode) (s : State) : (refuse c s).sched = s.sched := rfl
@[simp] theorem refuse_result (c : RefuseCode) (s : State) : (refuse c s).result = none := rfl
@[simp] theorem refuse_lag (c : RefuseCode) (s : State) : (refuse c s).lag = s.lag := rfl

@[simp] theorem requestTimer_dec (r : TimerRequest) (s : State) : (requestTimer r s).dec = s.dec := rfl
@[simp] theorem requestTimer_q (r : TimerRequest) (s : State) : (requestTimer r s).q = s.q := rfl
@[simp] theorem requestTimer_hb (r : TimerRequest) (s : State) : (requestTimer r s).hb = s.hb := rfl
@[simp] theorem requestTimer_tx (r : TimerRequest) (s : State) : (requestTimer r s).tx = s.tx := rfl
@[simp] theorem requestTimer_inputEn (r : TimerRequest) (s : State) : (requestTimer r s).inputEn = s.inputEn := rfl
@[simp] theorem requestTimer_dsp (r : TimerRequest) (s : State) : (requestTimer r s).dsp = s.dsp := rfl
@[simp] theorem requestTimer_pt (r : TimerRequest) (s : State) : (requestTimer r s).pt = s.pt := rfl
@[simp] theorem requestTimer_m (r : TimerRequest) (s : State) : (requestTimer r s).m = s.m := rfl
@[simp] theorem requestTimer_timerCtl (r : TimerRequest) (s : State) : (requestTimer r s).timerCtl = s.timerCtl ++ [r] := rfl
@[simp] theorem requestTimer_par (r : TimerRequest) (s : State) : (requestTimer r s).par = s.par := rfl
@[simp] theorem requestTimer_sched (r : TimerRequest) (s : State) : (requestTimer r s).sched = s.sched := rfl
@[simp] theorem requestTimer_result (r : TimerRequest) (s : State) : (requestTimer r s).result = s.result := rfl
@[simp] theorem requestTimer_lag (r : TimerRequest) (s : State) : (requestTimer r s).lag = s.lag := rfl

@[simp] theorem timerReset_dec (s : State) : (timerReset s).dec = s.dec := rfl
@[simp] theorem timerReset_q (s : State) : (timerReset s).q = s.q := rfl
@[simp] theorem timerReset_hb (s : State) : (timerReset s).hb = s.hb := rfl
@[simp] theorem timerReset_tx (s : State) : (timerReset s).tx = s.tx := rfl
@[simp] theorem timerReset_inputEn (s : State) : (timerReset s).inputEn = s.inputEn := rfl
@[simp] theorem timerReset_dsp (s : State) : (timerReset s).dsp = s.dsp := rfl
@[simp] theorem timerReset_pt (s : State) : (timerReset s).pt = { s.pt with count := 0 } := rfl
@[simp] theorem timerReset_m (s : State) : (timerReset s).m = s.m := rfl
@[simp] theorem timerReset_timerCtl (s : State) : (timerReset s).timerCtl = s.timerCtl ++ [.reset] := rfl
@[simp] theorem timerReset_par (s : State) : (timerReset s).par = s.par := rfl
@[simp] theorem timerReset_sched (s : State) : (timerReset s).sched = s.sched := rfl
@[simp] theorem timerReset_result (s : State) : (timerReset s).result = s.result := rfl
@[simp] theorem timerReset_lag (s : State) : (timerReset s).lag = Lag.settle s := rfl

@[simp] theorem timerStart_dec (s : State) : (timerStart s).dec = s.dec := rfl
@[simp] theorem timerStart_q (s : State) : (timerStart s).q = s.q := rfl
@[simp] theorem timerStart_hb (s : State) : (timerStart s).hb = s.hb := rfl
@[simp] theorem timerStart_tx (s : State) : (timerStart s).tx = s.tx := rfl
@[simp] theorem timerStart_inputEn (s : State) : (timerStart s).inputEn = s.inputEn := rfl
@[simp] theorem timerStart_dsp (s : State) : (timerStart s).dsp = s.dsp := rfl
@[simp] theorem timerStart_pt (s : State) : (timerStart s).pt = { count := 0, run := true } := rfl
@[simp] theorem timerStart_m (s : State) : (timerStart s).m = s.m := rfl
@[simp] theorem timerStart_timerCtl (s : State) : (timerStart s).timerCtl = s.timerCtl ++ [.start, .reset] := by
  simp [timerStart, timerReset, requestTimer]
@[simp] theorem timerStart_par (s : State) : (timerStart s).par = s.par := rfl
@[simp] theorem timerStart_sched (s : State) : (timerStart s).sched = s.sched := rfl
@[simp] theorem timerStart_result (s : State) : (timerStart s).result = s.result := rfl
@[simp] theorem timerStart_lag (s : State) : (timerStart s).lag = Lag.settle s := rfl

@[simp] theorem timerStop_dec (s : State) : (timerStop s).dec = s.dec := rfl
@[simp] theorem timerStop_q (s : State) : (timerStop s).q = s.q := rfl
@[simp] theorem timerStop_hb (s : State) : (timerStop s).hb = s.hb := rfl
@[simp] theorem timerStop_tx (s : State) : (timerStop s).tx = s.tx := rfl
@[simp] theorem timerStop_inputEn (s : State) : (timerStop s).inputEn = s.inputEn := rfl
@[simp] theorem timerStop_dsp (s : State) : (timerStop s).dsp = s.dsp := rfl
@[simp] theorem timerStop_pt (s : State) : (timerStop s).pt = { s.pt with run := false } := rfl
@[simp] theorem timerStop_m (s : State) : (timerStop s).m = s.m := rfl
@[simp] theorem timerStop_timerCtl (s : State) : (timerStop s).timerCtl = s.timerCtl ++ [.stop] := rfl
@[simp] theorem timerStop_par (s : State) : (timerStop s).par = s.par := rfl
@[simp] theorem timerStop_sched (s : State) : (timerStop s).sched = s.sched := rfl
@[simp] theorem timerStop_result (s : State) : (timerStop s).result = s.result := rfl
@[simp] theorem timerStop_lag (s : State) : (timerStop s).lag = s.lag := rfl

@[simp] theorem timerAdvance_dec (s : State) : (timerAdvance s).dec = s.dec := rfl
@[simp] theorem timerAdvance_q (s : State) : (timerAdvance s).q = s.q := rfl
@[simp] theorem timerAdvance_hb (s : State) : (timerAdvance s).hb = s.hb := rfl
@[simp] theorem timerAdvance_tx (s : State) : (timerAdvance s).tx = s.tx := rfl
@[simp] theorem timerAdvance_inputEn (s : State) : (timerAdvance s).inputEn = s.inputEn := rfl
@[simp] theorem timerAdvance_dsp (s : State) : (timerAdvance s).dsp = s.dsp := rfl
@[simp] theorem timerAdvance_pt (s : State) : (timerAdvance s).pt = { s.pt with count := nextCount s } := rfl
@[simp] theorem timerAdvance_m (s : State) : (timerAdvance s).m = { s.m with time := s.m.time + 1 } := rfl
@[simp] theorem timerAdvance_timerCtl (s : State) : (timerAdvance s).timerCtl = s.timerCtl := rfl
@[simp] theorem timerAdvance_par (s : State) : (timerAdvance s).par = s.par := rfl
@[simp] theorem timerAdvance_sched (s : State) : (timerAdvance s).sched = s.sched := rfl
@[simp] theorem timerAdvance_result (s : State) : (timerAdvance s).result = s.result := rfl
@[simp] theorem timerAdvance_lag (s : State) : (timerAdvance s).lag = Lag.advance s := rfl

@[simp] theorem dropOldest_dec (s : State) : (dropOldest s).dec = s.dec := rfl
@[simp] theorem dropOldest_q (s : State) : (dropOldest s).q = { s.q with tail := ringNext s s.q.tail } := rfl
@[simp] theorem dropOldest_hb (s : State) : (dropOldest s).hb = s.hb := rfl
@[simp] theorem dropOldest_tx (s : State) : (dropOldest s).tx = s.tx := rfl
@[simp] theorem dropOldest_inputEn (s : State) : (dropOldest s).inputEn = s.inputEn := rfl
@[simp] theorem dropOldest_dsp (s : State) : (dropOldest s).dsp = s.dsp := rfl
@[simp] theorem dropOldest_pt (s : State) : (dropOldest s).pt = s.pt := rfl
@[simp] theorem dropOldest_m (s : State) :
    (dropOldest s).m = { s.m with out := s.m.out ++ [.drop .queueOverflow] } := rfl
@[simp] theorem dropOldest_timerCtl (s : State) : (dropOldest s).timerCtl = s.timerCtl := rfl
@[simp] theorem dropOldest_par (s : State) : (dropOldest s).par = s.par := rfl
@[simp] theorem dropOldest_sched (s : State) : (dropOldest s).sched = s.sched := rfl
@[simp] theorem dropOldest_result (s : State) : (dropOldest s).result = s.result := rfl
@[simp] theorem dropOldest_lag (s : State) : (dropOldest s).lag = s.lag := rfl

@[simp] theorem beginFrame_dec (s : State) : (beginFrame s).dec = { s.dec with tick := 0, buf := 0 } := rfl
@[simp] theorem beginFrame_q (s : State) : (beginFrame s).q = s.q := rfl
@[simp] theorem beginFrame_hb (s : State) : (beginFrame s).hb = s.hb := rfl
@[simp] theorem beginFrame_tx (s : State) : (beginFrame s).tx = s.tx := rfl
@[simp] theorem beginFrame_inputEn (s : State) : (beginFrame s).inputEn = s.inputEn := rfl
@[simp] theorem beginFrame_dsp (s : State) : (beginFrame s).dsp = s.dsp := rfl
@[simp] theorem beginFrame_pt (s : State) : (beginFrame s).pt = s.pt := rfl
@[simp] theorem beginFrame_m (s : State) : (beginFrame s).m = s.m := rfl
@[simp] theorem beginFrame_timerCtl (s : State) : (beginFrame s).timerCtl = s.timerCtl := rfl
@[simp] theorem beginFrame_par (s : State) : (beginFrame s).par = s.par := rfl
@[simp] theorem beginFrame_sched (s : State) : (beginFrame s).sched = s.sched := rfl
@[simp] theorem beginFrame_result (s : State) : (beginFrame s).result = s.result := rfl
@[simp] theorem beginFrame_lag (s : State) : (beginFrame s).lag = s.lag := rfl

@[simp] theorem onFrameStart_dec (s : State) :
    (onFrameStart s).dec = { s.dec with tick := 0, buf := 0, fip := true } := rfl
@[simp] theorem onFrameStart_q (s : State) : (onFrameStart s).q = s.q := rfl
@[simp] theorem onFrameStart_hb (s : State) : (onFrameStart s).hb = s.hb := rfl
@[simp] theorem onFrameStart_tx (s : State) : (onFrameStart s).tx = s.tx := rfl
@[simp] theorem onFrameStart_inputEn (s : State) : (onFrameStart s).inputEn = s.inputEn := rfl
@[simp] theorem onFrameStart_dsp (s : State) : (onFrameStart s).dsp = s.dsp := rfl
@[simp] theorem onFrameStart_pt (s : State) : (onFrameStart s).pt = s.pt := rfl
@[simp] theorem onFrameStart_m (s : State) : (onFrameStart s).m = s.m := rfl
@[simp] theorem onFrameStart_timerCtl (s : State) : (onFrameStart s).timerCtl = s.timerCtl := rfl
@[simp] theorem onFrameStart_par (s : State) : (onFrameStart s).par = s.par := rfl
@[simp] theorem onFrameStart_sched (s : State) : (onFrameStart s).sched = s.sched := rfl
@[simp] theorem onFrameStart_result (s : State) : (onFrameStart s).result = s.result := rfl
@[simp] theorem onFrameStart_lag (s : State) : (onFrameStart s).lag = s.lag := rfl

@[simp] theorem hbClear_dec (s : State) : (hbClear s).dec = s.dec := rfl
@[simp] theorem hbClear_q (s : State) : (hbClear s).q = s.q := rfl
@[simp] theorem hbClear_hb (s : State) : (hbClear s).hb = { s.hb with data := [], len := 0 } := rfl
@[simp] theorem hbClear_tx (s : State) : (hbClear s).tx = s.tx := rfl
@[simp] theorem hbClear_inputEn (s : State) : (hbClear s).inputEn = s.inputEn := rfl
@[simp] theorem hbClear_dsp (s : State) : (hbClear s).dsp = s.dsp := rfl
@[simp] theorem hbClear_pt (s : State) : (hbClear s).pt = s.pt := rfl
@[simp] theorem hbClear_m (s : State) : (hbClear s).m = s.m := rfl
@[simp] theorem hbClear_timerCtl (s : State) : (hbClear s).timerCtl = s.timerCtl := rfl
@[simp] theorem hbClear_par (s : State) : (hbClear s).par = s.par := rfl
@[simp] theorem hbClear_sched (s : State) : (hbClear s).sched = s.sched := rfl
@[simp] theorem hbClear_result (s : State) : (hbClear s).result = s.result := rfl
@[simp] theorem hbClear_lag (s : State) : (hbClear s).lag = s.lag := rfl

@[simp] theorem drivePin_dec (level : Bool) (s : State) : (drivePin level s).dec = s.dec := rfl
@[simp] theorem drivePin_q (level : Bool) (s : State) : (drivePin level s).q = s.q := rfl
@[simp] theorem drivePin_hb (level : Bool) (s : State) : (drivePin level s).hb = s.hb := rfl
@[simp] theorem drivePin_tx (level : Bool) (s : State) : (drivePin level s).tx = { s.tx with pin := level } := rfl
@[simp] theorem drivePin_inputEn (level : Bool) (s : State) : (drivePin level s).inputEn = s.inputEn := rfl
@[simp] theorem drivePin_dsp (level : Bool) (s : State) : (drivePin level s).dsp = s.dsp := rfl
@[simp] theorem drivePin_pt (level : Bool) (s : State) : (drivePin level s).pt = s.pt := rfl
@[simp] theorem drivePin_m (level : Bool) (s : State) :
    (drivePin level s).m = { s.m with out := s.m.out ++ [.pin level s.m.time] } := rfl
@[simp] theorem drivePin_timerCtl (level : Bool) (s : State) : (drivePin level s).timerCtl = s.timerCtl := rfl
@[simp] theorem drivePin_par (level : Bool) (s : State) : (drivePin level s).par = s.par := rfl
@[simp] theorem drivePin_sched (level : Bool) (s : State) : (drivePin level s).sched = s.sched := rfl
@[simp] theorem drivePin_result (level : Bool) (s : State) : (drivePin level s).result = s.result := rfl
@[simp] theorem drivePin_lag (level : Bool) (s : State) : (drivePin level s).lag = s.lag := rfl

@[simp] theorem beginHigh_dec (s : State) : (beginHigh s).dec = s.dec := rfl
@[simp] theorem beginHigh_q (s : State) : (beginHigh s).q = s.q := rfl
@[simp] theorem beginHigh_hb (s : State) : (beginHigh s).hb = s.hb := rfl
@[simp] theorem beginHigh_tx (s : State) :
    (beginHigh s).tx = { s.tx with pin := true, half := .high, active := true } := rfl
@[simp] theorem beginHigh_inputEn (s : State) : (beginHigh s).inputEn = s.inputEn := rfl
@[simp] theorem beginHigh_dsp (s : State) : (beginHigh s).dsp = s.dsp := rfl
@[simp] theorem beginHigh_pt (s : State) : (beginHigh s).pt = { s.pt with count := 0 } := rfl
@[simp] theorem beginHigh_m (s : State) : (beginHigh s).m = { s.m with out := s.m.out ++ [.pin true s.m.time] } := rfl
@[simp] theorem beginHigh_timerCtl (s : State) : (beginHigh s).timerCtl = s.timerCtl ++ [.reset] := rfl
@[simp] theorem beginHigh_par (s : State) : (beginHigh s).par = s.par := rfl
@[simp] theorem beginHigh_sched (s : State) : (beginHigh s).sched = s.sched := rfl
@[simp] theorem beginHigh_result (s : State) : (beginHigh s).result = s.result := rfl
@[simp] theorem beginHigh_lag (s : State) : (beginHigh s).lag = { high := 0, low := 0, ret := 0 } := rfl

@[simp] theorem startPhase_dec (k : Nat) (s : State) : (startPhase k s).dec = s.dec := rfl
@[simp] theorem startPhase_q (k : Nat) (s : State) : (startPhase k s).q = s.q := rfl
@[simp] theorem startPhase_hb (k : Nat) (s : State) : (startPhase k s).hb = s.hb := rfl
@[simp] theorem startPhase_tx (k : Nat) (s : State) :
    (startPhase k s).tx = { s.tx with phase := BitVec.ofNat 4 k, d1 := threshold (phaseTicks s.par k s.tx.cmd).1, d2 := threshold (phaseTicks s.par k s.tx.cmd).2, pin := true, half := .high, active := true } := rfl
@[simp] theorem startPhase_inputEn (k : Nat) (s : State) : (startPhase k s).inputEn = s.inputEn := rfl
@[simp] theorem startPhase_dsp (k : Nat) (s : State) : (startPhase k s).dsp = s.dsp := rfl
@[simp] theorem startPhase_pt (k : Nat) (s : State) : (startPhase k s).pt = { s.pt with count := 0 } := rfl
@[simp] theorem startPhase_m (k : Nat) (s : State) :
    (startPhase k s).m = { s.m with out := s.m.out ++ [.pin true s.m.time] } := rfl
@[simp] theorem startPhase_timerCtl (k : Nat) (s : State) : (startPhase k s).timerCtl = s.timerCtl ++ [.reset] := rfl
@[simp] theorem startPhase_par (k : Nat) (s : State) : (startPhase k s).par = s.par := rfl
@[simp] theorem startPhase_sched (k : Nat) (s : State) : (startPhase k s).sched = s.sched := rfl
@[simp] theorem startPhase_result (k : Nat) (s : State) : (startPhase k s).result = s.result := rfl
@[simp] theorem startPhase_lag (k : Nat) (s : State) : (startPhase k s).lag = { high := 0, low := 0, ret := 0 } := rfl

@[simp] theorem startFrame_dec (c : Word16) (s : State) : (startFrame c s).dec = s.dec := rfl
@[simp] theorem startFrame_q (c : Word16) (s : State) : (startFrame c s).q = s.q := rfl
@[simp] theorem startFrame_hb (c : Word16) (s : State) : (startFrame c s).hb = s.hb := rfl
@[simp] theorem startFrame_tx (c : Word16) (s : State) :
    (startFrame c s).tx = { active := true, mode := .frame, cmd := c, phase := 0, half := .high, d1 := threshold (phaseTicks s.par 0 c).1, d2 := threshold (phaseTicks s.par 0 c).2, pin := true } := rfl
@[simp] theorem startFrame_inputEn (c : Word16) (s : State) : (startFrame c s).inputEn = s.inputEn := rfl
@[simp] theorem startFrame_dsp (c : Word16) (s : State) : (startFrame c s).dsp = s.dsp := rfl
@[simp] theorem startFrame_pt (c : Word16) (s : State) : (startFrame c s).pt = { count := 0, run := true } := rfl
@[simp] theorem startFrame_m (c : Word16) (s : State) :
    (startFrame c s).m = { s.m with out := s.m.out ++ [.pin true s.m.time] } := rfl
@[simp] theorem startFrame_timerCtl (c : Word16) (s : State) :
    (startFrame c s).timerCtl = s.timerCtl ++ [.start, .reset, .reset] := by
  simp [startFrame]
@[simp] theorem startFrame_par (c : Word16) (s : State) : (startFrame c s).par = s.par := rfl
@[simp] theorem startFrame_sched (c : Word16) (s : State) : (startFrame c s).sched = s.sched := rfl
@[simp] theorem startFrame_result (c : Word16) (s : State) : (startFrame c s).result = s.result := rfl
@[simp] theorem startFrame_lag (c : Word16) (s : State) :
    (startFrame c s).lag = { high := 0, low := 0, ret := 0 } := rfl

@[simp] theorem startSingle_dec (d1 d2 : Word16) (s : State) : (startSingle d1 d2 s).dec = s.dec := rfl
@[simp] theorem startSingle_q (d1 d2 : Word16) (s : State) : (startSingle d1 d2 s).q = s.q := rfl
@[simp] theorem startSingle_hb (d1 d2 : Word16) (s : State) : (startSingle d1 d2 s).hb = s.hb := rfl
@[simp] theorem startSingle_tx (d1 d2 : Word16) (s : State) :
    (startSingle d1 d2 s).tx = { active := true, mode := .single, cmd := s.tx.cmd, phase := 0, half := .high, d1 := d1, d2 := d2, pin := true } := rfl
@[simp] theorem startSingle_inputEn (d1 d2 : Word16) (s : State) : (startSingle d1 d2 s).inputEn = s.inputEn := rfl
@[simp] theorem startSingle_dsp (d1 d2 : Word16) (s : State) : (startSingle d1 d2 s).dsp = s.dsp := rfl
@[simp] theorem startSingle_pt (d1 d2 : Word16) (s : State) : (startSingle d1 d2 s).pt = { s.pt with count := 0 } := rfl
@[simp] theorem startSingle_m (d1 d2 : Word16) (s : State) :
    (startSingle d1 d2 s).m = { s.m with out := s.m.out ++ [.pin true s.m.time] } := rfl
@[simp] theorem startSingle_timerCtl (d1 d2 : Word16) (s : State) :
    (startSingle d1 d2 s).timerCtl = s.timerCtl ++ [.reset] := rfl
@[simp] theorem startSingle_par (d1 d2 : Word16) (s : State) : (startSingle d1 d2 s).par = s.par := rfl
@[simp] theorem startSingle_sched (d1 d2 : Word16) (s : State) : (startSingle d1 d2 s).sched = s.sched := rfl
@[simp] theorem startSingle_result (d1 d2 : Word16) (s : State) : (startSingle d1 d2 s).result = s.result := rfl
@[simp] theorem startSingle_lag (d1 d2 : Word16) (s : State) :
    (startSingle d1 d2 s).lag = { high := 0, low := 0, ret := 0 } := rfl

@[simp] theorem endRun_dec (s : State) : (endRun s).dec = s.dec := rfl
@[simp] theorem endRun_q (s : State) : (endRun s).q = s.q := rfl
@[simp] theorem endRun_hb (s : State) : (endRun s).hb = s.hb := rfl
@[simp] theorem endRun_tx (s : State) : (endRun s).tx = { s.tx with active := false } := rfl
@[simp] theorem endRun_inputEn (s : State) : (endRun s).inputEn = s.inputEn := rfl
@[simp] theorem endRun_dsp (s : State) : (endRun s).dsp = s.dsp := rfl
@[simp] theorem endRun_pt (s : State) : (endRun s).pt = s.pt := rfl
@[simp] theorem endRun_m (s : State) : (endRun s).m = s.m := rfl
@[simp] theorem endRun_timerCtl (s : State) : (endRun s).timerCtl = s.timerCtl := rfl
@[simp] theorem endRun_par (s : State) : (endRun s).par = s.par := rfl
@[simp] theorem endRun_sched (s : State) : (endRun s).sched = s.sched := rfl
@[simp] theorem endRun_result (s : State) : (endRun s).result = s.result := rfl
@[simp] theorem endRun_lag (s : State) : (endRun s).lag = { high := 0, low := 0, ret := 0 } := rfl

@[simp] theorem txReturn_dec (s : State) : (txReturn s).dec = s.dec := rfl
@[simp] theorem txReturn_q (s : State) : (txReturn s).q = s.q := rfl
@[simp] theorem txReturn_hb (s : State) : (txReturn s).hb = { s.hb with armed := true } := rfl
@[simp] theorem txReturn_tx (s : State) : (txReturn s).tx = s.tx := rfl
@[simp] theorem txReturn_inputEn (s : State) : (txReturn s).inputEn = true := rfl
@[simp] theorem txReturn_dsp (s : State) : (txReturn s).dsp = .loop := rfl
@[simp] theorem txReturn_pt (s : State) : (txReturn s).pt = { count := 0, run := true } := rfl
@[simp] theorem txReturn_m (s : State) : (txReturn s).m = s.m := rfl
@[simp] theorem txReturn_timerCtl (s : State) : (txReturn s).timerCtl = s.timerCtl ++ [.start, .reset] := by
  simp [txReturn]
@[simp] theorem txReturn_par (s : State) : (txReturn s).par = s.par := rfl
@[simp] theorem txReturn_sched (s : State) : (txReturn s).sched = s.sched := rfl
@[simp] theorem txReturn_result (s : State) : (txReturn s).result = s.result := rfl
@[simp] theorem txReturn_lag (s : State) : (txReturn s).lag = { high := 0, low := 0, ret := 0 } := rfl

@[simp] theorem withRequest_dec (w : ReqWord) (s : State) : (withRequest w s).dec = s.dec := rfl
@[simp] theorem withRequest_q (w : ReqWord) (s : State) : (withRequest w s).q = s.q := rfl
@[simp] theorem withRequest_hb (w : ReqWord) (s : State) : (withRequest w s).hb = s.hb := rfl
@[simp] theorem withRequest_tx (w : ReqWord) (s : State) : (withRequest w s).tx = s.tx := rfl
@[simp] theorem withRequest_inputEn (w : ReqWord) (s : State) : (withRequest w s).inputEn = s.inputEn := rfl
@[simp] theorem withRequest_dsp (w : ReqWord) (s : State) : (withRequest w s).dsp = s.dsp := rfl
@[simp] theorem withRequest_pt (w : ReqWord) (s : State) : (withRequest w s).pt = s.pt := rfl
@[simp] theorem withRequest_m (w : ReqWord) (s : State) : (withRequest w s).m = s.m := rfl
@[simp] theorem withRequest_timerCtl (w : ReqWord) (s : State) : (withRequest w s).timerCtl = s.timerCtl := rfl
@[simp] theorem withRequest_par (w : ReqWord) (s : State) : (withRequest w s).par = s.par := rfl
@[simp] theorem withRequest_sched (w : ReqWord) (s : State) : (withRequest w s).sched = .request w :: s.sched := rfl
@[simp] theorem withRequest_result (w : ReqWord) (s : State) : (withRequest w s).result = s.result := rfl
@[simp] theorem withRequest_lag (w : ReqWord) (s : State) : (withRequest w s).lag = s.lag := rfl

end Sys2Proof.Machine
end

