-- ==== Sys2Proof/Laws/Ops.lean ====
section
/-! SUPPORT. One lemma per shared operation that says once everything the operation can do: what it answers, and the state
it answers it with. The provers cite these instead of unfolding the operations. -/

namespace Sys2Proof.Machine

/-! ### The end of a step -/

@[simp] theorem commit_ok (s t : State) (r : Option Result) : commit s (.ok (t, r)) = returning r t := rfl

@[simp] theorem commit_error (s : State) (c : FaultCode) : commit s (.error c) = raiseFault c s := rfl

@[simp] theorem noResult_ok (t : State) : noResult (.ok t) = .ok (t, none) := rfl

@[simp] theorem noResult_error (c : FaultCode) : noResult (.error c) = .error c := rfl

@[simp] theorem stateAfter_next (s t : State) : stateAfter s (.next t) = t := rfl

/-- A step of an operation that returns nothing ends in its state, or in the raised fault. -/
theorem commit_noResult_cases (s : State) (r : Except FaultCode State) :
    (∃ t, r = .ok t ∧ commit s (noResult r) = returning none t) ∨
      ∃ c, r = .error c ∧ commit s (noResult r) = raiseFault c s := by
  cases r with
  | ok t => exact .inl ⟨t, rfl, rfl⟩
  | error c => exact .inr ⟨c, rfl, rfl⟩

/-! ### Storage -/

theorem hbWrite_eq (i : Nat) (b : Byte) (s : State) :
    hbWrite i b s =
      if i < s.par.hbCap then .ok { s with hb := { s.hb with data := s.hb.data.write i b } } else .error .indexRange := rfl

theorem slotRead_ok {s : State} {i : Nat} {e : Event} (h : s.q.slot[i]? = some e) : slotRead s i = .ok e := by
  simp [slotRead, h]

theorem slotRead_cases (s : State) (i : Nat) :
    (∃ e, s.q.slot[i]? = some e ∧ slotRead s i = .ok e) ∨ (s.q.slot[i]? = none ∧ slotRead s i = .error .indexRange) := by
  unfold slotRead
  split <;> simp_all

/-! ### The Event Queue -/

/-- The state a `put` ends in when the slot at Q.HEAD exists (44_queue.md R191). -/
def putState (e : Event) (s : State) : State :=
  { s with
    q := { slot := s.q.slot.set s.q.head e
           head := ringNext s s.q.head
           tail := if queueFull s then ringNext s s.q.tail else s.q.tail }
    m := { s.m with out := s.m.out ++ if queueFull s then [.drop .queueOverflow] else [] } }

/-- `put` ends in `putState` when the slot at Q.HEAD exists, and raises INDEX_RANGE when it does not. -/
theorem putEvent_eq (e : Event) (s : State) :
    putEvent e s = if s.q.head < s.q.slot.length then .ok (putState e s) else .error .indexRange := by
  unfold putEvent putState slotWrite dropOldest emit ringNext ringSize
  by_cases hf : queueFull s = true <;> by_cases hl : s.q.head < s.q.slot.length <;> simp [hf, hl]

theorem putEvent_ok_iff (e : Event) (s t : State) :
    putEvent e s = .ok t ↔ s.q.head < s.q.slot.length ∧ t = putState e s := by
  rw [putEvent_eq]
  split <;> simp_all [eq_comm]

@[simp] theorem putState_dec (e : Event) (s : State) : (putState e s).dec = s.dec := rfl
@[simp] theorem putState_hb (e : Event) (s : State) : (putState e s).hb = s.hb := rfl
@[simp] theorem putState_tx (e : Event) (s : State) : (putState e s).tx = s.tx := rfl
@[simp] theorem putState_inputEn (e : Event) (s : State) : (putState e s).inputEn = s.inputEn := rfl
@[simp] theorem putState_dsp (e : Event) (s : State) : (putState e s).dsp = s.dsp := rfl
@[simp] theorem putState_pt (e : Event) (s : State) : (putState e s).pt = s.pt := rfl
@[simp] theorem putState_timerCtl (e : Event) (s : State) : (putState e s).timerCtl = s.timerCtl := rfl
@[simp] theorem putState_par (e : Event) (s : State) : (putState e s).par = s.par := rfl
@[simp] theorem putState_sched (e : Event) (s : State) : (putState e s).sched = s.sched := rfl
@[simp] theorem putState_result (e : Event) (s : State) : (putState e s).result = s.result := rfl
@[simp] theorem putState_lag (e : Event) (s : State) : (putState e s).lag = s.lag := rfl

/-- `get` raises QUEUE_UNDERFLOW on an empty queue, INDEX_RANGE when the slot at Q.TAIL does not exist, and otherwise answers
that slot's event and moves Q.TAIL. -/
theorem getEvent_cases (s : State) :
    (queueEmpty s = true ∧ getEvent s = .error .queueUnderflow) ∨
      (queueEmpty s = false ∧ s.q.slot[s.q.tail]? = none ∧ getEvent s = .error .indexRange) ∨
      ∃ e, queueEmpty s = false ∧ s.q.slot[s.q.tail]? = some e ∧
        getEvent s = .ok (e, { s with q := { s.q with tail := ringNext s s.q.tail } }) := by
  unfold getEvent
  cases hq : queueEmpty s
  · rcases slotRead_cases s s.q.tail with ⟨e, he, hr⟩ | ⟨he, hr⟩
    · exact .inr (.inr ⟨e, rfl, he, by simp [hr]⟩)
    · exact .inr (.inl ⟨rfl, he, by simp [hr]⟩)
  · exact .inl ⟨rfl, by simp⟩

theorem getEvent_of_slot {s : State} {e : Event} (hq : queueEmpty s = false) (he : s.q.slot[s.q.tail]? = some e) :
    getEvent s = .ok (e, { s with q := { s.q with tail := ringNext s s.q.tail } }) := by
  simp [getEvent, hq, slotRead_ok he]

/-! ### The Input Decoder -/

theorem setBit_getLsbD (v : Command) (i j : Nat) (b : Bool) (hj : j < 12) :
    (setBit v i b).getLsbD j = if j = i then b else v.getLsbD j := by
  unfold setBit
  cases b <;> by_cases h : j = i <;> simp [hj, h, BitVec.getLsbD_or, BitVec.getLsbD_and] <;> omega

/-- Which positions a bit event writes (41_assembler.md R121). -/
theorem bufAfter_getLsbD (d : Decoder) (b : Bool) (j : Nat) (hj : j < 12) (ht : d.tick.toNat ≤ 12) :
    (bufAfter d b).getLsbD j = if 1 ≤ d.tick.toNat ∧ j = 12 - d.tick.toNat then b else d.buf.getLsbD j := by
  unfold bufAfter
  by_cases h1 : 1 ≤ d.tick.toNat
  · rw [if_pos ⟨h1, ht⟩, setBit_getLsbD _ _ _ _ hj]
    simp [h1]
  · simp [h1]

theorem assembleBit_count {d : Decoder} (b : Bool) (h : d.tick.toNat < 12) :
    assembleBit b d = ({ d with buf := bufAfter d b, tick := d.tick + 1 }, false) := by
  simp only [assembleBit]
  rw [if_neg (by omega)]

theorem assembleBit_materialise {d : Decoder} (b : Bool) (h : 12 ≤ d.tick.toNat) :
    assembleBit b d = ({ d with buf := bufAfter d b, tick := 0, cmd := bufAfter d b }, true) := by
  simp only [assembleBit]
  rw [if_pos (by omega)]

/-- The handler of an enabled edge: the count is reset, and the Symbol's event is put, or noise recorded. -/
theorem handleEdge_eq (dir : Dir) (s : State) :
    handleEdge dir s =
      match eventOf (classifyEdge s.par dir s.pt.count) with
      | none => .ok (emit (.drop .noise) (timerReset s))
      | some e => putEvent e (timerReset s) := rfl

/-! ### The HexCommandBuffer -/

/-- The bytes a parse reads. -/
def received (s : State) : List Byte := (List.range s.hb.len).map s.hb.data.read

/-- Parse and clear: INDEX_RANGE when HB.LEN exceeds the array, otherwise the parse of the received bytes and the clear, with
a failure recorded. -/
theorem parseAndClear_eq (s : State) :
    parseAndClear s =
      if s.hb.len ≤ s.par.hbCap then
        match parseHex s.par.hexTerm (received s) with
        | .ok v => .ok (some v, hbClear s)
        | .error f => .ok (none, hbClear (emit (.drop f.dropCode) s))
      else .error .indexRange := by
  unfold parseAndClear hbFirst received
  by_cases hc : s.hb.len ≤ s.par.hbCap
  · cases hp : parseHex s.par.hexTerm ((List.range s.hb.len).map s.hb.data.read) <;> simp [hc, hp]
  · simp [hc]

/-- The UART handler: the four things a byte can do. -/
theorem handleByte_cases (b : Byte) (s : State) :
    ((s.hb.armed = false ∨ s.par.hbThreshold ≤ s.hb.len) ∧ handleByte b s = .ok (emit (.drop .uartDisarmed) s)) ∨
      (s.hb.armed = true ∧ (s.par.hbCap ≤ s.hb.len ∧ s.hb.len < s.par.hbThreshold) ∧
        handleByte b s = .error .indexRange) ∨
      (s.hb.armed = true ∧ s.hb.len < s.par.hbCap ∧ s.hb.len + 1 < s.par.hbThreshold ∧
        handleByte b s =
          .ok { s with hb := { s.hb with data := s.hb.data.write s.hb.len b, len := s.hb.len + 1 } }) ∨
      (s.hb.armed = true ∧ s.hb.len < s.par.hbCap ∧ s.hb.len + 1 = s.par.hbThreshold ∧
        handleByte b s =
          putEvent .uartCommandReady
            { s with hb := { data := s.hb.data.write s.hb.len b, len := s.hb.len + 1, armed := false } }) := by
  unfold handleByte
  cases ha : s.hb.armed
  · exact .inl ⟨.inl rfl, by simp⟩
  by_cases hl : s.hb.len < s.par.hbThreshold
  · refine .inr ?_
    by_cases hc : s.hb.len < s.par.hbCap
    · by_cases ht : s.hb.len + 1 = s.par.hbThreshold
      · exact .inr (.inr ⟨rfl, hc, ht, by simp [hbWrite_eq, hc, hl, ht]⟩)
      · exact .inr (.inl ⟨rfl, hc, by omega, by simp [hbWrite_eq, hc, hl, ht, ha]⟩)
    · exact .inl ⟨rfl, ⟨by omega, hl⟩, by simp [hbWrite_eq, hc, hl]⟩
  · exact .inl ⟨.inr (by omega), by simp [hl]⟩

/-! ### The Dispatcher -/

/-- The state in which a DISPATCH of a parsed command leaves the block (45_dispatcher.md R225). -/
def transmitting (c : Word16) (s : State) : State :=
  { startFrame c (emit (.txReport c) { hbClear s with inputEn := false }) with dsp := .inTx }

/-- The handler of UartCommandReady: a raised fault, a re-arm after a failed parse, or a transmission. -/
theorem onUartReady_eq (s : State) :
    onUartReady s =
      if s.hb.len ≤ s.par.hbCap then
        match parseHex s.par.hexTerm (received s) with
        | .ok c => .ok (transmitting c s)
        | .error f =>
          .ok { hbClear (emit (.drop f.dropCode) s) with hb := { data := [], len := 0, armed := true } }
      else .error .indexRange := by
  unfold onUartReady transmitting
  rw [parseAndClear_eq]
  by_cases hc : s.hb.len ≤ s.par.hbCap
  · simp only [hc, if_true]
    cases parseHex s.par.hexTerm (received s) <;> rfl
  · simp [hc]

/-- One loop iteration, by the event it dequeues. -/
theorem dispatchOne_of_slot {s : State} {e : Event} (hq : queueEmpty s = false) (he : s.q.slot[s.q.tail]? = some e) :
    dispatchOne s =
      match e with
      | .frameStart => .ok (onFrameStart { s with q := { s.q with tail := ringNext s s.q.tail } })
      | .bitLow => .ok (onBit false { s with q := { s.q with tail := ringNext s s.q.tail } })
      | .bitHigh => .ok (onBit true { s with q := { s.q with tail := ringNext s s.q.tail } })
      | .uartCommandReady => onUartReady { s with q := { s.q with tail := ringNext s s.q.tail } } := by
  unfold dispatchOne
  rw [getEvent_of_slot hq he]
  cases e <;> rfl

/-- A bit event that does not complete a Command changes the decoder alone. -/
theorem onBit_count {s : State} (b : Bool) (h : s.dec.tick.toNat < 12) :
    onBit b s = { s with dec := { s.dec with buf := bufAfter s.dec b, tick := s.dec.tick + 1 } } := by
  simp [onBit, assembleBit_count b h]

/-- A bit event that completes a Command reports it and clears DEC.FIP. -/
theorem onBit_materialise {s : State} (b : Bool) (h : 12 ≤ s.dec.tick.toNat) :
    onBit b s =
      { s with
        dec := { tick := 0, buf := bufAfter s.dec b, cmd := bufAfter s.dec b, fip := false }
        m := { s.m with out := s.m.out ++ [.cmdReport (bufAfter s.dec b)] } } := by
  simp [onBit, assembleBit_materialise b h, emit]

/-! ### The urgent steps -/

/-- TX_STEP and TX_RETURN are never enabled together (42_encoder.md R146, 45_dispatcher.md R229). -/
theorem txReturnEnabled_of_txStepEnabled {s : State} (h : txStepEnabled s = true) : txReturnEnabled s = false := by
  simp only [txStepEnabled, txReturnEnabled, Bool.and_eq_true] at h ⊢
  simp [h.1]

/-- What TX_STEP does, by the half, the mode and the phase (42_encoder.md R146). -/
theorem txStep_cases (s : State) :
    (s.tx.half = .high ∧
        txStep s = { s with
          tx := { s.tx with pin := false, half := .low }
          m := { s.m with out := s.m.out ++ [.pin false s.m.time] } }) ∨
      (s.tx.half = .low ∧ s.tx.mode = .single ∧ txStep s = endRun s) ∨
      (s.tx.half = .low ∧ s.tx.mode = .frame ∧ s.tx.phase.toNat < 13 ∧ txStep s = startPhase (s.tx.phase.toNat + 1) s) ∨
      (s.tx.half = .low ∧ s.tx.mode = .frame ∧ 13 ≤ s.tx.phase.toNat ∧ txStep s = endRun (timerStop s)) := by
  unfold txStep
  cases hh : s.tx.half
  · cases hm : s.tx.mode
    · by_cases hp : s.tx.phase.toNat < 13
      · exact .inr (.inr (.inl ⟨rfl, rfl, hp, by simp [hp]⟩))
      · exact .inr (.inr (.inr ⟨rfl, rfl, by omega, by simp [hp]⟩))
    · exact .inr (.inl ⟨rfl, rfl, rfl⟩)
  · exact .inl ⟨rfl, rfl⟩

/-- The urgent step of a state is its enabled TX_STEP, or its enabled TX_RETURN. -/
theorem urgentStep_cases {s : State} (h : urgentEnabled s = true) :
    (txStepEnabled s = true ∧ urgentStep s = txStep s) ∨
      (txStepEnabled s = false ∧ txReturnEnabled s = true ∧ urgentStep s = txReturn s) := by
  unfold urgentStep
  cases ht : txStepEnabled s
  · simp only [urgentEnabled, ht, Bool.false_or] at h
    exact .inr ⟨rfl, h, by simp [h]⟩
  · exact .inl ⟨rfl, by simp⟩

/-! ### The step -/

/-- With a request next in the schedule a step is what the request's word does. -/
theorem step_request {w : ReqWord} {rest : List Move} {s : State} (hp : s.par.wellFormed = true)
    (hs : s.sched = .request w :: rest) : step s = runWord w { s with sched := rest } := by
  simp [step, hp, runMove, hs]

/-- With an agent's move next in the schedule a step is that agent's. -/
theorem step_agent {a : AgentStep} {rest : List Move} {s : State} (hp : s.par.wellFormed = true)
    (hs : s.sched = .agent a :: rest) : step s = runAgent a { s with sched := rest } := by
  simp [step, hp, runMove, hs]

/-- With nothing scheduled the block runs on its own. -/
theorem step_alone {s : State} (hp : s.par.wellFormed = true) (hs : s.sched = []) : step s = runAlone s := by
  simp [step, hp, runMove, hs]

/-- A step that answers a next state had legal parameters. -/
theorem step_next_par {s t : State} (h : step s = .next t) : s.par.wellFormed = true := by
  unfold step at h
  split at h
  · assumption
  · cases h

/-- The block on its own: an urgent step, a DISPATCH, or a period of the timer. -/
theorem runAlone_cases (s : State) :
    (urgentEnabled s = true ∧ runAlone s = .next (returning none (urgentStep s))) ∨
      (urgentEnabled s = false ∧ dispatchEnabled s = true ∧ runAlone s = execDispatch s) ∨
      (urgentEnabled s = false ∧ dispatchEnabled s = false ∧ runAlone s = .next (returning none (timerAdvance s))) := by
  unfold runAlone
  cases urgentEnabled s <;> cases dispatchEnabled s <;> simp

/-- Everything a step can end in: the state of an operation run with some rest of the schedule, a refused word, a spent move,
or an enabled urgent step of an agent. -/
theorem step_next_cases {s t : State} (h : step s = .next t) :
    s.par.wellFormed = true ∧ ∃ rest : List Move,
      (∃ i, exec i { s with sched := rest } = .next t) ∨
        t = refuse .illegalOp { s with sched := rest } ∨
        t = returning none { s with sched := rest } ∨
        (txStepEnabled { s with sched := rest } = true ∧ t = returning none (txStep { s with sched := rest })) ∨
        (txReturnEnabled { s with sched := rest } = true ∧ t = returning none (txReturn { s with sched := rest })) := by
  have hp := step_next_par h
  refine ⟨hp, ?_⟩
  cases hs : s.sched with
  | nil =>
    refine ⟨s.sched, ?_⟩
    rw [step_alone hp hs] at h
    rcases runAlone_cases s with ⟨hu, h'⟩ | ⟨_, _, h'⟩ | ⟨hu, _, h'⟩
    · rw [h'] at h; injection h with h; subst h
      rcases urgentStep_cases hu with ⟨a, b⟩ | ⟨_, a, b⟩ <;> rw [b]
      · exact .inr (.inr (.inr (.inl ⟨a, rfl⟩)))
      · exact .inr (.inr (.inr (.inr ⟨a, rfl⟩)))
    · exact .inl ⟨.dispatch, by rw [← h, h']; rfl⟩
    · refine .inl ⟨.timerTick, ?_⟩
      rw [← h, h']
      show execTimerTick s = _
      simp [execTimerTick, tickAllowed, hu]
  | cons m rest =>
    refine ⟨rest, ?_⟩
    cases m with
    | request w =>
      rw [step_request hp hs, runWord] at h
      split at h
      · exact .inl ⟨_, h⟩
      · injection h with h; exact .inr (.inl h.symm)
    | agent a =>
      rw [step_agent hp hs] at h
      cases a <;> simp only [runAgent] at h
      · split at h
        · exact .inl ⟨.dispatch, h⟩
        · injection h with h; exact .inr (.inr (.inl h.symm))
      · injection h with h; split at h
        · exact .inr (.inr (.inr (.inl ⟨by assumption, h.symm⟩)))
        · exact .inr (.inr (.inl h.symm))
      · injection h with h; split at h
        · exact .inr (.inr (.inr (.inr ⟨by assumption, h.symm⟩)))
        · exact .inr (.inr (.inl h.symm))

end Sys2Proof.Machine
end

