-- ==== Sys2Proof/Laws/Runs.lean ====
section
/-! SUPPORT. The laws of runs and of the terms of Sys2Proof/Safety.lean: runs of steps and of operations, the unread events,
the history's last pin level, and the timeline of a frame. -/

namespace Sys2Proof.Machine

/-! ### Runs -/

theorem runSteps_add (s : State) (m n : Nat) : runSteps s (m + n) = runSteps (runSteps s m) n := by
  induction n with
  | zero => rfl
  | succ n ih =>
    show stateAfter (runSteps s (m + n)) (step (runSteps s (m + n))) = _
    rw [ih]; rfl

theorem runSteps_one {s t : State} (h : step s = .next t) : runSteps s 1 = t := by
  show stateAfter s (step s) = t
  rw [h]; rfl

theorem runInstrs_cons (i : Instr) (is : List Instr) (s : State) :
    runInstrs (i :: is) s = runInstrs is (stateAfter s (exec i s)) := rfl

theorem runInstrs_append (is js : List Instr) (s : State) : runInstrs (is ++ js) s = runInstrs js (runInstrs is s) := by
  simp [runInstrs, List.foldl_append]

/-! ### The queue -/

/-- A sum of two indices, reduced once. -/
theorem mod_of_lt_double {x m : Nat} (h : x < 2 * m) : x % m = if x < m then x else x - m := by
  split
  · exact Nat.mod_eq_of_lt (by assumption)
  · rw [Nat.mod_eq_sub_mod (by omega), Nat.mod_eq_of_lt (by omega)]

theorem ringNext_le (s : State) (i : Nat) : ringNext s i ≤ s.par.queueN :=
  Nat.lt_succ_iff.mp (Nat.mod_lt _ (Nat.succ_pos _))

/-- Every unread index lies in the array, so the unread events are the slots read in turn. -/
theorem unread_eq_map {s : State} (h : QueueOk s) :
    unread s = (List.range (queueCount s)).map fun k => s.q.slot.getD (unreadIndex s k) .bitLow := by
  have key : ∀ l : List Nat,
      (l.filterMap fun k => s.q.slot[unreadIndex s k]?) = l.map fun k => s.q.slot.getD (unreadIndex s k) .bitLow := by
    intro l
    induction l with
    | nil => rfl
    | cons k l ih =>
      have hk : unreadIndex s k < s.q.slot.length := by rw [h.slots]; exact Nat.mod_lt _ (Nat.succ_pos _)
      rw [List.filterMap_cons, List.getElem?_eq_getElem hk, List.map_cons, List.getD_eq_getElem _ _ hk, ih]
  exact key _

/-! ### The history -/

theorem lastPin_append_one (out : List Obs) (o : Obs) :
    lastPin (out ++ [o]) =
      match o with
      | .pin l _ => l
      | .cmdReport _ => lastPin out
      | .txReport _ => lastPin out
      | .drop _ => lastPin out := by
  cases o <;> simp only [lastPin, List.foldl_append, List.foldl_cons, List.foldl_nil]

/-! ### The timeline of a frame -/

theorem phaseStart_succ (p : Params) (c : Word16) (k : Nat) :
    phaseStart p c (k + 1) = phaseStart p c k + (phaseTicks p k c).2 := by
  simp [phaseStart, List.range_succ]

theorem framePins_succ (p : Params) (c : Word16) (t k : Nat) :
    framePins p c t (k + 1) =
      framePins p c t k ++
        [.pin true (t + phaseStart p c k), .pin false (t + phaseStart p c k + (phaseTicks p k c).1)] := by
  simp [framePins, List.range_succ]

/-- A number of ticks below the timer's range is held as it is. -/
theorem threshold_toNat {p : Params} {n : Nat} (hp : p.wellFormed = true) (h : n < 2 ^ p.timerWidth) :
    (threshold n).toNat = n := by
  have hw : p.timerWidth ≤ 16 := by
    simp [Params.wellFormed, Params.widthOk] at hp
    exact hp.1.1.1
  have := Nat.pow_le_pow_right (show 0 < 2 by decide) hw
  unfold threshold
  rw [if_pos (by omega)]
  simp; omega

/-- The high half of a phase ends no later than the phase. -/
theorem phaseTicks_le (p : Params) (k : Nat) (c : Word16) : (phaseTicks p k c).1 ≤ (phaseTicks p k c).2 := by
  unfold phaseTicks
  (repeat' split) <;> simp

end Sys2Proof.Machine
end

