-- ==== Sys2Proof/Laws/Fair.lean ====
section
/-! SUPPORT. The laws of harness expansions and of fair runs: the urgent steps of a state run out, what a step does when one of
the four fair steps is taken, and that a block which comes to rest on its own is on a fair run. -/

namespace Sys2Proof.Machine

/-! ### Harness expansions -/

theorem runHarness_cons (h : HarnessStep) (hs : List HarnessStep) (s : State) :
    runHarness (h :: hs) s = runHarness hs (runHarnessStep h s) := rfl

theorem runHarness_append (hs js : List HarnessStep) (s : State) :
    runHarness (hs ++ js) s = runHarness js (runHarness hs s) := by
  simp [runHarness, List.foldl_append]

/-- The urgent steps still to come with no tick between: two for each phase left, one for the half in progress, and
TX_RETURN. -/
def urgentLeft (s : State) : Nat :=
  (if s.tx.active then
      (match s.tx.mode with | .frame => 2 * (13 - s.tx.phase.toNat) | .single => 0) +
        (match s.tx.half with | .high => 2 | .low => 1)
    else 0) + (if s.dsp = .inTx then 1 else 0)

theorem urgentLeft_le (s : State) : urgentLeft s ≤ 29 := by
  unfold urgentLeft
  cases s.tx.active <;> cases s.tx.mode <;> cases s.tx.half <;> cases s.dsp <;> simp <;> omega

/-- Every urgent step leaves fewer to come. -/
theorem urgentLeft_lt {s : State} (h : urgentEnabled s = true) :
    urgentLeft (returning none (urgentStep s)) < urgentLeft s := by
  rcases urgentStep_cases h with ⟨ht, hu⟩ | ⟨_, hr, hu⟩ <;> rw [hu]
  · have ha : s.tx.active = true := by
      simp only [txStepEnabled, Bool.and_eq_true] at ht; exact ht.1
    rcases txStep_cases s with ⟨hh, e⟩ | ⟨hh, hm, e⟩ | ⟨hh, hm, hp, e⟩ | ⟨hh, hm, hp, e⟩ <;> rw [e]
    · simp [urgentLeft, returning, ha, hh]
    · simp [urgentLeft, returning, endRun, ha, hh, hm]
    · have : (s.tx.phase.toNat + 1) % 16 = s.tx.phase.toNat + 1 := Nat.mod_eq_of_lt (by omega)
      simp [urgentLeft, returning, startPhase, beginHigh, drivePin, emit, timerReset, ha, hh, hm, this]
      omega
    · simp [urgentLeft, returning, endRun, timerStop, ha, hh, hm]
  · simp only [txReturnEnabled, Bool.and_eq_true, beq_iff_eq, Bool.not_eq_true'] at hr
    simp [urgentLeft, returning, txReturn, timerStart, timerReset, hr.1, hr.2]

theorem takeUrgent_settles (n : Nat) (s : State) (h : urgentLeft s ≤ n) : urgentEnabled (takeUrgent n s) = false := by
  induction n generalizing s with
  | zero =>
    cases hu : urgentEnabled s
    · exact hu
    · have := urgentLeft_lt hu; omega
  | succ n ih =>
    unfold takeUrgent
    cases hu : urgentEnabled s
    · simpa using hu
    · have := urgentLeft_lt hu
      simpa using ih _ (by omega)

/-- No urgent step is enabled before a copy of `tick`, whatever TX_LATENCY (30_encoding.md R87). -/
theorem urgentEnabled_settleUrgent (s : State) : urgentEnabled (settleUrgent s) = false :=
  takeUrgent_settles 29 s (urgentLeft_le s)

theorem settleUrgent_of_none {s : State} (h : urgentEnabled s = false) : settleUrgent s = s := by
  simp [settleUrgent, takeUrgent, h]

/-- With no urgent step enabled TIMER_TICK is a period of the timer. -/
theorem execTimerTick_of_allowed {s : State} (h : tickAllowed s = true) :
    execTimerTick s = .next (returning none (timerAdvance s)) := by
  simp [execTimerTick, h]

/-- A copy of `tick` lets the urgent steps go first and then is a period of the timer. -/
theorem runHarness_tick (s : State) :
    runHarness (tickTimes 1) s = returning none (timerAdvance (settleUrgent s)) := by
  show stateAfter (settleUrgent s) (execTimerTick (settleUrgent s)) = _
  rw [execTimerTick_of_allowed (by simp [tickAllowed, urgentEnabled_settleUrgent])]
  rfl

/-- Copies of `tick` at LOOP with the engine idle: the count and the time advance, and nothing else of the block moves. -/
theorem runHarness_tickTimes {s : State} (hd : s.dsp = .loop) (ha : s.tx.active = false) (n : Nat) :
    runHarness (tickTimes (n + 1)) s =
      { s with
        pt := { s.pt with count := if s.pt.run then (s.pt.count + (n + 1)) % 2 ^ s.par.timerWidth else s.pt.count }
        m := { s.m with time := s.m.time + (n + 1) }
        lag := { high := 0, low := 0, ret := 0 }
        result := none } := by
  have one : ∀ {t : State}, t.dsp = .loop → t.tx.active = false → runHarness (tickTimes 1) t =
      { t with
        pt := { t.pt with count := nextCount t }
        m := { t.m with time := t.m.time + 1 }
        lag := { high := 0, low := 0, ret := 0 }
        result := none } := by
    intro t hd ha
    have hu : urgentEnabled t = false := by simp [urgentEnabled, txStepEnabled, txReturnEnabled, hd, ha]
    rw [runHarness_tick, settleUrgent_of_none hu]
    simp [returning, timerAdvance, Lag.advance, txReturnEnabled, hd, ha]
  induction n with
  | zero => rw [one hd ha]; simp [nextCount]
  | succ n ih =>
    have split : tickTimes (n + 1 + 1) = tickTimes (n + 1) ++ tickTimes 1 := by
      simp [tickTimes, List.replicate_succ' (n := n + 1)]
    rw [split, runHarness_append, ih, one (by exact hd) (by exact ha)]
    cases hr : s.pt.run <;> simp [nextCount, hr, Nat.add_assoc]

/-! ### Fair steps -/

@[simp] theorem offer_nil (s : State) : offer [] s = s := by simp [offer]
@[simp] theorem offer_dec (ms : List Move) (s : State) : (offer ms s).dec = s.dec := rfl
@[simp] theorem offer_q (ms : List Move) (s : State) : (offer ms s).q = s.q := rfl
@[simp] theorem offer_hb (ms : List Move) (s : State) : (offer ms s).hb = s.hb := rfl
@[simp] theorem offer_tx (ms : List Move) (s : State) : (offer ms s).tx = s.tx := rfl
@[simp] theorem offer_inputEn (ms : List Move) (s : State) : (offer ms s).inputEn = s.inputEn := rfl
@[simp] theorem offer_dsp (ms : List Move) (s : State) : (offer ms s).dsp = s.dsp := rfl
@[simp] theorem offer_pt (ms : List Move) (s : State) : (offer ms s).pt = s.pt := rfl
@[simp] theorem offer_m (ms : List Move) (s : State) : (offer ms s).m = s.m := rfl
@[simp] theorem offer_timerCtl (ms : List Move) (s : State) : (offer ms s).timerCtl = s.timerCtl := rfl
@[simp] theorem offer_par (ms : List Move) (s : State) : (offer ms s).par = s.par := rfl
@[simp] theorem offer_sched (ms : List Move) (s : State) : (offer ms s).sched = s.sched ++ ms := rfl
@[simp] theorem offer_lag (ms : List Move) (s : State) : (offer ms s).lag = s.lag := rfl

/-- No enabling condition reads the schedule. -/
theorem FairStep.enabled_sched (k : FairStep) (s : State) (r : List Move) : k.enabled { s with sched := r } = k.enabled s := by
  cases k <;> rfl

/-- TX_STEP does not look at the schedule. -/
theorem txStep_sched (s : State) (r : List Move) : txStep { s with sched := r } = { txStep s with sched := r } := by
  rcases txStep_cases s with ⟨hh, e⟩ | ⟨hh, hm, e⟩ | ⟨hh, hm, hp, e⟩ | ⟨hh, hm, hp, e⟩ <;> rw [e]
  · simp [txStep, hh, drivePin, emit]
  · simp [txStep, hh, hm, endRun]
  · simp only [txStep, hh, hm]
    rw [if_pos (by exact hp)]; rfl
  · simp only [txStep, hh, hm]
    rw [if_neg (by show ¬ s.tx.phase.toNat < 13; omega)]; rfl

/-- What a step does when one of the four is taken: a period of the timer, TX_STEP, TX_RETURN or DISPATCH, each enabled, on
the state with its first move taken from the schedule, or, where a TIMER_TICK waits, put back. -/
theorem step_of_taken {s : State} {k : FairStep} (hp : s.par.wellFormed = true) (h : stepTaken s = some k) :
    k.enabled s = true ∧ ∃ rest : List Move,
      (rest = s.sched.tail ∨ rest = .request (encode .timerTick) :: s.sched.tail) ∧
      step s =
        match k with
        | .timerTick => .next (returning none (timerAdvance { s with sched := rest }))
        | .txStep => .next (returning none (txStep { s with sched := rest }))
        | .txReturn => .next (returning none (txReturn { s with sched := rest }))
        | .dispatch => execDispatch { s with sched := rest } := by
  have urgent : ∀ {k : FairStep}, urgentTaken s = some k →
      (k = .txStep ∧ txStepEnabled s = true) ∨ (k = .txReturn ∧ txStepEnabled s = false ∧ txReturnEnabled s = true) := by
    intro k hk
    unfold urgentTaken at hk
    cases h1 : txStepEnabled s
    · cases h2 : txReturnEnabled s
      · simp [h1, h2] at hk
      · simp only [h1, h2] at hk
        simp at hk
        exact .inr ⟨hk.symm, rfl, rfl⟩
    · simp only [h1] at hk
      simp at hk
      exact .inl ⟨hk.symm, rfl⟩
  cases hs : s.sched with
  | nil =>
    have e : s = { s with sched := [] } := by rw [← hs]
    rw [step_alone hp hs]
    simp only [stepTaken, hs, takenAlone] at h
    rcases runAlone_cases s with ⟨hu, h'⟩ | ⟨hu, hd, h'⟩ | ⟨hu, hd, h'⟩
    · rw [if_pos hu] at h
      rcases urgent h with ⟨rfl, ht⟩ | ⟨rfl, ht, hr⟩
      · exact ⟨ht, [], .inl rfl, by rw [h', ← e]; simp [urgentStep, ht]⟩
      · exact ⟨hr, [], .inl rfl, by rw [h', ← e]; simp [urgentStep, ht, hr]⟩
    · simp [hu, hd] at h
      subst h
      exact ⟨hd, [], .inl rfl, by rw [h', ← e]⟩
    · simp [hu, hd] at h
      subst h
      exact ⟨by simp [FairStep.enabled, tickAllowed, hu], [], .inl rfl, by rw [h', ← e]⟩
  | cons m rest =>
    cases m with
    | request w =>
      rw [step_request hp hs, runWord]
      simp only [stepTaken, hs] at h
      cases hd : decode w with
      | error => simp [hd] at h
      | ok i =>
        simp only [hd, takenByRequest] at h
        by_cases h1 : i = .timerTick
        · subst h1
          rw [if_pos rfl] at h
          show _ ∧ ∃ r, _ ∧ execTimerTick { s with sched := rest } = _
          cases ha : tickAllowed s
          · simp only [ha] at h
            have ha' : tickAllowed { s with sched := rest } = false := ha
            simp only [execTimerTick, ha']
            rcases urgent (by simpa using h) with ⟨rfl, ht⟩ | ⟨rfl, ht, hr⟩
            · refine ⟨ht, .request (encode .timerTick) :: rest, .inr rfl, ?_⟩
              have ht' : txStepEnabled { s with sched := rest } = true := ht
              simp [urgentStep, ht', txStep_sched]
            · refine ⟨hr, .request (encode .timerTick) :: rest, .inr rfl, ?_⟩
              have ht' : txStepEnabled { s with sched := rest } = false := ht
              have hr' : txReturnEnabled { s with sched := rest } = true := hr
              simp [urgentStep, ht', hr', txReturn, timerStart, timerReset, requestTimer, Lag.settle]
          · simp [ha] at h
            subst h
            exact ⟨ha, rest, .inl rfl, execTimerTick_of_allowed ha⟩
        · rw [if_neg h1] at h
          by_cases h2 : i = .dispatch
          · subst h2
            cases ha : dispatchEnabled s
            · simp [ha] at h
            · simp [ha] at h
              subst h
              exact ⟨ha, rest, .inl rfl, rfl⟩
          · simp [h2] at h
    | agent a =>
      rw [step_agent hp hs]
      simp only [stepTaken, hs] at h
      cases a <;> simp only [takenByAgent] at h <;> split at h <;> cases h <;> rename_i he
      · have he' : dispatchEnabled { s with sched := rest } = true := he
        exact ⟨he, rest, .inl rfl, by simp [runAgent, he']⟩
      · have he' : txStepEnabled { s with sched := rest } = true := he
        exact ⟨he, rest, .inl rfl, by simp [runAgent, he']⟩
      · have he' : txReturnEnabled { s with sched := rest } = true := he
        exact ⟨he, rest, .inl rfl, by simp [runAgent, he']⟩

/-! ### A run that comes to rest -/

/-- With the Dispatcher at LOOP, the engine idle and no event, no internal step is enabled (45_dispatcher.md R233). -/
theorem quiescent_enabled {s : State} (h : quiescent s) :
    urgentEnabled s = false ∧ txStepEnabled s = false ∧ txReturnEnabled s = false ∧ dispatchEnabled s = false ∧
      tickAllowed s = true := by
  obtain ⟨h1, h2, h3⟩ := h
  simp [urgentEnabled, tickAllowed, txStepEnabled, txReturnEnabled, dispatchEnabled, h1, h2, h3]

/-- Left alone, a quiescent block only lets time pass. -/
theorem step_quiescent {s : State} (hp : s.par.wellFormed = true) (hs : s.sched = []) (h : quiescent s) :
    step s = .next (returning none (timerAdvance s)) := by
  obtain ⟨h1, _, _, h4, _⟩ := quiescent_enabled h
  rw [step_alone hp hs]
  simp [runAlone, h1, h4]

/-- A quiescent block left alone stays so. -/
theorem runSteps_quiescent {s : State} (hp : s.par.wellFormed = true) (hs : s.sched = []) (h : quiescent s) (n : Nat) :
    (runSteps s n).par.wellFormed = true ∧ (runSteps s n).sched = [] ∧ quiescent (runSteps s n) := by
  induction n with
  | zero => exact ⟨hp, hs, h⟩
  | succ n ih =>
    obtain ⟨a, b, c⟩ := ih
    show _ ∧ _ ∧ quiescent (stateAfter _ (step (runSteps s n)))
    simp only [runSteps, step_quiescent a b c, stateAfter_next]
    exact ⟨a, b, c⟩

/-- A run of the block alone that comes to rest is weakly fair: from there on only TIMER_TICK is enabled, and it is taken at
every step (60_exceptions.md R276). -/
theorem fairRun_of_quiescent {s : State} (N : Nat) (hn : ∀ n, n < N → ∃ t, step (runSteps s n) = .next t)
    (hp : (runSteps s N).par.wellFormed = true) (hs : (runSteps s N).sched = []) (h : quiescent (runSteps s N)) :
    FairRun (runSteps s) fun _ => [] := by
  have rest : ∀ m, N ≤ m →
      (runSteps s m).par.wellFormed = true ∧ (runSteps s m).sched = [] ∧ quiescent (runSteps s m) := by
    intro m hm
    rw [show m = N + (m - N) by omega, runSteps_add]
    exact runSteps_quiescent hp hs h (m - N)
  constructor
  · intro n
    have ht : ∃ t, step (runSteps s n) = .next t := by
      by_cases hl : n < N
      · exact hn n hl
      · obtain ⟨a, b, c⟩ := rest n (by omega)
        exact ⟨_, step_quiescent a b c⟩
    obtain ⟨t, ht⟩ := ht
    rw [offer_nil, ht, runSteps, ht, stateAfter_next]
  · rintro k ⟨n, hk⟩ n'
    obtain ⟨m, h1, h2, h3⟩ : ∃ m, N ≤ m ∧ n ≤ m ∧ n' ≤ m := ⟨max (max N n) n', by omega, by omega, by omega⟩
    obtain ⟨_, hq, hc⟩ := rest m h1
    obtain ⟨e1, e2, e3, e4, _⟩ := quiescent_enabled hc
    have hk := hk m h2
    refine ⟨m, h3, ?_⟩
    cases k <;> simp only [FairStep.enabled, e2, e3, e4] at hk
    · simp [stepTaken, hq, takenAlone, e1, e4]
    all_goals cases hk

end Sys2Proof.Machine
end

