-- ==== Sys2Proof/Laws/Effects.lean ====
section
/-! SUPPORT. What an operation and a step can do to the engine, the controls and the timer, said once: `KeepsEngine` for all
that leave them, and one case for each of the rest. -/

namespace Sys2Proof.Machine

/-- `t` has the engine, the controls, the parameters, the time and the schedule of `s`, and its count and timer requests too,
but for the one reset of the timer by an enabled edge (40_classifier.md R105). -/
structure KeepsEngine (s t : State) : Prop where
  tx : t.tx = s.tx
  dsp : t.dsp = s.dsp
  inputEn : t.inputEn = s.inputEn
  par : t.par = s.par
  run : t.pt.run = s.pt.run
  time : t.m.time = s.m.time
  sched : t.sched = s.sched
  clock :
    (t.pt.count = s.pt.count ∧ t.lag = s.lag ∧ t.timerCtl = s.timerCtl) ∨
      (s.inputEn = true ∧ t.pt.count = 0 ∧ t.lag = Lag.settle s ∧ t.timerCtl = s.timerCtl ++ [.reset])

theorem KeepsEngine.refl (s : State) : KeepsEngine s s := ⟨rfl, rfl, rfl, rfl, rfl, rfl, rfl, .inl ⟨rfl, rfl, rfl⟩⟩

theorem KeepsEngine.of_returning {s t : State} (h : KeepsEngine s t) (r : Option Result) : KeepsEngine s (returning r t) :=
  { h with }

theorem KeepsEngine.of_refuse (s : State) (c : RefuseCode) : KeepsEngine s (refuse c s) := { KeepsEngine.refl s with }

theorem KeepsEngine.of_raiseFault (s : State) (c : FaultCode) : KeepsEngine s (raiseFault c s) :=
  { KeepsEngine.refl s with }

theorem KeepsEngine.of_put {s t u : State} {e : Event} (h : KeepsEngine s t) (hu : putEvent e t = .ok u) :
    KeepsEngine s u := by
  obtain ⟨_, rfl⟩ := (putEvent_ok_iff _ _ _).mp hu
  exact { h with }

theorem KeepsEngine.of_commit {s : State} {r : Except FaultCode State} (h : ∀ t, r = .ok t → KeepsEngine s t) :
    KeepsEngine s (commit s (noResult r)) := by
  rcases commit_noResult_cases s r with ⟨t, a, b⟩ | ⟨c, _, b⟩ <;> rw [b]
  · exact (h t a).of_returning none
  · exact .of_raiseFault s c

/-- An enabled edge resets the count and leaves the rest. -/
theorem KeepsEngine.of_timerReset {s : State} (h : s.inputEn = true) : KeepsEngine s (timerReset s) :=
  ⟨rfl, rfl, rfl, rfl, rfl, rfl, rfl, .inr ⟨h, rfl, rfl, rfl⟩⟩

/-- No urgent step is taken exactly where none is enabled. -/
theorem urgentTaken_eq_none {s : State} : urgentTaken s = none ↔ urgentEnabled s = false := by
  unfold urgentTaken urgentEnabled
  cases txStepEnabled s <;> cases txReturnEnabled s <;> simp

/-- The block on its own always takes one of the four. -/
theorem takenAlone_ne_none (s : State) : takenAlone s ≠ none := by
  intro h
  unfold takenAlone at h
  split at h
  · rename_i hu
    rw [urgentTaken_eq_none.mp h] at hu
    cases hu
  · split at h <;> cases h

/-- An agent's move that is not enabled is spent (log entry 5). -/
theorem runAgent_untaken {a : AgentStep} {s : State} (h : takenByAgent a s = none) :
    runAgent a s = .next (returning none s) := by
  cases a <;> simp only [takenByAgent] at h <;> split at h <;> try cases h
  · rename_i he; simp [runAgent, Bool.eq_false_iff.mpr he]
  · rename_i he; simp [runAgent, Bool.eq_false_iff.mpr he]
  · rename_i he; simp [runAgent, Bool.eq_false_iff.mpr he]

/-- An operation that neither starts the engine nor is a DISPATCH or a TIMER_TICK leaves the engine, the controls and the
time. -/
theorem exec_keepsEngine {i : Instr} {s t : State} (h : exec i s = .next t) (hi : startsEngine i = false)
    (hd : i ≠ .dispatch) (ht : i ≠ .timerTick) : KeepsEngine s t := by
  cases i <;> (simp only [exec] at h; injection h with h; subst h)
  case reserved => exact .of_refuse _ _
  case edge dir =>
    split
    · refine .of_commit fun t a => ?_
      rw [handleEdge_eq] at a
      split at a
      · cases a
        have h : KeepsEngine s (timerReset s) := .of_timerReset (by assumption)
        exact { h with clock := h.clock }
      · exact .of_put (.of_timerReset (by assumption)) a
    · exact (KeepsEngine.refl s).of_returning none
  case put e => exact .of_commit fun t a => .of_put (.refl s) a
  case get =>
    split
    · rename_i h
      rcases getEvent_cases s with ⟨_, h'⟩ | ⟨_, _, h'⟩ | ⟨e, _, _, h'⟩ <;> rw [h'] at h <;> cases h
      exact { KeepsEngine.refl s with }
    · exact .of_raiseFault _ _
  case uartByte b =>
    refine .of_commit fun t a => ?_
    rcases handleByte_cases b s with ⟨_, h'⟩ | ⟨_, _, h'⟩ | ⟨_, _, _, h'⟩ | ⟨_, _, _, h'⟩ <;> rw [h'] at a
    · cases a; exact { KeepsEngine.refl s with }
    · cases a
    · cases a; exact { KeepsEngine.refl s with }
    · have h : KeepsEngine s { s with hb := { data := s.hb.data.write s.hb.len b, len := s.hb.len + 1, armed := false } } :=
        { KeepsEngine.refl s with }
      exact .of_put h a
  case parseHex =>
    rw [parseAndClear_eq]
    by_cases hl : s.hb.len ≤ s.par.hbCap
    · rw [if_pos hl]
      cases parseHex s.par.hexTerm (received s) <;> exact { KeepsEngine.refl s with }
    · rw [if_neg hl]; exact .of_raiseFault _ _
  case transmit => cases hi
  case outTick => cases hi
  case dispatch => exact absurd rfl hd
  case timerTick => exact absurd rfl ht
  all_goals exact { KeepsEngine.refl s with }

/-- An operation that starts the engine is refused while it runs, and otherwise does. -/
theorem exec_startsEngine {i : Instr} {s t : State} (h : exec i s = .next t) (hi : startsEngine i = true) :
    (s.tx.active = true ∧ t = refuse .txBusy s) ∨
      (s.tx.active = false ∧ ((∃ c, t = returning none (startFrame c s)) ∨
        ∃ d1 d2, t = returning none (startSingle d1 d2 s))) := by
  cases i <;> cases hi <;> (simp only [exec] at h; injection h with h; subst h)
  all_goals cases ha : s.tx.active
  · exact .inr ⟨rfl, .inl ⟨_, rfl⟩⟩
  · exact .inl ⟨rfl, rfl⟩
  · exact .inr ⟨rfl, .inr ⟨_, _, rfl⟩⟩
  · exact .inl ⟨rfl, rfl⟩

/-- A DISPATCH that is not enabled leaves the engine and the queue; one that is handles one event, or raises
(45_dispatcher.md R222). -/
theorem execDispatch_cases {s t : State} (h : execDispatch s = .next t) :
    (dispatchEnabled s = false ∧ KeepsEngine s t ∧ t.q = s.q ∧ t.dec = s.dec) ∨
      (dispatchEnabled s = true ∧ ((∃ c, t = raiseFault c s) ∨ ∃ u, dispatchOne s = .ok u ∧ t = returning none u)) := by
  unfold execDispatch at h
  injection h with h
  subst h
  by_cases hb : s.dsp = .inTx ∨ s.tx.active = true
  · rw [if_pos hb]
    refine .inl ⟨?_, .of_refuse s _, rfl, rfl⟩
    rcases hb with hb | hb <;> simp [dispatchEnabled, hb]
  · rw [if_neg hb]
    have hd : s.dsp = .loop := by
      cases hd : s.dsp
      · rfl
      · exact absurd (.inl hd) hb
    have ha : s.tx.active = false := by simpa using fun h => hb (.inr h)
    cases hq : queueEmpty s
    · rw [if_neg (by simp)]
      refine .inr ⟨by simp [dispatchEnabled, hd, ha, hq], ?_⟩
      rcases commit_noResult_cases s (dispatchOne s) with ⟨u, a, b⟩ | ⟨c, _, b⟩ <;> rw [b]
      · exact .inr ⟨u, a, rfl⟩
      · exact .inl ⟨c, rfl⟩
    · rw [if_pos rfl]
      exact .inl ⟨by simp [dispatchEnabled, hq], (KeepsEngine.refl s).of_returning none, rfl, rfl⟩

/-- The event a DISPATCH handles: a header or a bit leaves the engine; a UartCommandReady re-arms the UART path, or starts a
transmission (45_dispatcher.md R223 to R228). -/
theorem dispatchOne_cases {s t : State} (h : dispatchOne s = .ok t) :
    t.q = { s.q with tail := ringNext s s.q.tail } ∧
      (KeepsEngine s t ∨ ∃ c, t = transmitting c { s with q := { s.q with tail := ringNext s s.q.tail } }) := by
  rcases getEvent_cases s with ⟨_, h'⟩ | ⟨_, _, h'⟩ | ⟨e, hq, he, _⟩
  · simp [dispatchOne, h'] at h
  · simp [dispatchOne, h'] at h
  rw [dispatchOne_of_slot hq he] at h
  have bit : ∀ (b : Bool) (u : State), (onBit b u).q = u.q ∧ KeepsEngine u (onBit b u) := by
    intro b u
    by_cases hb : u.dec.tick.toNat < 12
    · rw [onBit_count b hb]; exact ⟨rfl, { KeepsEngine.refl u with }⟩
    · rw [onBit_materialise b (by omega)]; exact ⟨rfl, { KeepsEngine.refl u with }⟩
  have tail : ∀ {u : State}, KeepsEngine { s with q := { s.q with tail := ringNext s s.q.tail } } u → KeepsEngine s u :=
    fun h => { h with }
  cases e
  · cases h; exact ⟨(bit _ _).1, .inl (tail (bit _ _).2)⟩
  · cases h; exact ⟨(bit _ _).1, .inl (tail (bit _ _).2)⟩
  · cases h; exact ⟨rfl, .inl { KeepsEngine.refl s with }⟩
  · simp only [] at h
    rw [onUartReady_eq] at h
    split at h
    · split at h <;> cases h
      · exact ⟨rfl, .inr ⟨_, rfl⟩⟩
      · exact ⟨rfl, .inl { KeepsEngine.refl s with }⟩
    · cases h

/-- A step that is none of the four fair steps: a request of TRANSMIT or OUTTICK, or a step that leaves the engine. -/
theorem step_untaken {s t : State} (h : step s = .next t) (hn : stepTaken s = none) :
    ∃ rest : List Move, rest = s.sched.tail ∧
      ((∃ w i, s.sched = .request w :: rest ∧ decode w = .ok i ∧ startsEngine i = true ∧
          exec i { s with sched := rest } = .next t) ∨
        KeepsEngine { s with sched := rest } t) := by
  have hp := step_next_par h
  cases hs : s.sched with
  | nil =>
    simp only [stepTaken, hs] at hn
    exact absurd hn (takenAlone_ne_none s)
  | cons m rest =>
    refine ⟨rest, rfl, ?_⟩
    cases m with
    | request w =>
      rw [step_request hp hs, runWord] at h
      simp only [stepTaken, hs] at hn
      cases hd : decode w with
      | error => rw [hd] at h; injection h with h; subst h; exact .inr (.of_refuse _ _)
      | ok i =>
        simp only [hd] at h hn
        cases hi : startsEngine i
        · refine .inr ?_
          by_cases h1 : i = .timerTick
          · subst h1
            exfalso
            simp only [takenByRequest] at hn
            cases ht : tickAllowed s
            · simp only [ht, if_true] at hn
              have hu := urgentTaken_eq_none.mp (by simpa using hn)
              simp [tickAllowed, hu] at ht
            · simp [ht] at hn
          · by_cases h2 : i = .dispatch
            · subst h2
              rcases execDispatch_cases h with ⟨_, hk, _⟩ | ⟨he, _⟩
              · exact hk
              · have he' : dispatchEnabled s = true := he
                simp [takenByRequest, he'] at hn
            · exact exec_keepsEngine h hi h2 h1
        · exact .inl ⟨w, i, by rfl, hd, hi, h⟩
    | agent a =>
      rw [step_agent hp hs] at h
      simp only [stepTaken, hs] at hn
      rw [runAgent_untaken (by exact hn)] at h
      injection h with h
      subst h
      exact .inr ((KeepsEngine.refl _).of_returning none)

/-! ### The queue -/

/-- `t` has the queue that a `put` of some event makes of the queue of `s`, and the history that it leaves. -/
def PutsOne (s t : State) : Prop := ∃ e, t.q = (putState e s).q ∧ t.m.out = (putState e s).m.out

/-- What a `put` makes of the queue depends on the queue and the parameters alone, and what it adds to the history too. -/
theorem putState_congr {s u : State} (e : Event) (hq : u.q = s.q) (ho : u.m.out = s.m.out) (hp : u.par = s.par) :
    (putState e u).q = (putState e s).q ∧ (putState e u).m.out = (putState e s).m.out := by
  simp [putState, ringNext, ringSize, queueFull, hq, ho, hp]

theorem PutsOne.of_put {e : Event} {s u t : State} (h : putEvent e u = .ok t) (hq : u.q = s.q) (ho : u.m.out = s.m.out)
    (hp : u.par = s.par) : PutsOne s t := by
  obtain ⟨_, rfl⟩ := (putEvent_ok_iff _ _ _).mp h
  exact ⟨e, putState_congr e hq ho hp⟩

/-- An operation other than GET, QRESET and DISPATCH leaves the queue, or puts one event. -/
theorem exec_queue {i : Instr} {s t : State} (h : exec i s = .next t) (hi : takesEvents i = false) (hd : i ≠ .dispatch) :
    t.q = s.q ∨ PutsOne s t := by
  have put : ∀ {r : Except FaultCode State},
      (∀ u, r = .ok u → u.q = s.q ∨ PutsOne s u) →
        (commit s (noResult r)).q = s.q ∨ PutsOne s (commit s (noResult r)) := by
    intro r hr
    rcases commit_noResult_cases s r with ⟨u, a, b⟩ | ⟨c, _, b⟩ <;> rw [b]
    · exact hr u a
    · exact .inl rfl
  cases i <;> (simp only [exec] at h; injection h with h; subst h)
  case edge dir =>
    split
    · refine put fun u a => ?_
      rw [handleEdge_eq] at a
      split at a
      · cases a; exact .inl rfl
      · exact .inr (.of_put a rfl rfl rfl)
    · exact .inl rfl
  case put e => exact put fun u a => .inr (.of_put a rfl rfl rfl)
  case get => cases hi
  case qreset => cases hi
  case uartByte b =>
    refine put fun u a => ?_
    rcases handleByte_cases b s with ⟨_, h'⟩ | ⟨_, _, h'⟩ | ⟨_, _, _, h'⟩ | ⟨_, _, _, h'⟩ <;> rw [h'] at a
    · cases a; exact .inl rfl
    · cases a
    · cases a; exact .inl rfl
    · exact .inr (.of_put a rfl rfl rfl)
  case parseHex =>
    rw [parseAndClear_eq]
    by_cases hl : s.hb.len ≤ s.par.hbCap
    · rw [if_pos hl]
      cases parseHex s.par.hexTerm (received s) <;> exact .inl rfl
    · rw [if_neg hl]; exact .inl rfl
  case transmit => split <;> exact .inl (by simp)
  case outTick => split <;> exact .inl (by simp)
  case dispatch => exact absurd rfl hd
  case timerTick =>
    refine .inl ?_
    split
    · rfl
    · simp only [returning, urgentStep]
      split
      · rcases txStep_cases s with ⟨_, e⟩ | ⟨_, _, e⟩ | ⟨_, _, _, e⟩ | ⟨_, _, _, e⟩ <;> simp [e]
      · split <;> simp
  all_goals exact .inl rfl

/-- A step that is not one of the four leaves the queue, or puts one event, unless it is a request of GET or QRESET. -/
theorem step_untaken_queue {s t : State} (h : step s = .next t) (hn : stepTaken s = none) :
    t.q = s.q ∨ PutsOne s t ∨
      ∃ w rest i, s.sched = .request w :: rest ∧ decode w = .ok i ∧ takesEvents i = true := by
  have hp := step_next_par h
  cases hs : s.sched with
  | nil =>
    simp only [stepTaken, hs] at hn
    exact absurd hn (takenAlone_ne_none s)
  | cons m rest =>
    cases m with
    | request w =>
      rw [step_request hp hs, runWord] at h
      simp only [stepTaken, hs] at hn
      cases hd : decode w with
      | error => rw [hd] at h; injection h with h; subst h; exact .inl rfl
      | ok i =>
        simp only [hd] at h hn
        cases hi : takesEvents i
        · by_cases h2 : i = .dispatch
          · subst h2
            rcases execDispatch_cases h with ⟨_, _, hq, _⟩ | ⟨he, _⟩
            · exact .inl hq
            · have he' : dispatchEnabled s = true := he
              simp [takenByRequest, he'] at hn
          · rcases exec_queue h hi h2 with hq | ⟨e, hq, ho⟩
            · exact .inl hq
            · have hc := putState_congr (s := s) (u := { s with sched := rest }) e rfl rfl rfl
              exact .inr (.inl ⟨e, hq.trans hc.1, ho.trans hc.2⟩)
        · exact .inr (.inr ⟨w, rest, i, rfl, hd, hi⟩)
    | agent a =>
      rw [step_agent hp hs] at h
      simp only [stepTaken, hs] at hn
      rw [runAgent_untaken (by exact hn)] at h
      injection h with h
      subst h
      exact .inl rfl

end Sys2Proof.Machine
end

