-- ==== Sys2Proof/Laws/Encoding.lean ====
section
/-! SUPPORT. The fields of a request word as numbers, and the fields of a word built from its fields (30_encoding.md R80). -/

namespace Sys2Proof

theorem reqWord_toNat (op : BitVec 4) (a b : Word16) :
    (reqWord op a b).toNat = op.toNat * 2 ^ 32 + a.toNat * 2 ^ 16 + b.toNat := by
  have ha := a.isLt
  have hb := b.isLt
  have h : (reqWord op a b).toNat = (op ++ (a ++ b)).toNat := rfl
  rw [h, BitVec.toNat_append, BitVec.toNat_append, ← Nat.shiftLeft_add_eq_or_of_lt hb,
    ← Nat.shiftLeft_add_eq_or_of_lt (by rw [Nat.shiftLeft_eq]; omega)]
  simp only [Nat.shiftLeft_eq]
  omega

theorem reqOp_toNat (w : ReqWord) : (reqOp w).toNat = w.toNat / 2 ^ 32 := by
  have := w.isLt
  simp only [reqOp, BitVec.extractLsb'_toNat, Nat.shiftRight_eq_div_pow]
  omega

theorem reqA_toNat (w : ReqWord) : (reqA w).toNat = w.toNat / 2 ^ 16 % 2 ^ 16 := by
  simp [reqA, BitVec.extractLsb'_toNat, Nat.shiftRight_eq_div_pow]

theorem reqB_toNat (w : ReqWord) : (reqB w).toNat = w.toNat % 2 ^ 16 := by
  simp [reqB, BitVec.extractLsb'_toNat]

theorem reqOp_reqWord (op : BitVec 4) (a b : Word16) : reqOp (reqWord op a b) = op := by
  have ha := a.isLt
  have hb := b.isLt
  apply BitVec.eq_of_toNat_eq
  rw [reqOp_toNat, reqWord_toNat]
  omega

theorem reqA_reqWord (op : BitVec 4) (a b : Word16) : reqA (reqWord op a b) = a := by
  have ha := a.isLt
  have hb := b.isLt
  apply BitVec.eq_of_toNat_eq
  rw [reqA_toNat, reqWord_toNat]
  omega

theorem reqB_reqWord (op : BitVec 4) (a b : Word16) : reqB (reqWord op a b) = b := by
  have hb := b.isLt
  apply BitVec.eq_of_toNat_eq
  rw [reqB_toNat, reqWord_toNat]
  omega

/-- A word is built from its own fields. -/
theorem reqWord_fields (w : ReqWord) : reqWord (reqOp w) (reqA w) (reqB w) = w := by
  have hw := w.isLt
  apply BitVec.eq_of_toNat_eq
  rw [reqWord_toNat, reqOp_toNat, reqA_toNat, reqB_toNat]
  omega

/-- The decoder on a word built from its fields. -/
theorem decode_reqWord (op : BitVec 4) (a b : Word16) : decode (reqWord op a b) = decodeFields op a b := by
  simp only [decode, reqOp_reqWord, reqA_reqWord, reqB_reqWord]

/-- An accepted row accepts because its operand bits are clear, and answers its own operation. -/
theorem decodeIf_ok {op : BitVec 4} {clear : Bool} {i j : Instr} (h : decodeIf op clear i = .ok j) :
    clear = true ∧ j = i := by
  unfold decodeIf at h
  split at h
  · cases h; exact ⟨by assumption, rfl⟩
  · cases h

theorem decodeIf_error {op : BitVec 4} {clear : Bool} {i : Instr} {e : DecodeError} (h : decodeIf op clear i = .error e) :
    clear = false := by
  unfold decodeIf at h
  split at h
  · cases h
  · simp_all

/-- The 32 operand bits of the reserved row, split into A and B and put together again. -/
theorem operands_split (x : BitVec 32) : (x.extractLsb' 16 16 ++ x.extractLsb' 0 16 : BitVec 32) = x := by
  apply BitVec.eq_of_toNat_eq
  rw [BitVec.toNat_append, ← Nat.shiftLeft_add_eq_or_of_lt (BitVec.isLt _)]
  have := x.isLt
  simp only [BitVec.extractLsb'_toNat, Nat.shiftLeft_eq, Nat.shiftRight_eq_div_pow]
  omega

/-- The tag of an Event determines it and is determined by it (30_encoding.md R72). -/
@[simp] theorem Event.ofCode_code (e : Event) : Event.ofCode e.code = e := by cases e <;> rfl

@[simp] theorem Event.code_ofCode (c : BitVec 2) : (Event.ofCode c).code = c := by revert c; decide

/-- A field whose higher bits are 0 is its low bits, extended by zeros. -/
theorem zeroExtend_low {b : Word16} {k : Nat} (h : b >>> k = 0) :
    (b.extractLsb' 0 k).zeroExtend 16 = b := by
  have h2 : b.toNat / 2 ^ k = 0 := by
    have := congrArg BitVec.toNat h
    simpa [Nat.shiftRight_eq_div_pow] using this
  have h3 : b.toNat < 2 ^ k := by
    rcases Nat.div_eq_zero_iff.mp h2 with h | h
    · exact absurd h (by positivity)
    · exact h
  apply BitVec.eq_of_toNat_eq
  have := b.isLt
  simp only [BitVec.zeroExtend_eq_setWidth, BitVec.toNat_setWidth, BitVec.extractLsb'_toNat, Nat.shiftRight_zero]
  rw [Nat.mod_eq_of_lt h3]
  omega

/-- A field with only bit 0 free is 0 or 1. -/
theorem one_bit {a : Word16} (h : a >>> 1 = 0) : a = 0 ∨ a = 1 := by
  have h2 : a.toNat / 2 = 0 := by
    have := congrArg BitVec.toNat h
    simpa [Nat.shiftRight_eq_div_pow] using this
  rcases (show a.toNat = 0 ∨ a.toNat = 1 by omega) with h | h
  · exact .inl (BitVec.eq_of_toNat_eq (by simpa using h))
  · exact .inr (BitVec.eq_of_toNat_eq (by simpa using h))

/-! ### Rows of the opcode table -/

theorem reqWord_inj {o p : BitVec 4} {a b x y : Word16} : reqWord o a b = reqWord p x y ↔ o = p ∧ a = x ∧ b = y := by
  constructor
  · intro h
    exact ⟨by simpa [reqOp_reqWord] using congrArg reqOp h, by simpa [reqA_reqWord] using congrArg reqA h,
      by simpa [reqB_reqWord] using congrArg reqB h⟩
  · rintro ⟨rfl, rfl, rfl⟩; rfl

theorem and_reqWord (o p : BitVec 4) (a b x y : Word16) :
    reqWord o a b &&& reqWord p x y = reqWord (o &&& p) (a &&& x) (b &&& y) := by
  show (o ++ (a ++ b) : BitVec (4 + (16 + 16))) &&& (p ++ (x ++ y)) = (o &&& p) ++ ((a &&& x) ++ (b &&& y))
  rw [BitVec.and_append, BitVec.and_append]

/-- A row covers a word exactly when it does so field by field. -/
theorem covers_fields (m : String) (p q w : ReqWord) :
    (OpRow.mk m p q).covers w = true ↔
      reqOp w &&& reqOp q = reqOp p ∧ reqA w &&& reqA q = reqA p ∧ reqB w &&& reqB q = reqB p := by
  rw [OpRow.covers, beq_iff_eq]
  show w &&& q = p ↔ _
  conv_lhs => rw [← reqWord_fields w, ← reqWord_fields q, ← reqWord_fields p, and_reqWord, reqWord_inj]

/-- A mask of the bits from k up is clear exactly when the shift by k is 0. -/
theorem and_high (a : Word16) (k : Nat) (m : Word16) (hm : ∀ i, i < 16 → m.getLsbD i = decide (k ≤ i)) :
    a &&& m = 0 ↔ a >>> k = 0 := by
  constructor
  · intro h
    apply BitVec.eq_of_getLsbD_eq
    intro i _
    have := congrArg (fun v : Word16 => v.getLsbD (k + i)) h
    simp only [BitVec.getLsbD_and] at this
    simp only [BitVec.getLsbD_ushiftRight]
    by_cases hk : k + i < 16
    · rw [hm _ hk] at this; simpa using this
    · simp; exact BitVec.getLsbD_of_ge _ _ (by omega)
  · intro h
    apply BitVec.eq_of_getLsbD_eq
    intro i hi
    rw [BitVec.getLsbD_and, hm i hi]
    by_cases hk : k ≤ i
    · have := congrArg (fun v : Word16 => v.getLsbD (i - k)) h
      simp only [BitVec.getLsbD_ushiftRight] at this
      rw [show k + (i - k) = i by omega] at this
      simpa [hk] using this
    · simp [hk]

end Sys2Proof
end

