-- ==== Sys2Proof/Laws/PerInstr.lean ====
section
/-! SUPPORT. Statements made once for every operation. Family `Row`: the encoder's word for an operation is a word of the
row of the opcode table that bears the operation's mnemonic (30_encoding.md R81). -/

namespace Sys2Proof.Laws

def Row.Statement (i : Instr) : Prop := ∃ r ∈ opcodeTable, r.mnemonic = i.mnemonic ∧ r.covers (encode i) = true

/-- The witness of a row: its number in the table, and its three fields under the mask. -/
theorem Row.of_fields {op : BitVec 4} {a b : Word16} {i : Instr} (n : Nat) (hn : n < opcodeTable.length)
    (he : encode i = reqWord op a b) (hm : opcodeTable[n].mnemonic = i.mnemonic)
    (ho : op &&& reqOp opcodeTable[n].mask = reqOp opcodeTable[n].pattern)
    (ha : a &&& reqA opcodeTable[n].mask = reqA opcodeTable[n].pattern)
    (hb : b &&& reqB opcodeTable[n].mask = reqB opcodeTable[n].pattern) : Row.Statement i :=
  ⟨opcodeTable[n], List.getElem_mem _, hm,
    (covers_fields opcodeTable[n].mnemonic opcodeTable[n].pattern opcodeTable[n].mask (encode i)).mpr
      (by rw [he, reqOp_reqWord, reqA_reqWord, reqB_reqWord]; exact ⟨ho, ha, hb⟩)⟩

/-- A field of a row that takes every value. -/
theorem and_none (x : Word16) {m p : Word16} (hm : m = 0) (hp : p = 0) : x &&& m = p := by
  subst hm; subst hp; simp

theorem Row.reserved (operands : BitVec 32) : Row.Statement (.reserved operands) :=
  Row.of_fields 0 (by decide) rfl rfl (by decide) (and_none _ (by decide) (by decide)) (and_none _ (by decide) (by decide))

theorem Row.classify (dir : Dir) (elapsed : Word16) : Row.Statement (.classify dir elapsed) :=
  Row.of_fields 1 (by decide) rfl rfl (by decide) (by cases dir <;> decide) (and_none _ (by decide) (by decide))

theorem Row.edge (dir : Dir) : Row.Statement (.edge dir) :=
  Row.of_fields 2 (by decide) rfl rfl (by decide) (by cases dir <;> decide) (by decide)

theorem Row.beginFrame : Row.Statement .beginFrame :=
  Row.of_fields 3 (by decide) rfl rfl (by decide) (by decide) (by decide)

theorem Row.applyBit (bit : Bool) : Row.Statement (.applyBit bit) :=
  Row.of_fields 4 (by decide) rfl rfl (by decide) (by decide) (by cases bit <;> decide)

theorem Row.put (event : Event) : Row.Statement (.put event) :=
  Row.of_fields 5 (by decide) rfl rfl (by decide) (by decide) (by cases event <;> decide)

theorem Row.get : Row.Statement .get :=
  Row.of_fields 6 (by decide) rfl rfl (by decide) (by decide) (by decide)

theorem Row.empty : Row.Statement .empty :=
  Row.of_fields 7 (by decide) rfl rfl (by decide) (by decide) (by decide)

theorem Row.full : Row.Statement .full :=
  Row.of_fields 8 (by decide) rfl rfl (by decide) (by decide) (by decide)

theorem Row.qreset : Row.Statement .qreset :=
  Row.of_fields 9 (by decide) rfl rfl (by decide) (by decide) (by decide)

theorem Row.uartByte (byte : Byte) : Row.Statement (.uartByte byte) := by
  refine Row.of_fields 10 (by decide) rfl rfl (by decide) (by decide) ?_
  have hm : reqB opcodeTable[10].mask = 0xFF00#16 := by decide
  have hp : reqB opcodeTable[10].pattern = 0 := by decide
  rw [hm, hp, and_high _ 8 _ (by decide)]
  apply BitVec.eq_of_toNat_eq
  have := byte.isLt
  simp [Nat.shiftRight_eq_div_pow]
  omega

theorem Row.parseHex : Row.Statement .parseHex :=
  Row.of_fields 11 (by decide) rfl rfl (by decide) (by decide) (by decide)

theorem Row.transmit (command : Word16) : Row.Statement (.transmit command) :=
  Row.of_fields 12 (by decide) rfl rfl (by decide) (by decide) (and_none _ (by decide) (by decide))

theorem Row.outTick (d1 d2 : Word16) : Row.Statement (.outTick d1 d2) :=
  Row.of_fields 13 (by decide) rfl rfl (by decide) (and_none _ (by decide) (by decide)) (and_none _ (by decide) (by decide))

theorem Row.dispatch : Row.Statement .dispatch :=
  Row.of_fields 14 (by decide) rfl rfl (by decide) (by decide) (by decide)

theorem Row.timerTick : Row.Statement .timerTick :=
  Row.of_fields 15 (by decide) rfl rfl (by decide) (by decide) (by decide)

end Sys2Proof.Laws
end

