-- ==== Sys2Proof/Machine/Text.lean ====
section
/-! DEFINITION. The text syntax of 30_encoding.md R86 and of the pseudo-operations of R87: one operation a line, a comment
from `;` on, numbers decimal or hexadecimal with `0x`. -/

namespace Sys2Proof.Machine

/-- One token of a line: a word or number, a quoted character, a quoted string. -/
inductive Token where
  | word (cs : List Char)
  | char (c : Char)
  | str (cs : List Char)
deriving DecidableEq, Repr

/-- The word token collected so far, if any. -/
def wordToken (cur : List Char) : List Token := if cur = [] then [] else [.word cur]

/-- Split a line into tokens: `cur` is the word being read, `quoted` whether a string is. Blanks and commas separate words;
between quotes `\n` is LF and `\r` is CR, as in 95_test_vectors.md (log entry 18). -/
def tokens (line : List Char) (cur : List Char) (quoted : Bool) : List Token :=
  match line with
  | [] => if quoted then [.word ['"']] else wordToken cur
  | '\\' :: 'n' :: rest => tokens rest (cur ++ (if quoted then ['\n'] else ['\\', 'n'])) quoted
  | '\\' :: 'r' :: rest => tokens rest (cur ++ (if quoted then ['\r'] else ['\\', 'r'])) quoted
  | c :: rest =>
    if quoted then
      if c = '"' then .str cur :: tokens rest [] false else tokens rest (cur ++ [c]) true
    else if c = ';' then wordToken cur
    else if c = '"' then wordToken cur ++ tokens rest [] true
    else if c = '\'' then
      match rest with
      | '\\' :: 'n' :: '\'' :: more => wordToken cur ++ .char '\n' :: tokens more [] false
      | '\\' :: 'r' :: '\'' :: more => wordToken cur ++ .char '\r' :: tokens more [] false
      | d :: '\'' :: more => wordToken cur ++ .char d :: tokens more [] false
      | _ => [.word ['\'']]
    else if c = ' ' ∨ c = '\t' ∨ c = ',' then wordToken cur ++ tokens rest [] false
    else tokens rest (cur ++ [c]) false

/-- The byte of a character in `byte '<char>'` and `send`: its ASCII code (30_encoding.md R77, 92_eei_decisions.md D16; log entry
23). The spec gives other characters no code: that one of code 128 to 255 stands for the byte of its code, and one above for
none, is a DESIGN CHOICE (log entry 29). -/
def charByte (c : Char) : Option Byte := if c.toNat < 256 then some (BitVec.ofNat 8 c.toNat) else none

/-- The value of a digit in a base up to 16, a letter in either case (log entry 18). -/
def digitIn (base : Nat) (c : Char) : Option Nat :=
  match (charByte c).bind hexValue with
  | some d => if d < base then some d else none
  | none => none

/-- The numeral of the digits, most significant first, after the value `v`. -/
def numeral (base : Nat) (cs : List Char) (v : Nat) : Option Nat :=
  match cs with
  | [] => some v
  | c :: rest =>
    match digitIn base c with
    | some d => numeral base rest (v * base + d)
    | none => none

/-- A number: decimal, or hexadecimal with `0x`; at least one digit. -/
def numberOf (cs : List Char) : Option Nat :=
  match cs with
  | [] => none
  | '0' :: 'x' :: d :: rest => numeral 16 (d :: rest) 0
  | c :: rest => numeral 10 (c :: rest) 0

/-- A number below `2^w`, as a bit vector. -/
def fieldOf (w : Nat) (cs : List Char) : Option (BitVec w) :=
  match numberOf cs with
  | some n => if n < 2 ^ w then some (BitVec.ofNat w n) else none
  | none => none

/-- `R` is RISING and `F` is FALLING. -/
def dirOf (cs : List Char) : Option Dir :=
  if cs = ['R'] then some .rising else if cs = ['F'] then some .falling else none

/-- `0` or `1`. -/
def bitOf (cs : List Char) : Option Bool :=
  if cs = ['0'] then some false else if cs = ['1'] then some true else none

/-- An Event by its name. -/
def eventNamed (cs : List Char) : Option Event :=
  if cs = "BitLow".toList then some .bitLow
  else if cs = "BitHigh".toList then some .bitHigh
  else if cs = "FrameStart".toList then some .frameStart
  else if cs = "UartCommandReady".toList then some .uartCommandReady
  else none

/-- The operations with no operand (30_encoding.md R86). -/
def plainOp (cs : List Char) : Option Instr :=
  if cs = "begin".toList then some .beginFrame
  else if cs = "get".toList then some .get
  else if cs = "empty".toList then some .empty
  else if cs = "full".toList then some .full
  else if cs = "qreset".toList then some .qreset
  else if cs = "parse".toList then some .parseHex
  else if cs = "dispatch".toList then some .dispatch
  else if cs = "tick".toList then some .timerTick
  else none

/-- The operations with one word operand, and `tick <n>` and `rxframe <c>` (30_encoding.md R86, R87). -/
def unaryOp (p : Params) (cs arg : List Char) : Option (List HarnessStep) :=
  if cs = "edge".toList then (dirOf arg).map fun d => [.request (.edge d)]
  else if cs = "apply".toList then (bitOf arg).map fun b => [.request (.applyBit b)]
  else if cs = "put".toList then (eventNamed arg).map fun e => [.request (.put e)]
  else if cs = "byte".toList then (fieldOf 8 arg).map fun b => [.request (.uartByte b)]
  else if cs = "transmit".toList then (fieldOf 16 arg).map fun c => [.request (.transmit c)]
  else if cs = "tick".toList then (numberOf arg).map tickTimes
  else if cs = "rxframe".toList then (fieldOf 12 arg).map (rxFrame p)
  else none

/-- The operations with two operands (30_encoding.md R86). -/
def binaryOp (cs a b : List Char) : Option Instr :=
  if cs = "classify".toList then
    match dirOf a, fieldOf 16 b with
    | some d, some e => some (.classify d e)
    | _, _ => none
  else if cs = "outtick".toList then
    match fieldOf 16 a, fieldOf 16 b with
    | some d1, some d2 => some (.outTick d1 d2)
    | _, _ => none
  else none

/-- The bytes of a string, for `send`, one for each character (30_encoding.md R87; log entry 29). -/
def bytesOf (cs : List Char) : Option (List Byte) :=
  match cs with
  | [] => some []
  | c :: rest =>
    match charByte c, bytesOf rest with
    | some b, some bs => some (b :: bs)
    | _, _ => none

/-- A line that names no operand: an operation, `drain` or `run_tx` (30_encoding.md R86, R87). -/
def plainLine (cs : List Char) : Option HarnessLine :=
  if cs = "drain".toList then some .drain
  else if cs = "run_tx".toList then some .runTx
  else (plainOp cs).map fun i => .steps [.request i]

/-- One line of text as what a harness runs, `none` where it is no line of the syntax. A blank line or a line of comment
stands for no step. -/
def assembleLine (p : Params) (line : List Char) : Option HarnessLine :=
  match tokens line [] false with
  | [] => some (.steps [])
  | [.word op] => plainLine op
  | [.word op, .word a] => (unaryOp p op a).map .steps
  | [.word op, .char c] => if op = "byte".toList then (charByte c).map fun b => .steps [.request (.uartByte b)] else none
  | [.word op, .str cs] => if op = "send".toList then (bytesOf cs).map fun bs => .steps (sendBytes bs) else none
  | [.word op, .word a, .word b] => (binaryOp op a b).map fun i => .steps [.request i]
  | _ => none

end Sys2Proof.Machine
end

