-- ==== Sys2Proof/Tests/Slice0.lean ====
section
/-! SUPPORT. Tests. Expected values come from 95_test_vectors.md, whose row each test names, or from the rule it names. The
theorems named witness_<Statement> show a state and operands that meet a statement's hypotheses. -/

namespace Sys2Proof.Tests

open Sys2Proof.Machine

/-! ### Small states -/

/-- The state after an operation on `s`. -/
def after (i : Instr) (s : State) : State := stateAfter s (exec i s)

/-- Reset with a queue. -/
def withQueue (slot : List Event) (head tail : Nat) : State := { State.reset with q := { slot, head, tail } }

/-- The full queue of V-EDGE E9. -/
def fullQueue : State := withQueue (List.replicate 5 .bitLow) 4 0

/-- Reset with one unread event. -/
def holding (e : Event) : State := withQueue [e, .bitLow, .bitLow, .bitLow, .bitLow] 1 0

/-- Bytes stored from index 0 on. -/
def fill (bytes : List Byte) : Memory := bytes.zipIdx.foldl (fun m b => m.write b.2 b.1) []

/-- Reset with a buffer of received bytes. -/
def received (bytes : List Byte) (armed : Bool) : State :=
  { State.reset with hb := { data := fill bytes, len := bytes.length, armed } }

/-- Reset with a count. -/
def counting (n : Nat) : State := { State.reset with pt := { count := n, run := true } }

/-- Reset with a decoder's tick and buffer. -/
def assembling (tick : BitVec 4) (buf : Command) : State := { State.reset with dec := { tick, buf, cmd := 0, fip := true } }

/-- Reset with a schedule. -/
def scheduled (ms : List Move) : State := { State.reset with sched := ms }

/-- An engine in the middle of a frame for 0x1A2 that the Dispatcher sends, in phase `k`. -/
def inFrame (k : BitVec 4) (half : Half) (count : Nat) : State :=
  { State.reset with
    tx := { active := true, mode := .frame, cmd := 0x1A2, phase := k, half := half
            d1 := threshold (phaseTicks Params.default k.toNat 0x1A2).1
            d2 := threshold (phaseTicks Params.default k.toNat 0x1A2).2, pin := half == .high }
    inputEn := false
    dsp := .inTx
    pt := { count := count, run := true }
    m.out := [.pin (half == .high) 0] }

/-- The bytes "0x01A2". -/
def command01A2 : List Byte := [0x30, 0x78, 0x30, 0x31, 0x41, 0x32]

/-! ### Well-formedness refuses what breaks a constraint of 00_scope.md R8 or an operand's bound -/

theorem test_default_wellFormed : Params.default.wellFormed = true := by decide

theorem test_queue_of_no_slot_refused :
    ({ Params.default with queueN := 0 }).queueOk = false ∧ ({ Params.default with queueN := 0 }).wellFormed = false := by
  decide

theorem test_threshold_above_capacity_refused :
    ({ Params.default with hbThreshold := 11 }).thresholdOk = false ∧
      ({ Params.default with hbThreshold := 11 }).wellFormed = false := by decide

theorem test_ticks_beyond_the_timer_refused :
    ({ Params.default with txTrlLow := 65536 }).ticksOk = false ∧
      ({ Params.default with txTrlLow := 65536 }).wellFormed = false := by decide

theorem test_wide_timer_refused :
    ({ Params.default with timerWidth := 17 }).widthOk = false ∧
      ({ Params.default with timerWidth := 17 }).wellFormed = false := by decide

theorem test_elapsed_beyond_the_timer_refused :
    (Instr.classify .rising 1024).wellFormed { Params.default with timerWidth := 10 } = false ∧
      (Instr.classify .rising 1023).wellFormed { Params.default with timerWidth := 10 } = true := by decide

/-! ### Decoding: words written out from 30_encoding.md R80 and R81 (V-OPREQ) -/

theorem test_decode_reserved :
    decode 0b0000_0001001000110100_0101011001111000#36 = .ok (.reserved 0x12345678) ∧
      decode 0x000000000 = .ok (.reserved 0) := by decide

theorem test_decode_classify :
    decode 0b0001_0000000000000001_0000000100101100#36 = .ok (.classify .rising 300) ∧
      decode 0x1000000C8 = .ok (.classify .falling 200) := by decide

theorem test_decode_edge :
    decode 0b0010_0000000000000000_0000000000000000#36 = .ok (.edge .falling) ∧
      decode 0x200010000 = .ok (.edge .rising) := by decide

theorem test_decode_beginFrame : decode 0b0011_0000000000000000_0000000000000000#36 = .ok .beginFrame := by decide

theorem test_decode_applyBit :
    decode 0b0100_0000000000000000_0000000000000001#36 = .ok (.applyBit true) ∧
      decode 0x400000000 = .ok (.applyBit false) := by decide

theorem test_decode_put :
    decode 0b0101_0000000000000000_0000000000000010#36 = .ok (.put .frameStart) ∧
      decode 0x500000003 = .ok (.put .uartCommandReady) ∧ decode 0x500000001 = .ok (.put .bitHigh) ∧
      decode 0x500000000 = .ok (.put .bitLow) := by decide

theorem test_decode_get : decode 0b0110_0000000000000000_0000000000000000#36 = .ok .get := by decide

theorem test_decode_empty : decode 0b0111_0000000000000000_0000000000000000#36 = .ok .empty := by decide

theorem test_decode_full : decode 0b1000_0000000000000000_0000000000000000#36 = .ok .full := by decide

theorem test_decode_qreset : decode 0b1001_0000000000000000_0000000000000000#36 = .ok .qreset := by decide

theorem test_decode_uartByte :
    decode 0b1010_0000000000000000_0000000001111000#36 = .ok (.uartByte 0x78) ∧
      decode 0xA000000FF = .ok (.uartByte 0xFF) := by decide

theorem test_decode_parseHex : decode 0b1011_0000000000000000_0000000000000000#36 = .ok .parseHex := by decide

theorem test_decode_transmit :
    decode 0b1100_0000000000000000_0000000110100010#36 = .ok (.transmit 0x1A2) ∧
      decode 0xC0000F1A2 = .ok (.transmit 0xF1A2) := by decide

theorem test_decode_outTick : decode 0b1101_0000000100101100_0000000110010000#36 = .ok (.outTick 300 400) := by decide

theorem test_decode_dispatch : decode 0b1110_0000000000000000_0000000000000000#36 = .ok .dispatch := by decide

theorem test_decode_timerTick : decode 0b1111_0000000000000000_0000000000000000#36 = .ok .timerTick := by decide

/-- The refused words of V-OPREQ, but for the two of OP 0x0. -/
theorem test_decode_refuses :
    ([0x100020064, 0x200000001, 0x300000001, 0x400000002, 0x500000004, 0x600010000, 0xA00000100, 0xC000101A2,
        0xF00000001] : List ReqWord).all (fun w => match decode w with | .ok _ => false | .error _ => true) = true := by
  decide

theorem test_table_word :
    decodeTableWord 40 0x10001012C = some (.classify .rising 300) ∧ decodeTableWord 40 0x1000000000 = none ∧
      decodeTableWord 40 0xF00000001 = none := by decide

/-- A table word is the very next thing a step runs. -/
theorem test_fetch_word :
    step (State.reset.withFetchWord 40 0xC000001A2) = exec (.transmit 0x1A2) State.reset := rfl

/-- No two rows of the opcode table have a word in common: where their masks overlap, their patterns differ. -/
theorem test_rows_disjoint :
    opcodeTable.Pairwise fun r r' => r.pattern &&& r'.mask ≠ r'.pattern &&& r.mask := by decide

/-! ### One step of each operation -/

/-- V-EXC X1. -/
theorem test_reserved :
    after (.reserved 0) State.reset = { State.reset with m.refused.illegalOp := true } := by decide

/-- V-CLS, the boundaries of the rising column. -/
theorem test_classify_rising :
    ([0, 200, 250, 251, 300, 349, 350, 65535] : List Word16).map
        (fun e => (after (.classify .rising e) State.reset).result) =
      [.invalid, .invalid, .invalid, .header, .header, .header, .invalid, .invalid].map
        (fun x => some (Result.symbol x)) := by decide

/-- V-CLS, the boundaries of the falling column. -/
theorem test_classify_falling :
    ([0, 50, 51, 149, 150, 151, 249, 250, 300, 65535] : List Word16).map
        (fun e => (after (.classify .falling e) State.reset).result) =
      [.invalid, .invalid, .bitZero, .bitZero, .invalid, .bitOne, .bitOne, .invalid, .invalid, .invalid].map
        (fun x => some (Result.symbol x)) := by decide

/-- V-EDGE E9. -/
theorem test_edge_overflow :
    (after (.edge .rising) { fullQueue with pt := { count := 300, run := true } }).q =
        { slot := [.bitLow, .bitLow, .bitLow, .bitLow, .frameStart], head := 0, tail := 1 } ∧
      (after (.edge .rising) { fullQueue with pt := { count := 300, run := true } }).m.out =
        [.drop .queueOverflow] := by decide

/-- V-EDGE E2 and E6. -/
theorem test_edge_noise_and_disabled :
    after (.edge .falling) (counting 300) = { counting 0 with m.out := [.drop .noise], timerCtl := [.reset] } ∧
      after (.edge .rising) { counting 300 with inputEn := false } = { counting 300 with inputEn := false } := by decide

/-- V-ASM A1. -/
theorem test_beginFrame :
    (after .beginFrame { State.reset with dec := { tick := 7, buf := 0xA00, cmd := 0x123, fip := false } }).dec =
      { tick := 0, buf := 0, cmd := 0x123, fip := false } := by decide

/-- V-ASM A2, A3 and A4. -/
theorem test_applyBit_counts :
    (after (.applyBit true) (assembling 0 0)).dec = { tick := 1, buf := 0, cmd := 0, fip := true } ∧
      (after (.applyBit true) (assembling 1 0)).dec = { tick := 2, buf := 0x800, cmd := 0, fip := true } ∧
      (after (.applyBit false) (assembling 6 0xFFF)).dec = { tick := 7, buf := 0xFBF, cmd := 0, fip := true } := by
  decide

/-- V-ASM A5 and A6. -/
theorem test_applyBit_materialises :
    after (.applyBit false) (assembling 12 0x1A2) =
        { State.reset with dec := { tick := 0, buf := 0x1A2, cmd := 0x1A2, fip := true }, result := some (.bool true) } ∧
      (after (.applyBit true) (assembling 12 0x1A2)).dec = { tick := 0, buf := 0x1A3, cmd := 0x1A3, fip := true } := by
  decide

/-- V-Q Q6. -/
theorem test_put_overwrites :
    (after (.put .frameStart) fullQueue).q =
        { slot := [.bitLow, .bitLow, .bitLow, .bitLow, .frameStart], head := 0, tail := 1 } ∧
      (after (.put .frameStart) fullQueue).m.out = [.drop .queueOverflow] := by decide

/-- 44_queue.md R201: six puts into four slots. -/
theorem test_put_six :
    let t := runInstrs (([.bitLow, .bitHigh, .frameStart, .uartCommandReady, .bitLow, .bitHigh] : List Event).map .put)
      State.reset
    unread t = [.frameStart, .uartCommandReady, .bitLow, .bitHigh] ∧ t.q.head = 1 ∧ t.q.tail = 2 := by decide

/-- V-Q Q10: the index wraps and the slot keeps its value. -/
theorem test_get_wraps :
    after .get (withQueue [.bitLow, .bitLow, .bitLow, .bitLow, .frameStart] 0 4) =
      { withQueue [.bitLow, .bitLow, .bitLow, .bitLow, .frameStart] 0 0 with result := some (.event .frameStart) } := by
  decide

/-- V-Q Q9. -/
theorem test_get_underflow :
    after .get (withQueue (List.replicate 5 .bitLow) 2 2) =
      { withQueue (List.replicate 5 .bitLow) 2 2 with m.fault.queueUnderflow := true } := by decide

/-- V-Q Q1. -/
theorem test_empty : after .empty State.reset = { State.reset with result := some (.bool true) } := by decide

/-- V-Q Q2, Q5 and Q7. -/
theorem test_full :
    (after .full State.reset).result = some (.bool false) ∧ (after .full fullQueue).result = some (.bool true) ∧
      (after .full (withQueue (List.replicate 5 .bitLow) 0 1)).result = some (.bool true) := by decide

/-- V-Q Q8. -/
theorem test_qreset :
    after .qreset (withQueue (List.replicate 5 .bitLow) 3 1) = withQueue (List.replicate 5 .bitLow) 3 3 := by decide

/-- V-UART U1 and U5. -/
theorem test_uartByte_stores :
    (after (.uartByte 0x30) State.reset).hb = { data := [(0, 0x30)], len := 1, armed := true } ∧
      (after (.uartByte 0) State.reset).hb = { data := [], len := 1, armed := true } := by decide

/-- V-UART U4. -/
theorem test_uartByte_threshold :
    let t := after (.uartByte 0x32)
      { fullQueue with hb := { data := fill [0x30, 0x78, 0x30, 0x31, 0x41], len := 5, armed := true } }
    t.hb = { data := fill command01A2, len := 6, armed := false } ∧
      unread t = [.bitLow, .bitLow, .bitLow, .uartCommandReady] ∧ t.m.out = [.drop .queueOverflow] := by decide

/-- 10_state.md R32, 43_hexparse.md R182: a byte that finds HB.LEN at the threshold is not stored, though the path is armed. -/
theorem test_uartByte_full :
    after (.uartByte 0x37) (received command01A2 true) =
      { received command01A2 true with m.out := [.drop .uartDisarmed] } := by decide

/-- V-HEX H1 and H4. -/
theorem test_parseHex :
    after .parseHex (received command01A2 false) =
        { received [] false with result := some (.optU16 (some 0x01A2)) } ∧
      after .parseHex (received [0x30, 0x78, 0x31] true) =
        { received [] true with result := some (.optU16 (some 1)) } := by decide

/-- V-HEX, the table of buffers: `\n0x1A2`, `FFFFFF`, `abcdef`, `xxxxx1`, `000000`, then `0x1A2\n`, `0X1A2`, `12345x`, `""`. -/
theorem test_parseHex_buffers :
    ([[0x0A, 0x30, 0x78, 0x31, 0x41, 0x32], [0x46, 0x46, 0x46, 0x46, 0x46, 0x46],
        [0x61, 0x62, 0x63, 0x64, 0x65, 0x66], [0x78, 0x78, 0x78, 0x78, 0x78, 0x31],
        [0x30, 0x30, 0x30, 0x30, 0x30, 0x30]] : List (List Byte)).map (parseHex 0x78) =
        [.ok 0x01A2, .ok 0xFFFF, .ok 0xCDEF, .ok 0x0001, .ok 0x0000] ∧
      ([[0x30, 0x78, 0x31, 0x41, 0x32, 0x0A], [0x30, 0x58, 0x31, 0x41, 0x32],
          [0x31, 0x32, 0x33, 0x34, 0x35, 0x78], []] : List (List Byte)).map (parseHex 0x78) =
        [.error .badDigit, .error .badDigit, .error .noDigits, .error .empty] := by decide

/-- V-ENC-1, and the thresholds of V-ENC-3's data phases: the first data phase is bit 11 and the last is bit 0. -/
theorem test_phase_bit_order :
    phaseTicks Params.default 0 0xFFF = (300, 400) ∧ phaseTicks Params.default 13 0xFFF = (100, 200) ∧
      ([1, 12] : List Nat).map (fun k => phaseTicks Params.default k 0x800) = [(100, 300), (100, 200)] ∧
      ([4, 5, 7, 11] : List Nat).map (fun k => phaseTicks Params.default k 0x1A2) = List.replicate 4 (100, 300) ∧
      ([1, 2, 3, 6, 8, 9, 10, 12] : List Nat).map (fun k => phaseTicks Params.default k 0x1A2) =
        List.replicate 8 (100, 200) := by decide

/-- V-ENC-3, the first entry; the command keeps its upper bits (V-ENC-4). -/
theorem test_transmit :
    (after (.transmit 0xF1A2) State.reset).tx =
        { active := true, mode := .frame, cmd := 0xF1A2, phase := 0, half := .high, d1 := 300, d2 := 400, pin := true } ∧
      (after (.transmit 0xF1A2) State.reset).m.out = [.pin true 0] := by decide

/-- V-ENC-5 N1: the run in progress is untouched. -/
theorem test_transmit_busy :
    after (.transmit 0x1A2) (inFrame 3 .low 150) = { inFrame 3 .low 150 with m.refused.txBusy := true } := by decide

/-- V-ENC-2. -/
theorem test_outTick :
    after (.outTick 300 400) State.reset =
      { State.reset with
        tx := { active := true, mode := .single, cmd := 0, phase := 0, half := .high, d1 := 300, d2 := 400, pin := true }
        timerCtl := [.reset]
        m.out := [.pin true 0] } := by decide

/-- V-ENC-5 N3: with both thresholds 0 and the timer stopped, two steps of the block alone end the run and no tick passes. -/
theorem test_outTick_zero :
    let t := runSteps (after (.outTick 0 0) { State.reset with pt := { count := 0, run := false } }) 2
    t.tx.active = false ∧ t.m.out = [.pin true 0, .pin false 0] ∧ t.m.time = 0 := by decide

/-- V-DSP DS4. -/
theorem test_dispatch_transmits :
    let t := after .dispatch
      { holding .uartCommandReady with hb := { data := fill command01A2, len := 6, armed := false } }
    t.m.out = [.txReport 0x01A2, .pin true 0] ∧ t.hb = { data := [], len := 0, armed := false } ∧ t.dsp = .inTx ∧
      t.inputEn = false ∧ t.tx.cmd = 0x01A2 := by decide

/-- V-DSP DS2 and DS6. -/
theorem test_dispatch_reports_and_rearms :
    (after .dispatch { holding .bitLow with dec := { tick := 12, buf := 0x1A2, cmd := 0, fip := true } }).m.out =
        [.cmdReport 0x1A2] ∧
      after .dispatch { holding .uartCommandReady with hb := { data := [], len := 0, armed := false } } =
        { holding .uartCommandReady with q.tail := 1, m.out := [.drop .hexEmpty] } := by decide

/-- V-TMR T1, T2 and T3. -/
theorem test_timerTick :
    (after .timerTick { counting 5 with m.time := 9 }).pt = { count := 6, run := true } ∧
      (after .timerTick { counting 5 with m.time := 9 }).m.time = 10 ∧
      (after .timerTick (counting 65535)).pt = { count := 0, run := true } ∧
      (after .timerTick { State.reset with pt := { count := 200, run := false } }).pt = { count := 200, run := false } := by
  decide

/-- V-TMR T5: the tick waits for the TX_STEP, and then counts. -/
theorem test_timerTick_waits :
    let t := runSteps { inFrame 0 .high 300 with sched := [.request (encode .timerTick)] } 2
    t.pt.count = 301 ∧ t.tx.pin = false ∧ t.m.out = [.pin true 0, .pin false 0] ∧ t.sched = [] := by decide

/-- 60_exceptions.md R260, R261: a request is made on timer_ctl though the count is 0 and the timer runs already, and the end of a
frame asks the timer to stop. -/
theorem test_timerCtl :
    (after (.edge .falling) State.reset).timerCtl = [.reset] ∧
      (after (.transmit 0x1A2) State.reset).timerCtl = [.start, .reset, .reset] ∧
      (after .timerTick (inFrame 13 .low 200)).timerCtl = [.stop] := by decide

/-- 42_encoder.md R152 at a TX_LATENCY that reaches past the width of the timer: the low half of the header, due at 400, may
last to the count 65535 and no longer, though latency is left. -/
theorem test_latency_stops_at_the_wrap :
    let par := { Params.default with txLatency := 65200 }
    let t := after .timerTick { inFrame 0 .low 65535 with par, lag.low := 65135 }
    tickAllowed { inFrame 0 .low 65534 with par, lag.low := 65134 } = true ∧
      t.tx.phase = 1 ∧ t.tx.half = .high ∧ t.m.time = 0 := by decide

/-! ### Whole-word refusals, the internal steps, reset and the text syntax -/

/-- V-EXC X4: decoding comes before the busy check. -/
theorem test_decode_before_busy :
    step { inFrame 3 .low 150 with sched := [.request 0xC000101A2] } =
      .next { inFrame 3 .low 150 with m.refused.illegalOp := true } := rfl

/-- V-DSP DS11, its last step: TX_RETURN. -/
theorem test_txReturn :
    step { State.reset with inputEn := false, dsp := .inTx, pt := { count := 200, run := false }, hb.armed := false } =
      .next { State.reset with timerCtl := [.start, .reset] } := rfl

/-- V-RST S1: every field of 10_state.md R47. -/
theorem test_reset :
    State.reset.dec = { tick := 0, buf := 0, cmd := 0, fip := false } ∧ State.reset.q.head = 0 ∧
      State.reset.q.tail = 0 ∧ State.reset.hb = { data := [], len := 0, armed := true } ∧
      State.reset.tx =
        { active := false, mode := .frame, cmd := 0, phase := 0, half := .low, d1 := 0, d2 := 0, pin := false } ∧
      State.reset.inputEn = true ∧ State.reset.dsp = .loop ∧ State.reset.pt = { count := 0, run := true } ∧
      State.reset.m.out = [] ∧ State.reset.m.time = 0 := by decide

/-- Illegal parameters stop the model (log entry 15). -/
theorem test_bad_parameters :
    step { State.reset with par := { Params.default with queueN := 0 } } = .fault .badParameters := rfl

/-- 30_encoding.md R86: `edge R`, `byte 'x' ; n` and `outtick 300, 0x190`. -/
theorem test_text :
    assembleLine Params.default ['e', 'd', 'g', 'e', ' ', 'R'] = some (.steps [.request (.edge .rising)]) ∧
      assembleLine Params.default ['b', 'y', 't', 'e', ' ', '\'', 'x', '\'', ' ', ';', ' ', 'n'] =
        some (.steps [.request (.uartByte 0x78)]) ∧
      assembleLine Params.default
          ['o', 'u', 't', 't', 'i', 'c', 'k', ' ', '3', '0', '0', ',', ' ', '0', 'x', '1', '9', '0'] =
        some (.steps [.request (.outTick 300 400)]) := by decide

/-- Program P5, lines 1 to 6: `send "0x1A2\n"` is six bytes, the last one LF; and a line that is no line of the syntax. -/
theorem test_text_send :
    assembleLine Params.default ['s', 'e', 'n', 'd', ' ', '"', '0', 'x', '1', 'A', '2', '\\', 'n', '"'] =
        some (.steps (sendBytes [0x30, 0x78, 0x31, 0x41, 0x32, 0x0A])) ∧
      assembleLine Params.default ['e', 'd', 'g', 'e', ' ', 'X'] = none := by decide

/-- 30_encoding.md R87: `tick 2`, `drain` and `run_tx`. -/
theorem test_text_pseudo :
    assembleLine Params.default ['t', 'i', 'c', 'k', ' ', '2'] =
        some (.steps [.urgent, .request .timerTick, .urgent, .request .timerTick]) ∧
      assembleLine Params.default ['d', 'r', 'a', 'i', 'n'] = some .drain ∧
      assembleLine Params.default ['r', 'u', 'n', '_', 't', 'x'] = some .runTx := by decide

/-- 30_encoding.md R87: a copy of `tick` lets the enabled TX_STEP go first, even where TX_LATENCY is 5 and the request alone
would not. -/
theorem test_tick_lets_urgent_steps_first :
    let s := { inFrame 0 .high 300 with par := { Params.default with txLatency := 5 } }
    (runHarness (tickTimes 1) s).m.out = [.pin true 0, .pin false 0] ∧ (runHarness (tickTimes 1) s).pt.count = 301 ∧
      (after .timerTick s).m.out = [.pin true 0] := by decide

/-- V-DSP DS11, from the trailer's last tick: `run_tx` ends at LOOP with reception restored; `drain` empties the queue. -/
theorem test_runTx_and_drain :
    (runLine 10 .runTx (inFrame 13 .low 199)).dsp = .loop ∧ (runLine 10 .runTx (inFrame 13 .low 199)).inputEn = true ∧
      (runLine 10 .runTx (inFrame 13 .low 199)).m.time = 1 ∧ queueEmpty (runLine 10 .drain fullQueue) = true ∧
      (runLine 10 .drain fullQueue).dec.tick = 4 := by decide

/-- 30_encoding.md R85: the result encodings of V-OPREQ. -/
theorem test_result_codes :
    (Result.symbol .header).value = 0b10 ∧ (Result.bool true).value = 1 ∧
      (Result.optU16 (some 0x01A2)).value = 0x101A2 ∧ (Result.optU16 none).value = 0 ∧
      (Result.optU16 none).width = 17 := by decide

/-! ### Witnesses: the queue, the invariant and the latency bound hold of concrete states -/

theorem witness_queueOk_reset : QueueOk State.reset := ⟨by decide, by decide, by decide, by decide⟩

theorem witness_queueOk_full : QueueOk fullQueue := ⟨by decide, by decide, by decide, by decide⟩

theorem witness_queueOk_holding (e : Event) : QueueOk (holding e) :=
  ⟨by show 1 ≤ 4; decide, rfl, by show 1 ≤ 4; decide, Nat.zero_le _⟩

theorem witness_inv_reset : Inv State.reset where
  par := by decide
  tick := by decide
  queue := witness_queueOk_reset
  memory := by decide
  len := by decide
  unfilled := fun _ _ => rfl
  phase := by decide
  single := by decide
  count := by decide
  input := by decide
  pin := by decide
  idle := by decide
  thresholds := by decide
  running := by decide
  history := by decide
  stamps := fun _ _ h => nomatch h

/-- In the last low half of a frame, at the boundary of the phases. -/
theorem witness_inv_inFrame : Inv (inFrame 13 .low 150) where
  par := by decide
  tick := by decide
  queue := ⟨by decide, by decide, by decide, by decide⟩
  memory := by decide
  len := by decide
  unfilled := fun _ _ => rfl
  phase := by decide
  single := by decide
  count := by decide
  input := by decide
  pin := by decide
  idle := by decide
  thresholds := by decide
  running := by decide
  history := by decide
  stamps := by
    intro l t h
    rw [show (inFrame 13 .low 150).m.out = [.pin false 0] by decide, List.mem_singleton] at h
    cases h
    decide

theorem witness_latencyOk : LatencyOk (inFrame 0 .high 300) := ⟨by decide, by decide, by decide, by decide, by decide⟩

/-! ### Witnesses: every statement with hypotheses has a state and operands that meet them -/

theorem witness_EncodeOfDecodeIsIdentity : decode 0xD012C0190 = .ok (.outTick 300 400) := by decide

theorem witness_StepRunsTheDecodedRequest :
    (scheduled [.request 0x600000000]).par.wellFormed = true ∧
      (scheduled [.request 0x600000000]).sched = .request 0x600000000 :: [] ∧ decode 0x600000000 = .ok .get := by decide

theorem witness_IllegalWordsOnlyMarkRefused :
    (scheduled [.request 0x012345678]).par.wellFormed = true ∧ reqOp 0x012345678 = 0 ∧
      ∀ r ∈ opcodeTable, r.covers 0xA00000100 = false := by decide

theorem witness_NoiseEdgeOnlyResetsTheTimer :
    (counting 350).inputEn = true ∧ classifyEdge (counting 350).par .rising (counting 350).pt.count = .invalid ∧
      classifyEdge (counting 150).par .falling (counting 150).pt.count = .invalid := by decide

/-- The windows' first and last counts, on a full queue. -/
theorem witness_EdgeEnqueuesTheSymbolsEvent :
    ∀ x ∈ [(Dir.rising, 251, Event.frameStart), (.rising, 349, .frameStart), (.falling, 151, .bitHigh),
        (.falling, 249, .bitHigh), (.falling, 51, .bitLow), (.falling, 149, .bitLow)],
      let s := { fullQueue with pt := { count := x.2.1, run := true } }
      QueueOk s ∧ s.inputEn = true ∧ eventOf (classifyEdge s.par x.1 s.pt.count) = some x.2.2 := by
  intro x hx
  refine ⟨⟨by show 1 ≤ 4; decide, rfl, by show 4 ≤ 4; decide, by show 0 ≤ 4; decide⟩, rfl, ?_⟩
  revert x
  decide

theorem witness_EdgeWhileDisabledChangesNothing : ({ counting 300 with inputEn := false }).inputEn = false := by decide

/-- The ticks 0, 1, 11 and 12, one on each side of every clause's bound. -/
theorem witness_ApplyBitWritesOnePositionAndCounts :
    (assembling 0 0x5A5).dec.tick.toNat < 12 ∧ 1 ≤ (assembling 1 0).dec.tick.toNat ∧
      (assembling 11 0).dec.tick.toNat < 12 ∧ (assembling 12 0x1A2).dec.tick.toNat = 12 := by decide

theorem witness_ThirteenthBitAfterAHeaderMaterialises : 1 ≤ 1 ∧ 1 ≤ 12 ∧ 12 ≤ 12 := by decide

theorem witness_ThirteenBitsWithNoHeaderMaterialise : (assembling 0 0xFFF).dec.tick = 0 := by decide

/-- Both branches of PUT: a queue with room and a full one. -/
theorem witness_PutWritesAtHeadWithOverwrite :
    QueueOk State.reset ∧ queueFull State.reset = false ∧ QueueOk fullQueue ∧ queueFull fullQueue = true :=
  ⟨witness_queueOk_reset, by decide, witness_queueOk_full, by decide⟩

/-- Both clauses: an empty queue, and a full one. -/
theorem witness_GetReturnsTheEventAtTail :
    State.reset.q.head = State.reset.q.tail ∧ QueueOk fullQueue ∧ fullQueue.q.head ≠ fullQueue.q.tail :=
  ⟨by decide, witness_queueOk_full, by decide⟩

theorem witness_QueueStatusAgreesWithTheCount :
    QueueOk State.reset ∧ queueCount State.reset = 0 ∧ QueueOk fullQueue ∧ queueCount fullQueue = 4 :=
  ⟨witness_queueOk_reset, by decide, witness_queueOk_full, by decide⟩

theorem witness_PutAppendsDroppingOnlyTheOldest :
    QueueOk fullQueue ∧ (unread fullQueue).length = fullQueue.par.queueN ∧ QueueOk State.reset ∧
      (unread State.reset).length = 0 := ⟨witness_queueOk_full, by decide, witness_queueOk_reset, by decide⟩

theorem witness_GetTakesTheOldestUnreadEvent :
    QueueOk fullQueue ∧ unread fullQueue = .bitLow :: [.bitLow, .bitLow, .bitLow] := ⟨witness_queueOk_full, by decide⟩

/-- Six events into four slots (44_queue.md R201), of which the last read is the fourth. -/
theorem witness_PutsFromEmptyKeepTheLastN :
    QueueOk State.reset ∧ State.reset.q.head = State.reset.q.tail ∧
      3 < ((List.replicate 6 Event.bitLow).drop (6 - State.reset.par.queueN)).length :=
  ⟨witness_queueOk_reset, by decide, by decide⟩

/-- The first byte, and the last that does not reach the threshold. -/
theorem witness_UartByteIsStoredAtLen :
    ∀ n ∈ [0, 4], let s := received (List.replicate n 0x30) true
      s.hb.data.wf = true ∧ s.hb.armed = true ∧ s.hb.len < s.par.hbCap ∧ s.hb.len + 1 < s.par.hbThreshold := by
  decide

theorem witness_UartByteAtTheThresholdRaisesReady :
    let s := { fullQueue with hb := { data := fill [0x30, 0x78, 0x30, 0x31, 0x41], len := 5, armed := true } }
    QueueOk s ∧ s.hb.data.wf = true ∧ s.hb.armed = true ∧ s.hb.len < s.par.hbCap ∧
      s.hb.len + 1 = s.par.hbThreshold :=
  ⟨⟨by decide, by decide, by decide, by decide⟩, by decide, by decide, by decide, by decide⟩

theorem witness_UartByteWhileDisarmedIsDropped : (received command01A2 false).hb.armed = false := by decide

/-- HB.LEN at the threshold with the path armed, a threshold beyond the array, a length beyond it, and slots that are missing. -/
theorem witness_IndexesBeyondTheirBoundsTouchNothing :
    (let s := received command01A2 true
     s.par.hbThreshold ≤ s.hb.len) ∧
    (let s := { received (List.replicate 10 0x30) true with par := { Params.default with hbThreshold := 11 } }
     s.hb.armed = true ∧ s.hb.len < s.par.hbThreshold ∧ s.par.hbCap ≤ s.hb.len) ∧
    (let s := received (List.replicate 11 0x30) true
     s.par.hbCap < s.hb.len) ∧
    (withQueue [.bitLow] 1 0).q.slot.length ≤ (withQueue [.bitLow] 1 0).q.head ∧
    (withQueue [.bitLow] 0 1).q.head ≠ (withQueue [.bitLow] 0 1).q.tail ∧
      (withQueue [.bitLow] 0 1).q.slot.length ≤ (withQueue [.bitLow] 0 1).q.tail := by decide

/-- Each outcome of the parse, at lengths 0, 6 and the whole array. -/
theorem witness_ParseHexReturnsTheParseAndClears :
    State.reset.hb.len ≤ State.reset.par.hbCap ∧ parseHex 0x78 [] = .error .empty ∧
      (received command01A2 false).hb.len ≤ State.reset.par.hbCap ∧ parseHex 0x78 command01A2 = .ok 0x01A2 ∧
      (received (List.replicate 10 0x78) true).hb.len ≤ State.reset.par.hbCap ∧
      parseHex 0x78 (List.replicate 10 0x78) = .error .noDigits := by decide

/-- A digit at each end of the three ranges of 30_encoding.md R77, and the bytes beside them. -/
theorem witness_ParseReadsTheNumeralAfterTheLastTerminator :
    ([0x2F, 0x3A, 0x60, 0x67, 0x40, 0x47] : List Byte).all (fun b => !(0x30 ≤ b.toNat && b.toNat ≤ 0x39) &&
      !(0x61 ≤ b.toNat && b.toNat ≤ 0x66) && !(0x41 ≤ b.toNat && b.toNat ≤ 0x46)) = true ∧
    ([0x46, 0x41] : List Byte) ≠ [] ∧
      ∀ d ∈ ([0x46, 0x41, 0x30, 0x39, 0x61, 0x66] : List Byte), d ≠ 0x78 ∧ (hexValue d).isSome = true := by decide

theorem witness_TransmitStartsTheHeader : State.reset.tx.active = false := by decide

theorem witness_OutTickStartsOneHighHalf : (counting 65535).tx.active = false := by decide

/-- A running engine outside a transmission of the Dispatcher's, and a Dispatcher waiting for TX_RETURN. -/
theorem witness_BusyRequestsOnlyMarkRefused :
    (after (.outTick 300 400) State.reset).tx.active = true ∧
      ({ State.reset with dsp := .inTx }).dsp = .inTx ∧ ({ State.reset with dsp := .inTx }).tx.active = false := by decide

/-- The thresholds 0, and the last that the timer can reach. -/
theorem witness_OutTickHasTwoThresholdsFromOneReset :
    State.reset.par.wellFormed = true ∧ State.reset.sched = [] ∧ State.reset.tx.active = false ∧
      State.reset.pt.run = true ∧ (0 : Word16).toNat < 2 ^ State.reset.par.timerWidth ∧
      (65535 : Word16).toNat < 2 ^ State.reset.par.timerWidth := by decide

theorem witness_OnlyTwelveBitsReachTheLine : (0x01A2 : Word16).toNat = (0xF1A2 : Word16).toNat % 4096 := by decide

/-- One state for each clause, at the thresholds, and at phases 0, 12 and 13. -/
theorem witness_EnabledTxStepFollowsThePhaseTable :
    (∀ s ∈ [inFrame 0 .high 300, inFrame 13 .low 200, inFrame 12 .low 200, inFrame 0 .low 400],
        s.par.wellFormed = true ∧ txStepEnabled { s with sched := [.agent .txStep] } = true ∧ s.tx.phase.toNat ≤ 13) ∧
      (inFrame 0 .high 300).tx.half = .high ∧ (inFrame 13 .low 200).tx.half = .low ∧
      (inFrame 13 .low 200).tx.mode = .frame ∧ (inFrame 13 .low 200).tx.phase.toNat = 13 ∧
      (inFrame 12 .low 200).tx.phase.toNat < 13 := by decide

theorem witness_EnabledTxStepEndsAnOutTickRun :
    let s := { State.reset with
      tx := { active := true, mode := .single, cmd := 0, phase := 0, half := .low, d1 := 0, d2 := 0, pin := false }
      sched := [.agent .txStep] }
    txStepEnabled s = true ∧ s.tx.half = .low ∧ s.tx.mode = .single ∧ s.tx.phase.toNat ≤ 13 := by decide

theorem witness_FrameHasTheTimelineOfItsPhases :
    State.reset.par.wellFormed = true ∧ State.reset.sched = [] ∧ State.reset.tx.active = false ∧
      ∀ k, k ≤ 13 → (phaseTicks State.reset.par k 0xFFF).2 < 2 ^ State.reset.par.timerWidth := by decide

/-- A hung engine on its own, and one that an edge, a tick and a TRANSMIT are asked of. -/
theorem witness_StoppedTimerHangsTheEngine :
    let s := after (.outTick 300 400) { State.reset with pt := { count := 200, run := false } }
    s.par.wellFormed = true ∧ s.sched = [] ∧ s.tx.active = true ∧ s.pt.run = false ∧ txStepEnabled s = false ∧
      ∀ i ∈ [Instr.edge .falling, .timerTick, .transmit 0x1A2],
        ∃ t, step { s with sched := [.request (encode i)] } = .next t := by
  refine ⟨by decide, by decide, by decide, by decide, by decide, fun i hi => ?_⟩
  simp only [List.mem_cons, List.not_mem_nil, or_false] at hi
  rcases hi with rfl | rfl | rfl <;> exact ⟨_, rfl⟩

/-- Each half at its threshold, on time. -/
theorem witness_StepsKeepTheLatencyBound :
    (LatencyOk (inFrame 0 .high 300) ∧ ∃ t, step (inFrame 0 .high 300) = .next t) ∧
      ∀ s ∈ [{ inFrame 0 .high 300 with m.time := 300 },
          { inFrame 0 .low 400 with m.time := 400, m.out := [.pin true 0, .pin false 300] , lag.high := 100 }],
        LatencyOk s ∧ phaseOnTime s ∧ s.inputEn = false ∧ s.pt.run = true ∧ txStepEnabled s = true ∧
          s.tx.d1.toNat ≤ s.tx.d2.toNat ∧ s.tx.d2.toNat < 2 ^ s.par.timerWidth := by
  refine ⟨⟨witness_latencyOk, _, rfl⟩, fun s hs => ?_⟩
  simp only [List.mem_cons, List.not_mem_nil, or_false] at hs
  rcases hs with rfl | rfl <;>
    exact ⟨⟨by decide, by decide, by decide, by decide, by decide⟩, fun _ _ _ _ => by decide, by decide, by decide, by decide, by decide, by decide⟩

theorem witness_DispatchOfFrameStartBeginsAFrame :
    let s := holding .frameStart
    s.dsp = .loop ∧ s.tx.active = false ∧ s.q.head ≠ s.q.tail ∧ s.q.slot[s.q.tail]? = some .frameStart := by decide

/-- Both bits, at the ticks 0, 11 and 12. -/
theorem witness_DispatchOfABitAppliesAndReports :
    ∀ b ∈ [false, true], ∀ k ∈ ([0, 11, 12] : List (BitVec 4)),
      let s := { holding (bitEvent b) with dec := { tick := k, buf := 0x1A2, cmd := 0, fip := true } }
      s.dsp = .loop ∧ s.tx.active = false ∧ s.q.head ≠ s.q.tail ∧ s.q.slot[s.q.tail]? = some (bitEvent b) ∧
        s.dec.tick.toNat ≤ 12 := by decide

/-- A buffer that parses and one that does not. -/
theorem witness_DispatchOfReadyTransmitsOrRearms :
    ∀ bytes ∈ [command01A2, [0x30, 0x78], List.replicate 10 0x30],
      let s := { holding .uartCommandReady with hb := { data := fill bytes, len := bytes.length, armed := false } }
      s.dsp = .loop ∧ s.tx.active = false ∧ s.q.head ≠ s.q.tail ∧ s.q.slot[s.q.tail]? = some .uartCommandReady ∧
        s.hb.len ≤ s.par.hbCap := by decide

/-- An unread event; an agent's three moves on a quiescent block; an empty queue. -/
theorem witness_DispatchRunsOnlyWhenEnabled :
    (let s := { holding .frameStart with sched := [.agent .dispatch] }
     s.par.wellFormed = true ∧ s.sched = .agent .dispatch :: [] ∧ s.dsp = .loop ∧ s.tx.active = false ∧
       s.q.head ≠ s.q.tail) ∧
      (∀ a ∈ [AgentStep.dispatch, .txStep, .txReturn], takenByAgent a (scheduled [.agent a]) = none) ∧
      State.reset.dsp = .loop ∧ State.reset.tx.active = false ∧ State.reset.q.head = State.reset.q.tail := by decide

theorem witness_EnabledTxReturnRestoresReception :
    let s := { State.reset with inputEn := false, dsp := .inTx, sched := [.agent .txReturn] }
    s.par.wellFormed = true ∧ s.sched = .agent .txReturn :: [] ∧ s.dsp = .inTx ∧ s.tx.active = false := by decide

theorem witness_TransmissionEndsWithReceptionRestored :
    let s := inFrame 13 .low 150
    Inv s ∧ s.sched = [] ∧ s.dsp = .inTx ∧ s.tx.active = true ∧ s.tx.mode = .frame ∧
      ∀ k, k ≤ 13 → (phaseTicks s.par k s.tx.cmd).2 < 2 ^ s.par.timerWidth :=
  ⟨witness_inv_inFrame, by decide, by decide, by decide, by decide, by decide⟩

/-- At the trailer's last tick the block alone is on a fair run: a tick, the last TX_STEP, TX_RETURN, and ticks for ever. -/
theorem witness_TransmissionEndsOnEveryFairRun :
    let s := inFrame 13 .low 199
    FairRun (runSteps s) (fun _ => []) ∧ (∀ _n : Nat, noneAsksFor startsEngine []) ∧ s.sched = [] ∧ Inv s ∧
      s.dsp = .inTx ∧ s.tx.active = true ∧ s.tx.mode = .frame ∧
      ∀ k, k ≤ 13 → (phaseTicks s.par k s.tx.cmd).2 < 2 ^ s.par.timerWidth := by
  refine ⟨fairRun_of_quiescent 3 (fun n hn => ?_) (by decide) (by decide) ⟨by decide, by decide, by decide⟩, fun _ _ h => (nomatch h), by decide,
    { witness_inv_inFrame with queue := ⟨by decide, by decide, by decide, by decide⟩, count := by decide }, by decide, by decide, by decide, by decide⟩
  obtain rfl | rfl | rfl : n = 0 ∨ n = 1 ∨ n = 2 := by omega
  all_goals exact ⟨_, rfl⟩

/-- The two clauses of UnreadEventsAreDispatchedOrOverwrittenOnEveryFairRun. One unread event at LOOP: the block alone
dispatches it and rests. One that waits at a trailer's last tick: a tick, the last TX_STEP, TX_RETURN, its DISPATCH, and rest. -/
theorem witness_UnreadEventsAreDispatchedOrOverwrittenOnEveryFairRun :
    let s := holding .bitHigh
    let r := { inFrame 13 .low 199 with q := s.q }
    (∀ u ∈ [s, r], FairRun (runSteps u) (fun _ => []) ∧ u.sched = [] ∧ Inv u ∧ unreadAt u 0) ∧
      (∀ _k : Nat, noneAsksFor (fun i => startsEngine i || takesEvents i) []) ∧
      s.dsp = .loop ∧ s.tx.active = false ∧ s.q.head ≠ s.q.tail ∧
      r.tx.active = true ∧ r.dsp = .inTx ∧ r.tx.mode = .frame ∧
      ∀ (c : Word16) (k : Nat), k ≤ 13 → (phaseTicks r.par k c).2 < 2 ^ r.par.timerWidth := by
  refine ⟨fun u hu => ?_, fun _ _ h => (nomatch h), by decide, by decide, by decide, by decide, by decide, by decide,
    fun c k _ => ?_⟩
  · simp only [List.mem_cons, List.not_mem_nil, or_false] at hu
    rcases hu with rfl | rfl
    · refine ⟨fairRun_of_quiescent 1 (fun n hn => ?_) (by decide) (by decide) ⟨by decide, by decide, by decide⟩, by decide,
        { witness_inv_reset with queue := witness_queueOk_holding .bitHigh }, 0, by decide, by decide⟩
      obtain rfl : n = 0 := by omega
      exact ⟨_, rfl⟩
    · refine ⟨fairRun_of_quiescent 4 (fun n hn => ?_) (by decide) (by decide) ⟨by decide, by decide, by decide⟩, by decide,
        { witness_inv_inFrame with queue := { witness_queueOk_holding .bitHigh with }, count := by decide }, 0, by decide, by decide⟩
      obtain rfl | rfl | rfl | rfl : n = 0 ∨ n = 1 ∨ n = 2 ∨ n = 3 := by omega
      all_goals exact ⟨_, rfl⟩
  · unfold phaseTicks
    (repeat' split) <;> decide

/-- A byte and an edge are among the requests the statement covers. -/
theorem witness_DecoderUntouchedDuringATransmission :
    let s := { inFrame 3 .low 150 with sched := [.request (encode (.uartByte 0x30))] }
    s.dsp = .inTx ∧ (∃ t, step s = .next t) ∧
      (∀ rest, s.sched ≠ .request (encode .beginFrame) :: rest) ∧
      ∀ b rest, s.sched ≠ .request (encode (.applyBit b)) :: rest := by
  refine ⟨rfl, ⟨_, rfl⟩, fun rest h => ?_, fun b rest h => ?_⟩
  · injection h with h _; injection h with h; exact absurd h (by decide)
  · injection h with h _; injection h with h; revert h; cases b <;> decide

theorem witness_LostReadyEventIsNeverRecovered :
    let s := { State.reset with hb.armed := false, sched := [.request (encode (.uartByte 0x30))] }
    Inv s ∧ readyEventLost s ∧ (∃ t, step s = .next t) ∧
      ∀ rest, s.sched ≠ .request (encode (.put .uartCommandReady)) :: rest := by
  refine ⟨?_, ⟨rfl, rfl, by decide⟩, ⟨_, rfl⟩, fun rest h => ?_⟩
  · exact { witness_inv_reset with queue := ⟨by decide, by decide, by decide, by decide⟩ }
  · injection h with h _; injection h with h; exact absurd h (by decide)

/-- Rows of a frame with a DISPATCH after each edge, the ticks of a row in one go. -/
def receiveRows (rows : List (Dir × Nat)) (s : State) : Option State :=
  match rows with
  | [] => some s
  | (_, 0) :: _ => none
  | (dir, n + 1) :: rest =>
    if s.dsp = .loop ∧ s.tx.active = false then
      receiveRows rest
        (after .dispatch (after (.edge dir)
          { s with
            pt.count := if s.pt.run then (s.pt.count + (n + 1)) % 2 ^ s.par.timerWidth else s.pt.count
            m.time := s.m.time + (n + 1)
            lag := { high := 0, low := 0, ret := 0 }
            result := none }))
    else none

theorem receiveRows_sound (rows : List (Dir × Nat)) (s t : State) (h : receiveRows rows s = some t) :
    runHarness (rows.flatMap fun r => tickTimes r.2 ++ [.request (.edge r.1), .request .dispatch]) s = t := by
  induction rows generalizing s with
  | nil => injection h
  | cons r rest ih =>
    obtain ⟨dir, _ | n⟩ := r
    · cases h
    · simp only [receiveRows] at h
      split at h
      · rename_i hq
        simp only [List.flatMap_cons, runHarness_append, runHarness_tickTimes hq.1 hq.2]
        exact ih _ h
      · cases h

/-- A receiver at any of the counts 0, 100 and 1000 when row 1 comes, and at the decoder's last tick. -/
theorem witness_ReceivedFrameMaterialisesItsCommand :
    ∀ x ∈ [(0, 0#4), (100, 0#4), (100, 12#4), (1000, 12#4)],
      let s := { assembling x.2 0xFFF with pt := { count := x.1, run := true } }
      QueueOk s ∧ quiescent s ∧ s.inputEn = true ∧ s.pt.run = true ∧
        s.par = { Params.default with queueN := s.par.queueN } := by
  intro x _
  exact ⟨⟨by show 1 ≤ 4; decide, rfl, by show 0 ≤ 4; decide, by show 0 ≤ 4; decide⟩, ⟨rfl, rfl, rfl⟩, rfl, rfl, rfl⟩

/-- Program P1 after row 1 and its DISPATCH. -/
def rowOne : State := runHarnessStep (.request .dispatch) (runHarnessStep (.request (.edge .falling)) State.reset)

/-- Program P1, with a DISPATCH after every edge: one of the drainings that lose no event and leave none unread. -/
theorem witness_ReceivedFrameAnyDraining :
    ((rxFrameDispatched Params.default 0x1A2).filter fun h => h != .request .dispatch) = rxFrame Params.default 0x1A2 ∧
      let t := runHarness (rxFrameDispatched Params.default 0x1A2) State.reset
      queueEmpty t = true ∧ t.m.out.count (.drop .queueOverflow) = 0 ∧ t.m.time = 3300 ∧
        t.m.out = List.replicate 13 (.drop .noise) ++ [.cmdReport 0x1A2, .drop .noise] := by
  have ticks : ∀ n, ((tickTimes n).filter fun h => h != .request .dispatch) = tickTimes n := by
    intro n
    refine List.filter_eq_self.mpr fun h hh => ?_
    simp only [tickTimes, List.mem_flatten, List.mem_replicate] at hh
    obtain ⟨l, ⟨_, rfl⟩, hh⟩ := hh
    simp only [List.mem_cons, List.not_mem_nil, or_false] at hh
    rcases hh with rfl | rfl <;> rfl
  have rows : ∀ l : List (Dir × Nat),
      ((l.flatMap fun r => tickTimes r.2 ++ [.request (.edge r.1), .request .dispatch]).filter
          fun h => h != .request .dispatch) =
        l.flatMap fun r => tickTimes r.2 ++ [.request (.edge r.1)] := by
    intro l
    induction l with
    | nil => rfl
    | cons r l ih =>
      simp only [List.flatMap_cons, List.filter_append, ih, ticks]
      rfl
  have eval :
      (match receiveRows (frameEdges Params.default 0x1A2) rowOne with
        | some t => decide (queueEmpty t = true ∧ t.m.out.count (.drop .queueOverflow) = 0 ∧ t.m.time = 3300 ∧
            t.m.out = List.replicate 13 (.drop .noise) ++ [.cmdReport 0x1A2, .drop .noise])
        | none => false) = true := by decide
  obtain ⟨t, ht⟩ : ∃ t, receiveRows (frameEdges Params.default 0x1A2) rowOne = some t := by
    cases h : receiveRows (frameEdges Params.default 0x1A2) rowOne with
    | none => rw [h] at eval; cases eval
    | some t => exact ⟨t, rfl⟩
  rw [ht] at eval
  have hq := of_decide_eq_true eval
  have run : runHarness (rxFrameDispatched Params.default 0x1A2) State.reset = t := by
    rw [rxFrameDispatched, runHarness_cons, runHarness_cons]
    exact receiveRows_sound _ rowOne t ht
  refine ⟨?_, by rw [run]; exact hq⟩
  rw [rxFrameDispatched, rxFrame, List.filter_cons_of_pos (by decide), List.filter_cons_of_neg (by decide), rows]

/-- No urgent step, one with latency left, a stopped timer; one with no latency left, and one that a wrap would disable. -/
theorem witness_TimerTickAdvancesOrWaits :
    tickAllowed (counting 65535) = true ∧ tickAllowed (inFrame 0 .high 299) = true ∧
      tickAllowed { inFrame 0 .high 300 with par := { Params.default with txLatency := 1 } } = true ∧
      urgentEnabled { inFrame 0 .high 300 with par := { Params.default with txLatency := 1 } } = true ∧
      tickAllowed { State.reset with pt := { count := 200, run := false } } = true ∧
      urgentEnabled (inFrame 0 .high 300) = true ∧
      (inFrame 0 .high 300).par.txLatency ≤ urgentLag (inFrame 0 .high 300) ∧
      urgentEnabled (inFrame 0 .low 65535) = true ∧ tickKeepsDue (inFrame 0 .low 65535) = false := by decide

theorem witness_TimePassesWhenTheBlockRunsAlone :
    Inv (inFrame 13 .low 150) ∧ (inFrame 13 .low 150).sched = [] := ⟨witness_inv_inFrame, by decide⟩

/-- The defaults, and the smallest queue. -/
theorem witness_ResetIsCleanAndKeepsTheInvariant :
    Params.default.wellFormed = true ∧ (List.replicate 5 Event.frameStart).length = Params.default.queueN + 1 ∧
      ({ Params.default with queueN := 1 }).wellFormed = true := by decide

theorem witness_EveryStepKeepsTheInvariant : Inv State.reset ∧ ∃ t, step State.reset = .next t :=
  ⟨witness_inv_reset, _, rfl⟩

theorem witness_NothingHaltsTheBlock : State.reset.par.wellFormed = true := by decide

/-- A step from a state that holds a fault and a refusal. -/
theorem witness_NoStepClearsFaultsOrRefusals :
    let s := { State.reset with m.fault.queueUnderflow := true, m.refused.txBusy := true }
    (∃ t, step s = .next t) ∧ s.m.fault.has .queueUnderflow = true ∧ s.m.refused.has .txBusy = true :=
  ⟨⟨_, rfl⟩, rfl, rfl⟩

/-- A step that raises and a step that refuses. -/
theorem witness_StepReportsAtMostOneAnomaly :
    (∃ t, step (scheduled [.request 0x600000000]) = .next t ∧ t.m.fault ≠ State.reset.m.fault) ∧
      ∃ t, step (scheduled [.request 0x600000001]) = .next t ∧ t.m.refused ≠ State.reset.m.refused :=
  ⟨⟨_, rfl, by decide⟩, _, rfl, by decide⟩

/-- An edge that enqueues with room and one that overflows, noise, a stored byte, and the byte that reaches the threshold. -/
theorem witness_InterruptContextWritesOnlyItsOwn :
    (∃ t, exec (.edge .rising) (counting 300) = .next t ∧ t.q.head = 1 ∧ t.q.tail = 0) ∧
      (∃ t, exec (.edge .rising) { fullQueue with pt := { count := 300, run := true } } = .next t ∧ t.q.tail = 1) ∧
      (∃ t, exec (.edge .falling) (counting 300) = .next t ∧ t.q = (counting 300).q) ∧
      (∃ t, exec (.uartByte 0x30) State.reset = .next t ∧ t.hb.armed = true ∧ t.hb.len = 1) ∧
      ∃ t, exec (.uartByte 0x32) (received [0x30, 0x78, 0x30, 0x31, 0x41] true) = .next t ∧ t.hb.armed = false ∧
        t.q.head = 1 :=
  ⟨⟨_, rfl, by decide⟩, ⟨_, rfl, by decide⟩, ⟨_, rfl, by decide⟩, ⟨_, rfl, by decide⟩, _, rfl, by decide⟩

/-- The four operations that move the pin, and the engine's own TX_STEP. -/
theorem witness_OnlyTheEngineMovesThePin :
    (∃ t, exec (.transmit 0x1A2) State.reset = .next t ∧ t.tx.pin ≠ State.reset.tx.pin) ∧
      (∃ t, exec (.outTick 300 400) State.reset = .next t ∧ t.tx.pin ≠ State.reset.tx.pin) ∧
      (let s := { holding .uartCommandReady with hb := { data := fill command01A2, len := 6, armed := false } }
       ∃ t, exec .dispatch s = .next t ∧ t.tx.pin ≠ s.tx.pin) ∧
      (∃ t, exec .timerTick (inFrame 0 .high 300) = .next t ∧ t.tx.pin ≠ (inFrame 0 .high 300).tx.pin) ∧
      ∃ t, step { inFrame 0 .high 300 with sched := [.agent .txStep] } = .next t ∧
        t.tx.pin ≠ (inFrame 0 .high 300).tx.pin :=
  ⟨⟨_, rfl, by decide⟩, ⟨_, rfl, by decide⟩, ⟨_, rfl, by decide⟩, ⟨_, rfl, by decide⟩, _, rfl, by decide⟩

end Sys2Proof.Tests
end

section
/-! Proofs of the statements of 00_scope.md: a step runs the word that it decodes (R12), and keeps the engine and TX_RETURN
within TX_LATENCY (R13, with 42_encoder.md R152). The lemmas before the second say once what an operation and a step can do
to the phase in progress: its thresholds, its clock, its lag and the last rise of the pin. -/

namespace Sys2Proof.Machine

/-! ### The step and its word -/

/-- Settles O5: the head of the schedule is a request, and its word is run as the operation it decodes to. -/
theorem stepRunsTheDecodedRequest : Obligations.StepRunsTheDecodedRequest := by
  intro w rest i s hp hs hd
  rw [step_request hp hs, runWord, hd]

/-- Only the word of an EDGE decodes to that EDGE (30_encoding.md R81). -/
theorem eq_encode_of_decode_edge {w : ReqWord} {dir : Dir} (h : decode w = .ok (.edge dir)) :
    w = encode (.edge dir) := by
  rw [← reqWord_fields w, encode]
  unfold decode decodeFields at h
  split at h
  case h_3 hop =>
    obtain ⟨hclear, hdir⟩ := decodeIf_ok h
    simp only [Bool.and_eq_true, beq_iff_eq] at hclear
    obtain ⟨ha, hb⟩ := hclear
    injection hdir with hdir
    have hop : reqOp w = 0x2 := BitVec.eq_of_toNat_eq hop
    rw [hop, hb, hdir]
    rcases one_bit ha with ha | ha <;> rw [ha] <;> rfl
  case h_1 => cases h
  case h_14 => cases h
  all_goals cases (decodeIf_ok h).2

/-! ### The phase in progress -/

/-- A Pin entry at the high level is the new last rise, and no other entry moves it. -/
theorem lastRise_append_one (out : List Obs) (o : Obs) :
    lastRise (out ++ [o]) =
      match o with
      | .pin true u => u
      | .pin false _ => lastRise out
      | .cmdReport _ => lastRise out
      | .txReport _ => lastRise out
      | .drop _ => lastRise out := by
  rw [lastRise, List.foldl_append]
  rfl

/-- `t` has all of `s` that the latency bound and the time of the phase speak of. -/
structure SamePhase (s t : State) : Prop where
  tx : t.tx = s.tx
  dsp : t.dsp = s.dsp
  pt : t.pt = s.pt
  lag : t.lag = s.lag
  par : t.par = s.par
  time : t.m.time = s.m.time
  rise : lastRise t.m.out = lastRise s.m.out

theorem SamePhase.refl (s : State) : SamePhase s s := ⟨rfl, rfl, rfl, rfl, rfl, rfl, rfl⟩

theorem SamePhase.of_returning {s t : State} (h : SamePhase s t) (r : Option Result) : SamePhase s (returning r t) :=
  { h with }

theorem SamePhase.of_refuse (s : State) (c : RefuseCode) : SamePhase s (refuse c s) := { SamePhase.refl s with }

theorem SamePhase.of_raiseFault (s : State) (c : FaultCode) : SamePhase s (raiseFault c s) := { SamePhase.refl s with }

theorem SamePhase.of_drop {s t : State} (h : SamePhase s t) (c : DropCode) : SamePhase s (emit (.drop c) t) :=
  { h with rise := (lastRise_append_one _ _).trans h.rise }

theorem SamePhase.of_put {s t u : State} {e : Event} (h : SamePhase s t) (hu : putEvent e t = .ok u) : SamePhase s u := by
  obtain ⟨_, rfl⟩ := (putEvent_ok_iff _ _ _).mp hu
  refine { h with rise := Eq.trans ?_ h.rise }
  simp only [putState]
  split
  · exact lastRise_append_one _ _
  · rw [List.append_nil]

/-- An operation that keeps the phase where it answers keeps it where it raises, too. -/
theorem SamePhase.of_commit {s : State} {r : Except FaultCode State} (h : ∀ t, r = .ok t → SamePhase s t) :
    SamePhase s (commit s (noResult r)) := by
  rcases commit_noResult_cases s r with ⟨t, ht, e⟩ | ⟨c, _, e⟩ <;> rw [e]
  · exact (h t ht).of_returning none
  · exact .of_raiseFault s c

/-! ### What an operation and a step do to the phase -/

/-- What one step can do to the phase in progress: leave it, begin the high half of another, or be one of TX_STEP, TX_RETURN
and a period of the timer, each enabled. The reset by an enabled edge is stated apart. -/
inductive PhaseEffect (s t : State) : Prop where
  | kept (h : SamePhase s t)
  | began (u : State) (h : SamePhase (beginHigh u) t)
  | stepped (he : txStepEnabled s = true) (h : SamePhase (txStep s) t)
  | returned (he : txReturnEnabled s = true) (h : SamePhase (txReturn s) t)
  | ticked (he : tickAllowed s = true) (h : SamePhase (timerAdvance s) t)

/-- An edge leaves the phase but for the reset of the timer, which only an enabled edge makes (40_classifier.md R104). -/
theorem execEdge_phase (dir : Dir) {s t : State} (h : execEdge dir s = .next t) :
    SamePhase s t ∨ (s.inputEn = true ∧ SamePhase (timerReset s) t) := by
  unfold execEdge at h
  injection h with h
  subst h
  cases hin : s.inputEn
  · exact .inl ((SamePhase.refl s).of_returning none)
  rw [if_pos rfl]
  rcases commit_noResult_cases s (handleEdge dir s) with ⟨u, hu, e⟩ | ⟨c, _, e⟩ <;> rw [e]
  · refine .inr ⟨rfl, .of_returning ?_ none⟩
    rw [handleEdge_eq] at hu
    split at hu
    · cases hu; exact (SamePhase.refl _).of_drop _
    · exact .of_put (.refl _) hu
  · exact .inl (.of_raiseFault s c)

/-- A transmission begins with the high half of its header. -/
theorem transmitting_eq_startFrame (c : Word16) (s : State) :
    transmitting c s =
      startFrame c { emit (.txReport c) (hbClear s) with inputEn := false, dsp := .inTx } := rfl

/-- One event handled leaves the phase, or starts a transmission (45_dispatcher.md R223 to R228). -/
theorem dispatchOne_phase {s t : State} (h : dispatchOne s = .ok t) :
    SamePhase s t ∨ ∃ u, t = beginHigh u := by
  rcases getEvent_cases s with ⟨_, h'⟩ | ⟨_, _, h'⟩ | ⟨e, hq, he, _⟩
  · simp [dispatchOne, h'] at h
  · simp [dispatchOne, h'] at h
  rw [dispatchOne_of_slot hq he] at h
  have bit : ∀ (b : Bool) (u : State), SamePhase u (onBit b u) := by
    intro b u
    by_cases hb : u.dec.tick.toNat < 12
    · rw [onBit_count b hb]; exact { SamePhase.refl u with }
    · rw [onBit_materialise b (by omega)]
      exact { SamePhase.refl u with rise := lastRise_append_one _ _ }
  cases e
  case bitLow => cases h; exact .inl { bit false _ with }
  case bitHigh => cases h; exact .inl { bit true _ with }
  case frameStart => cases h; exact .inl { SamePhase.refl s with }
  case uartCommandReady =>
    simp only [onUartReady_eq] at h
    split at h
    · split at h <;> cases h
      · rw [transmitting_eq_startFrame]; exact .inr ⟨_, rfl⟩
      · exact .inl { (SamePhase.refl s).of_drop _ with }
    · cases h

/-- A DISPATCH leaves the phase, or begins a header (45_dispatcher.md R222, R225). -/
theorem execDispatch_phase {s t : State} (h : execDispatch s = .next t) : PhaseEffect s t := by
  unfold execDispatch at h
  injection h with h
  subst h
  split
  · exact .kept (.of_refuse s _)
  split
  · exact .kept ((SamePhase.refl s).of_returning none)
  rcases commit_noResult_cases s (dispatchOne s) with ⟨u, hu, e⟩ | ⟨c, _, e⟩ <;> rw [e]
  · rcases dispatchOne_phase hu with hk | ⟨v, rfl⟩
    · exact .kept (hk.of_returning none)
    · exact .began v ((SamePhase.refl _).of_returning none)
  · exact .kept (.of_raiseFault s c)

/-- A TIMER_TICK is a period of the timer, or the urgent step it waits for (60_exceptions.md R262). -/
theorem execTimerTick_phase {s t : State} (h : execTimerTick s = .next t) : PhaseEffect s t := by
  unfold execTimerTick at h
  injection h with h
  subst h
  cases ha : tickAllowed s
  · have hu : urgentEnabled s = true := by
      by_contra hn
      simp [tickAllowed, hn] at ha
    rw [if_neg (by simp)]
    rcases urgentStep_cases hu with ⟨he, e⟩ | ⟨_, he, e⟩ <;> rw [e]
    · exact .stepped he { SamePhase.refl (txStep s) with }
    · exact .returned he { SamePhase.refl (txReturn s) with }
  · exact .ticked ha ((SamePhase.refl _).of_returning none)

/-- Every operation but EDGE. -/
theorem exec_phase {i : Instr} {s t : State} (h : exec i s = .next t) (hi : ∀ dir, i ≠ .edge dir) : PhaseEffect s t := by
  cases i
  case edge dir => exact absurd rfl (hi dir)
  case dispatch => exact execDispatch_phase h
  case timerTick => exact execTimerTick_phase h
  all_goals (simp only [exec] at h; injection h with h; subst h)
  case reserved => exact .kept (.of_refuse s _)
  case put e => exact .kept (.of_commit fun u hu => .of_put (.refl s) hu)
  case get =>
    rcases getEvent_cases s with ⟨_, e⟩ | ⟨_, _, e⟩ | ⟨_, _, _, e⟩ <;> rw [e] <;>
      exact .kept { SamePhase.refl s with }
  case uartByte b =>
    refine .kept (.of_commit fun u hu => ?_)
    rcases handleByte_cases b s with ⟨_, e⟩ | ⟨_, _, e⟩ | ⟨_, _, _, e⟩ | ⟨_, _, _, e⟩ <;> rw [e] at hu
    · cases hu; exact (SamePhase.refl s).of_drop _
    · cases hu
    · cases hu; exact { SamePhase.refl s with }
    · exact { SamePhase.of_put (.refl _) hu with }
  case parseHex =>
    rw [parseAndClear_eq]
    by_cases hl : s.hb.len ≤ s.par.hbCap
    · rw [if_pos hl]
      cases parseHex s.par.hexTerm (received s)
      case ok => exact .kept { SamePhase.refl s with }
      case error f => exact .kept { (SamePhase.refl s).of_drop f.dropCode with }
    · rw [if_neg hl]
      exact .kept (.of_raiseFault s _)
  case transmit c =>
    split
    · exact .kept (.of_refuse s _)
    · exact .began _ ((SamePhase.refl (startFrame c s)).of_returning none)
  case outTick d1 d2 =>
    split
    · exact .kept (.of_refuse s _)
    · exact .began _ ((SamePhase.refl (startSingle d1 d2 s)).of_returning none)
  all_goals exact .kept { SamePhase.refl s with }

/-- Every step, on the state with some rest of the schedule: an effect on the phase, or the reset by an enabled edge, whose word
is the next one scheduled. -/
theorem step_phase {s t : State} (h : step s = .next t) :
    ∃ rest : List Move,
      PhaseEffect { s with sched := rest } t ∨
        ∃ dir, s.sched = .request (encode (.edge dir)) :: rest ∧ s.inputEn = true ∧
          SamePhase (timerReset { s with sched := rest }) t := by
  have hp := step_next_par h
  cases hk : stepTaken s with
  | some k =>
    obtain ⟨he, rest, _, hstep⟩ := step_of_taken hp hk
    rw [hstep] at h
    refine ⟨rest, .inl ?_⟩
    cases k <;> simp only [Host.Outcome.next.injEq] at h
    case timerTick => subst h; exact .ticked he ((SamePhase.refl _).of_returning none)
    case txStep => subst h; exact .stepped he ((SamePhase.refl _).of_returning none)
    case txReturn => subst h; exact .returned he ((SamePhase.refl _).of_returning none)
    case dispatch => exact execDispatch_phase h
  | none =>
    cases hs : s.sched with
    | nil =>
      simp only [stepTaken, hs] at hk
      exact absurd hk (takenAlone_ne_none s)
    | cons m rest =>
      refine ⟨rest, ?_⟩
      cases m with
      | agent a =>
        simp only [stepTaken, hs] at hk
        rw [step_agent hp hs, runAgent_untaken (by exact hk)] at h
        injection h with h
        subst h
        exact .inl (.kept ((SamePhase.refl _).of_returning none))
      | request w =>
        rw [step_request hp hs, runWord] at h
        cases hd : decode w with
        | error c =>
          rw [hd] at h
          injection h with h
          subst h
          exact .inl (.kept (.of_refuse _ _))
        | ok i =>
          rw [hd] at h
          by_cases hi : ∃ dir, i = .edge dir
          · obtain ⟨dir, rfl⟩ := hi
            rcases execEdge_phase dir h with hsame | ⟨hin, hreset⟩
            · exact .inl (.kept hsame)
            · exact .inr ⟨dir, by rw [eq_encode_of_decode_edge hd], hin, hreset⟩
          · exact .inl (exec_phase h fun dir hdir => hi ⟨dir, hdir⟩)

/-! ### The latency bound (42_encoder.md R152) -/

theorem txStepEnabled_iff (s : State) :
    txStepEnabled s = true ↔ s.tx.active = true ∧
      ((s.tx.half = .high ∧ s.tx.d1.toNat ≤ s.pt.count) ∨ (s.tx.half = .low ∧ s.tx.d2.toNat ≤ s.pt.count)) := by
  cases hh : s.tx.half <;> simp [txStepEnabled, hh]

theorem txReturnEnabled_iff (s : State) : txReturnEnabled s = true ↔ s.dsp = .inTx ∧ s.tx.active = false := by
  simp [txReturnEnabled]

/-- A period with TX_STEP enabled leaves latency to its half, and leaves the threshold due. -/
theorem tickAllowed_of_txStep {s : State} (h : tickAllowed s = true) (he : txStepEnabled s = true) :
    (s.tx.half = .high → s.lag.high < s.par.txLatency) ∧ (s.tx.half = .low → s.lag.low < s.par.txLatency) ∧
      txStepEnabled { s with pt := { s.pt with count := nextCount s } } = true := by
  simp only [tickAllowed, urgentEnabled, urgentLag, tickKeepsDue, he] at h
  cases hh : s.tx.half <;> simp_all

theorem tickAllowed_of_txReturn {s : State} (h : tickAllowed s = true) (he : txReturnEnabled s = true) :
    s.lag.ret < s.par.txLatency := by
  have hn : txStepEnabled s = false := by
    by_contra hn
    simp [txReturnEnabled_of_txStepEnabled (by simpa using hn)] at he
  simpa [tickAllowed, urgentEnabled, urgentLag, tickKeepsDue, he, hn] using h

theorem nextCount_le (s : State) : nextCount s ≤ s.pt.count + 1 := by
  unfold nextCount
  split
  · exact Nat.mod_le _ _
  · omega

theorem nextCount_lt {s : State} (h : s.pt.count < 2 ^ s.par.timerWidth) : nextCount s < 2 ^ s.par.timerWidth := by
  unfold nextCount
  split
  · exact Nat.mod_lt _ (by positivity)
  · exact h

theorem LatencyOk.of_same {s t : State} (hs : LatencyOk s) (h : SamePhase s t) : LatencyOk t where
  high := by rw [h.tx, h.lag, h.par]; exact hs.high
  low := by rw [h.tx, h.lag, h.par]; exact hs.low
  ret := by rw [txReturnEnabled, h.dsp, h.tx, h.lag, h.par]; exact hs.ret
  count := by rw [h.tx, h.pt, h.lag]; exact hs.count
  width := by rw [h.pt, h.par]; exact hs.width

/-- A high half begins with no count and no lag. -/
theorem latencyOk_beginHigh (s : State) : LatencyOk (beginHigh s) where
  high _ _ _ := ⟨Nat.le_refl 0, Nat.zero_le _⟩
  low _ _ h := by cases h
  ret h := by simp [txReturnEnabled] at h
  count _ := ⟨Nat.zero_le _, Nat.zero_le _⟩
  width := by simp

/-- An idle engine with no lag. -/
theorem latencyOk_of_idle {s : State} (ha : s.tx.active = false) (hl : s.lag.ret = 0)
    (hw : s.pt.count < 2 ^ s.par.timerWidth) : LatencyOk s where
  high h := by simp [ha] at h
  low h := by simp [ha] at h
  ret _ := by omega
  count h := by simp [ha] at h
  width := hw

/-- After a reset no threshold but 0 is due, and 0 is the least of the two that can be. -/
theorem LatencyOk.of_timerReset {s : State} (hs : LatencyOk s) : LatencyOk (timerReset s) where
  high ha hd hh := by
    have hbefore := hs.high ha hd hh
    have hzero : s.tx.d2 = 0 → s.tx.d1 = 0 := fun h2 => by
      have hd : s.tx.d1.toNat ≤ s.tx.d2.toNat := hd
      rw [h2] at hd
      exact BitVec.eq_of_toNat_eq (Nat.le_zero.mp hd)
    simp only [timerReset_lag, timerReset_par, Lag.settle]
    split_ifs <;> grind
  low ha hd hh := by
    have hbefore := hs.low ha hd hh
    simp only [timerReset_lag, timerReset_par, Lag.settle]
    split_ifs <;> omega
  ret := hs.ret
  count _ := ⟨Nat.zero_le _, Nat.zero_le _⟩
  width := by simp

theorem LatencyOk.of_txStep {s : State} (hs : LatencyOk s) (he : txStepEnabled s = true) : LatencyOk (txStep s) := by
  obtain ⟨ha, _⟩ := (txStepEnabled_iff s).mp he
  rcases txStep_cases s with ⟨hh, e⟩ | ⟨_, _, e⟩ | ⟨_, _, _, e⟩ | ⟨_, _, _, e⟩ <;> rw [e]
  · exact
      { high := fun _ _ h => by cases h
        low := fun _ hd _ => le_trans (hs.high ha hd hh).1 (hs.high ha hd hh).2
        ret := hs.ret
        count := hs.count
        width := hs.width }
  · exact latencyOk_of_idle rfl rfl hs.width
  · exact latencyOk_beginHigh _
  · exact latencyOk_of_idle rfl rfl hs.width

theorem latencyOk_txReturn {s : State} (he : txReturnEnabled s = true) : LatencyOk (txReturn s) :=
  latencyOk_of_idle ((txReturnEnabled_iff s).mp he).2 rfl (by simp)

theorem LatencyOk.of_timerAdvance {s : State} (hs : LatencyOk s) (h : tickAllowed s = true) : LatencyOk (timerAdvance s) where
  high ha hd hh := by
    have hbefore := hs.high ha hd hh
    have hroom := fun h1 => (tickAllowed_of_txStep h ((txStepEnabled_iff s).mpr ⟨ha, .inl ⟨hh, h1⟩⟩)).1 hh
    have hd : s.tx.d1.toNat ≤ s.tx.d2.toNat := hd
    simp only [timerAdvance_lag, timerAdvance_par, Lag.advance]
    split_ifs <;> grind
  low ha hd hh := by
    have hroom := fun h2 => (tickAllowed_of_txStep h ((txStepEnabled_iff s).mpr ⟨ha, .inr ⟨hh, h2⟩⟩)).2.1 hh
    simp only [timerAdvance_lag, timerAdvance_par, Lag.advance]
    split_ifs <;> grind
  ret he := by
    have he : txReturnEnabled s = true := he
    have hroom := tickAllowed_of_txReturn h he
    simp only [timerAdvance_lag, timerAdvance_par, Lag.advance, he, if_true]
    omega
  count ha := by
    have hbefore := hs.count ha
    have hnext := nextCount_le s
    have ha : s.tx.active = true := ha
    simp only [timerAdvance_lag, timerAdvance_pt, timerAdvance_tx, Lag.advance, ha, true_and]
    constructor <;> split_ifs <;> omega
  width := nextCount_lt hs.width

/-! ### The time of the phase -/

theorem phaseOnTime_of_same {s t : State} (hs : phaseOnTime s) (h : SamePhase s t) : phaseOnTime t := by
  unfold phaseOnTime
  rw [h.tx, h.pt, h.par, h.time, h.rise]
  exact hs

theorem phaseOnTime_of_idle {s : State} (h : s.tx.active = false) : phaseOnTime s := by
  intro ha
  simp [h] at ha

theorem phaseOnTime_beginHigh (s : State) : phaseOnTime (beginHigh s) := by
  intro _ _ _ _
  simp [lastRise_append_one]

theorem phaseOnTime_txReturn {s : State} (he : txReturnEnabled s = true) : phaseOnTime (txReturn s) :=
  phaseOnTime_of_idle ((txReturnEnabled_iff s).mp he).2

theorem phaseOnTime_txStep {s : State} (hs : phaseOnTime s) : phaseOnTime (txStep s) := by
  rcases txStep_cases s with ⟨_, e⟩ | ⟨_, _, e⟩ | ⟨_, _, _, e⟩ | ⟨_, _, _, e⟩ <;> rw [e]
  · intro ha hr h1 h2
    simpa [lastRise_append_one] using hs ha hr h1 h2
  · exact phaseOnTime_of_idle rfl
  · exact phaseOnTime_beginHigh _
  · exact phaseOnTime_of_idle rfl

/-- TX_LATENCY is one of the tick-valued parameters (00_scope.md R8). -/
theorem txLatency_lt {p : Params} (hp : p.wellFormed = true) : p.txLatency < 2 ^ p.timerWidth := by
  simp only [Params.wellFormed, Params.ticksOk, Params.tickValued, Bool.and_eq_true, List.all_eq_true,
    decide_eq_true_eq] at hp
  exact hp.2 _ (by simp)

/-- No period wraps the count while both thresholds lie within the timer's range: TX_STEP would be due at the last count, and
to stay due after the wrap its threshold would have to be 0, and so due for longer than TX_LATENCY. -/
theorem nextCount_of_allowed {s : State} (hs : LatencyOk s) (hp : s.par.wellFormed = true) (h : tickAllowed s = true)
    (ha : s.tx.active = true) (hr : s.pt.run = true) (h1 : s.tx.d1.toNat < 2 ^ s.par.timerWidth)
    (h2 : s.tx.d2.toNat < 2 ^ s.par.timerWidth) : nextCount s = s.pt.count + 1 := by
  have hnext : nextCount s = (s.pt.count + 1) % 2 ^ s.par.timerWidth := by simp [nextCount, hr]
  have hwidth := hs.width
  rw [hnext]
  apply Nat.mod_eq_of_lt
  by_contra hwrap
  have hlast : s.pt.count + 1 = 2 ^ s.par.timerWidth := by omega
  rw [hlast, Nat.mod_self] at hnext
  have hlatency := txLatency_lt hp
  have hcount := hs.count ha
  have hdue : txStepEnabled s = true := by
    rw [txStepEnabled_iff]
    cases hh : s.tx.half
    · exact ⟨ha, .inr ⟨rfl, by omega⟩⟩
    · exact ⟨ha, .inl ⟨rfl, by omega⟩⟩
  obtain ⟨hhigh, hlow, hkeeps⟩ := tickAllowed_of_txStep h hdue
  obtain ⟨_, ⟨hh, hd⟩ | ⟨hh, hd⟩⟩ := (txStepEnabled_iff _).mp hkeeps
  · have hd : s.tx.d1.toNat ≤ nextCount s := hd
    have hroom := hhigh hh
    omega
  · have hd : s.tx.d2.toNat ≤ nextCount s := hd
    have hroom := hlow hh
    omega

theorem phaseOnTime_timerAdvance {s : State} (hs : phaseOnTime s) (hl : LatencyOk s) (hp : s.par.wellFormed = true)
    (h : tickAllowed s = true) : phaseOnTime (timerAdvance s) := by
  intro ha hr h1 h2
  have htime := hs ha hr h1 h2
  have hnext := nextCount_of_allowed hl hp h ha hr h1 h2
  simp only [timerAdvance_m, timerAdvance_pt]
  omega

/-! ### Every effect keeps both -/

theorem LatencyOk.of_effect {s t : State} (hs : LatencyOk s) (h : PhaseEffect s t) : LatencyOk t := by
  cases h with
  | kept h => exact hs.of_same h
  | began u h => exact (latencyOk_beginHigh u).of_same h
  | stepped he h => exact (hs.of_txStep he).of_same h
  | returned he h => exact (latencyOk_txReturn he).of_same h
  | ticked he h => exact (hs.of_timerAdvance he).of_same h

theorem phaseOnTime_of_effect {s t : State} (hs : phaseOnTime s) (hl : LatencyOk s) (hp : s.par.wellFormed = true)
    (h : PhaseEffect s t) : phaseOnTime t := by
  cases h with
  | kept h => exact phaseOnTime_of_same hs h
  | began u h => exact phaseOnTime_of_same (phaseOnTime_beginHigh u) h
  | stepped _ h => exact phaseOnTime_of_same (phaseOnTime_txStep hs) h
  | returned he h => exact phaseOnTime_of_same (phaseOnTime_txReturn he) h
  | ticked he h => exact phaseOnTime_of_same (phaseOnTime_timerAdvance hs hl hp he) h

theorem latencyOk_step {s t : State} (hs : LatencyOk s) (h : step s = .next t) : LatencyOk t := by
  obtain ⟨rest, heffect | ⟨_, _, _, hsame⟩⟩ := step_phase h
  · exact (hs.of_same (t := { s with sched := rest }) { SamePhase.refl s with }).of_effect heffect
  · exact (hs.of_same (t := { s with sched := rest }) { SamePhase.refl s with }).of_timerReset.of_same hsame

/-- An enabled edge alone takes a phase off its time (42_encoder.md R156). -/
theorem phaseOnTime_step {s t : State} (hs : phaseOnTime s) (hl : LatencyOk s) (h : step s = .next t)
    (hedge : s.inputEn = false ∨ ∀ dir rest, s.sched ≠ .request (encode (.edge dir)) :: rest) : phaseOnTime t := by
  obtain ⟨rest, heffect | ⟨dir, hsched, hin, _⟩⟩ := step_phase h
  · have hp := step_next_par h
    have hrest : SamePhase s { s with sched := rest } := { SamePhase.refl s with }
    exact phaseOnTime_of_effect (phaseOnTime_of_same hs hrest) (hl.of_same hrest) hp heffect
  · rcases hedge with hoff | hno
    · simp [hoff] at hin
    · exact absurd hsched (hno dir rest)

/-- Settles O39: both predicates are kept by every step, and where the count is the time since the rise, the threshold that is
due and its lag bound that time on both sides. -/
theorem stepsKeepTheLatencyBound : Obligations.StepsKeepTheLatencyBound := by
  refine ⟨fun s t hl h => ⟨latencyOk_step hl h, fun hs hedge => phaseOnTime_step hs hl h hedge⟩, ?_⟩
  intro s hl hs hr he hd h2
  obtain ⟨ha, hdue⟩ := (txStepEnabled_iff s).mp he
  have htime := hs ha hr (by omega) h2
  have hcount := hl.count ha
  constructor <;> intro hh
  · have hlag := hl.high ha hd hh
    have hreached : s.tx.d1.toNat ≤ s.pt.count := by simpa [hh] using hdue
    omega
  · have hlag := hl.low ha hd hh
    have hreached : s.tx.d2.toNat ≤ s.pt.count := by simpa [hh] using hdue
    omega

end Sys2Proof.Machine
end

section
/-! Proofs of the statements of 10_state.md: reset (R47), the bounds of HB.LEN and of the indices (R32), the sets M.FAULT and
M.REFUSED (R44) and the writer of TX.PIN (R40). The lemmas before the last two say once what an operation and a step can do to
the two sets, and when they move the pin. -/

namespace Sys2Proof.Machine

/-! ### Reset (R47) -/

@[simp] theorem resetOf_fault_has (p : Params) (slots : List Event) (c : FaultCode) :
    (State.resetOf p slots).m.fault.has c = false := by
  cases c <;> rfl

@[simp] theorem resetOf_refused_has (p : Params) (slots : List Event) (c : RefuseCode) :
    (State.resetOf p slots).m.refused.has c = false := by
  cases c <;> rfl

/-- Settles O53: the reset state is the witness, and its two sets are empty code by code. -/
theorem resetHoldsTheStatedValues : Obligations.ResetHoldsTheStatedValues := by
  intro p slots
  refine ⟨State.resetOf p slots, rfl, rfl, rfl, rfl, rfl, Memory.read_nil, rfl, rfl, rfl, rfl, rfl, rfl, rfl, rfl, rfl,
    rfl, rfl, rfl, rfl, resetOf_fault_has p slots, resetOf_refused_has p slots, rfl, rfl⟩

/-! ### Bounds and indices (R32, 20_memory.md R51) -/

/-- At the threshold a byte is only dropped, whether the path is armed or not. -/
theorem exec_uartByte_of_threshold_le (b : Byte) {s : State} (h : s.par.hbThreshold ≤ s.hb.len) :
    exec (.uartByte b) s = .next (returning none (emit (.drop .uartDisarmed) s)) := by
  simp only [exec, execUartByte]
  rcases handleByte_cases b s with ⟨_, e⟩ | ⟨_, ⟨_, hlt⟩, _⟩ | ⟨_, _, hlt, _⟩ | ⟨_, _, hlt, _⟩
  · rw [e]; rfl
  all_goals omega

/-- Below the threshold and beyond the array an armed path raises. -/
theorem exec_uartByte_of_hbCap_le (b : Byte) {s : State} (ha : s.hb.armed = true) (ht : s.hb.len < s.par.hbThreshold)
    (h : s.par.hbCap ≤ s.hb.len) : exec (.uartByte b) s = .next (raiseFault .indexRange s) := by
  simp only [exec, execUartByte]
  rcases handleByte_cases b s with ⟨hoff | hge, _⟩ | ⟨_, _, e⟩ | ⟨_, hlt, _⟩ | ⟨_, hlt, _⟩
  · simp [ha] at hoff
  · omega
  · rw [e]; rfl
  all_goals omega

theorem exec_parseHex_of_hbCap_lt {s : State} (h : s.par.hbCap < s.hb.len) :
    exec .parseHex s = .next (raiseFault .indexRange s) := by
  have e : parseAndClear s = .error .indexRange := by rw [parseAndClear_eq, if_neg (by omega)]
  simp only [exec, execParseHex, e, commit_error]

theorem exec_put_of_length_le (e : Event) {s : State} (h : s.q.slot.length ≤ s.q.head) :
    exec (.put e) s = .next (raiseFault .indexRange s) := by
  have e' : putEvent e s = .error .indexRange := by rw [putEvent_eq, if_neg (by omega)]
  simp only [exec, execPut, e', noResult_error, commit_error]

theorem exec_get_of_length_le {s : State} (hne : s.q.head ≠ s.q.tail) (h : s.q.slot.length ≤ s.q.tail) :
    exec .get s = .next (raiseFault .indexRange s) := by
  have e : getEvent s = .error .indexRange := by
    rcases getEvent_cases s with ⟨hq, _⟩ | ⟨_, _, e⟩ | ⟨_, _, he, _⟩
    · exact absurd (beq_iff_eq.mp hq) hne
    · exact e
    · simp [List.getElem?_eq_none h] at he
  simp only [exec, execGet, e, commit_error]

/-- Settles O26, one lemma for each clause. -/
theorem indexesBeyondTheirBoundsTouchNothing : Obligations.IndexesBeyondTheirBoundsTouchNothing :=
  ⟨fun b _ h => exec_uartByte_of_threshold_le b h, fun b _ ha ht h => exec_uartByte_of_hbCap_le b ha ht h,
    fun _ h => exec_parseHex_of_hbCap_lt h, fun e _ h => exec_put_of_length_le e h, fun _ hne h => exec_get_of_length_le hne h⟩

/-! ### The sets M.FAULT and M.REFUSED (R44) -/

theorem FaultSet.has_add (c d : FaultCode) (f : FaultSet) : (f.add c).has d = (decide (d = c) || f.has d) := by
  cases c <;> cases d <;> rfl

theorem RefuseSet.has_add (c d : RefuseCode) (r : RefuseSet) : (r.add c).has d = (decide (d = c) || r.has d) := by
  cases c <;> cases d <;> rfl

/-- `t` has the two sets of `s`. -/
structure SameMarks (s t : State) : Prop where
  fault : t.m.fault = s.m.fault
  refused : t.m.refused = s.m.refused

theorem SameMarks.refl (s : State) : SameMarks s s := ⟨rfl, rfl⟩

theorem SameMarks.trans {s t u : State} (h : SameMarks s t) (h' : SameMarks t u) : SameMarks s u :=
  ⟨h'.fault.trans h.fault, h'.refused.trans h.refused⟩

theorem sameMarks_put {e : Event} {s t : State} (h : putEvent e s = .ok t) : SameMarks s t := by
  obtain ⟨_, rfl⟩ := (putEvent_ok_iff _ _ _).mp h
  exact ⟨rfl, rfl⟩

theorem sameMarks_handleEdge {dir : Dir} {s t : State} (h : handleEdge dir s = .ok t) : SameMarks s t := by
  rw [handleEdge_eq] at h
  split at h
  · cases h; exact ⟨rfl, rfl⟩
  · exact { sameMarks_put h with }

theorem sameMarks_handleByte {b : Byte} {s t : State} (h : handleByte b s = .ok t) : SameMarks s t := by
  rcases handleByte_cases b s with ⟨_, e⟩ | ⟨_, _, e⟩ | ⟨_, _, _, e⟩ | ⟨_, _, _, e⟩ <;> rw [e] at h
  · cases h; exact ⟨rfl, rfl⟩
  · cases h
  · cases h; exact ⟨rfl, rfl⟩
  · exact { sameMarks_put h with }

theorem sameMarks_parseAndClear {s t : State} {r : Option Word16} (h : parseAndClear s = .ok (r, t)) : SameMarks s t := by
  rw [parseAndClear_eq] at h
  split at h
  · split at h <;> cases h <;> exact ⟨rfl, rfl⟩
  · cases h

theorem sameMarks_getEvent {s t : State} {e : Event} (h : getEvent s = .ok (e, t)) : SameMarks s t := by
  rcases getEvent_cases s with ⟨_, e'⟩ | ⟨_, _, e'⟩ | ⟨_, _, _, e'⟩ <;> rw [e'] at h <;> cases h
  exact ⟨rfl, rfl⟩

theorem sameMarks_onBit (b : Bool) (s : State) : SameMarks s (onBit b s) := by
  by_cases hb : s.dec.tick.toNat < 12
  · rw [onBit_count b hb]; exact ⟨rfl, rfl⟩
  · rw [onBit_materialise b (by omega)]; exact ⟨rfl, rfl⟩

theorem sameMarks_onUartReady {s t : State} (h : onUartReady s = .ok t) : SameMarks s t := by
  rw [onUartReady_eq] at h
  split at h
  · split at h <;> cases h <;> exact ⟨rfl, rfl⟩
  · cases h

theorem sameMarks_dispatchOne {s t : State} (h : dispatchOne s = .ok t) : SameMarks s t := by
  unfold dispatchOne at h
  split at h
  case h_1 => cases h
  case h_2 hg => cases h; exact (sameMarks_getEvent hg).trans ⟨rfl, rfl⟩
  case h_3 hg => cases h; exact (sameMarks_getEvent hg).trans (sameMarks_onBit _ _)
  case h_4 hg => cases h; exact (sameMarks_getEvent hg).trans (sameMarks_onBit _ _)
  case h_5 hg => exact (sameMarks_getEvent hg).trans (sameMarks_onUartReady h)

theorem sameMarks_txStep (s : State) : SameMarks s (txStep s) := by
  rcases txStep_cases s with ⟨_, e⟩ | ⟨_, _, e⟩ | ⟨_, _, _, e⟩ | ⟨_, _, _, e⟩ <;> rw [e] <;> exact ⟨rfl, rfl⟩

theorem sameMarks_urgentStep (s : State) : SameMarks s (urgentStep s) := by
  unfold urgentStep
  split
  · exact sameMarks_txStep s
  split
  · exact ⟨rfl, rfl⟩
  · exact .refl s

/-- What an operation can do to the two sets: leave both, raise with all else discarded, or refuse with all else left
(60_exceptions.md R254, R255). -/
inductive MarksEffect (s t : State) : Prop where
  | kept (h : SameMarks s t)
  | raised (c : FaultCode) (h : t = raiseFault c s)
  | refused (c : RefuseCode) (h : t = refuse c s)

/-- An operation that keeps the sets where it answers at most raises. -/
theorem MarksEffect.of_commit {s : State} {r : Except FaultCode (State × Option Result)}
    (h : ∀ t res, r = .ok (t, res) → SameMarks s t) : MarksEffect s (commit s r) := by
  cases r with
  | ok a => exact .kept (.trans (h a.1 a.2 rfl) ⟨rfl, rfl⟩)
  | error c => exact .raised c rfl

theorem MarksEffect.of_commit_noResult {s : State} {r : Except FaultCode State} (h : ∀ t, r = .ok t → SameMarks s t) :
    MarksEffect s (commit s (noResult r)) := by
  cases r with
  | ok t => exact .of_commit fun _ _ e => by cases e; exact h t rfl
  | error c => exact .raised c rfl

theorem exec_marks {i : Instr} {s t : State} (h : exec i s = .next t) : MarksEffect s t := by
  cases i <;> (simp only [exec] at h; injection h with h; subst h)
  case reserved => exact .refused _ rfl
  case edge dir =>
    split
    · exact .of_commit_noResult fun _ => sameMarks_handleEdge
    · exact .kept ⟨rfl, rfl⟩
  case put e => exact .of_commit_noResult fun _ => sameMarks_put
  case get =>
    refine .of_commit fun u _ hu => ?_
    split at hu <;> cases hu
    exact sameMarks_getEvent (by assumption)
  case uartByte b => exact .of_commit_noResult fun _ => sameMarks_handleByte
  case parseHex =>
    refine .of_commit fun u _ hu => ?_
    split at hu <;> cases hu
    exact sameMarks_parseAndClear (by assumption)
  case transmit =>
    split
    · exact .refused _ rfl
    · exact .kept ⟨rfl, rfl⟩
  case outTick =>
    split
    · exact .refused _ rfl
    · exact .kept ⟨rfl, rfl⟩
  case dispatch =>
    split
    · exact .refused _ rfl
    split
    · exact .kept ⟨rfl, rfl⟩
    · exact .of_commit_noResult fun _ => sameMarks_dispatchOne
  case timerTick =>
    split
    · exact .kept ⟨rfl, rfl⟩
    · exact .kept ((sameMarks_urgentStep s).trans ⟨rfl, rfl⟩)
  all_goals exact .kept ⟨rfl, rfl⟩

/-- Every step, on the state with some rest of the schedule. -/
theorem step_marks {s t : State} (h : step s = .next t) : ∃ rest : List Move, MarksEffect { s with sched := rest } t := by
  obtain ⟨_, rest, ⟨i, hi⟩ | rfl | rfl | ⟨_, rfl⟩ | ⟨_, rfl⟩⟩ := step_next_cases h
  · exact ⟨rest, exec_marks hi⟩
  · exact ⟨rest, .refused _ rfl⟩
  · exact ⟨rest, .kept ⟨rfl, rfl⟩⟩
  · exact ⟨rest, .kept (.trans (sameMarks_txStep _) ⟨rfl, rfl⟩)⟩
  · exact ⟨rest, .kept ⟨rfl, rfl⟩⟩

/-- No effect takes a code from either set: the only writes to them add one. -/
theorem MarksEffect.has_of_has {s t : State} (h : MarksEffect s t) :
    (∀ c, s.m.fault.has c = true → t.m.fault.has c = true) ∧ ∀ c, s.m.refused.has c = true → t.m.refused.has c = true := by
  cases h with
  | kept h => rw [h.fault, h.refused]; exact ⟨fun _ => id, fun _ => id⟩
  | raised c h => subst h; exact ⟨fun d hd => by simp [FaultSet.has_add, hd], fun _ => id⟩
  | refused c h => subst h; exact ⟨fun _ => id, fun d hd => by simp [RefuseSet.has_add, hd]⟩

/-- Settles O57: a step leaves both sets or adds a code. -/
theorem noStepClearsFaultsOrRefusals : Obligations.NoStepClearsFaultsOrRefusals := by
  intro s t h
  obtain ⟨_, heffect⟩ := step_marks h
  exact heffect.has_of_has

/-! ### The writer of TX.PIN (R40, 60_exceptions.md R267) -/

/-- The last entry of M.OUT is a Pin entry for the level and the time that `t` has. -/
def PinRecorded (t : State) : Prop := ∃ before, t.m.out = before ++ [.pin t.tx.pin t.m.time]

theorem PinRecorded.of_returning {t : State} (h : PinRecorded t) (r : Option Result) : PinRecorded (returning r t) := h

theorem pinRecorded_beginHigh (s : State) : PinRecorded (beginHigh s) := ⟨s.m.out, rfl⟩

theorem pinRecorded_startFrame (c : Word16) (s : State) : PinRecorded (startFrame c s) := ⟨s.m.out, rfl⟩

theorem pinRecorded_startSingle (d1 d2 : Word16) (s : State) : PinRecorded (startSingle d1 d2 s) := ⟨s.m.out, rfl⟩

theorem pinRecorded_transmitting (c : Word16) (s : State) : PinRecorded (transmitting c s) :=
  ⟨s.m.out ++ [.txReport c], rfl⟩

/-- TX_STEP records the level that it drives; where it ends the run, it drives none (42_encoder.md R146). -/
theorem txStep_pin (s : State) : (txStep s).tx.pin = s.tx.pin ∨ PinRecorded (txStep s) := by
  rcases txStep_cases s with ⟨_, e⟩ | ⟨_, _, e⟩ | ⟨_, _, _, e⟩ | ⟨_, _, _, e⟩ <;> rw [e]
  · exact .inr ⟨s.m.out, rfl⟩
  · exact .inl rfl
  · exact .inr (pinRecorded_beginHigh _)
  · exact .inl rfl

theorem urgentStep_pin (s : State) : (urgentStep s).tx.pin = s.tx.pin ∨ PinRecorded (urgentStep s) := by
  unfold urgentStep
  split
  · exact txStep_pin s
  split <;> exact .inl rfl

/-- A request that starts the engine leaves the pin where it is refused, and records its rise where it is not. -/
theorem exec_startsEngine_pin {i : Instr} {s t : State} (h : exec i s = .next t) (hi : startsEngine i = true) :
    t.tx.pin = s.tx.pin ∨ PinRecorded t := by
  rcases exec_startsEngine h hi with ⟨_, rfl⟩ | ⟨_, ⟨c, rfl⟩ | ⟨d1, d2, rfl⟩⟩
  · exact .inl rfl
  · exact .inr ((pinRecorded_startFrame c s).of_returning none)
  · exact .inr ((pinRecorded_startSingle d1 d2 s).of_returning none)

/-- A DISPATCH moves the pin only where it begins a transmission. -/
theorem execDispatch_pin {s t : State} (h : execDispatch s = .next t) : t.tx.pin = s.tx.pin ∨ PinRecorded t := by
  rcases execDispatch_cases h with ⟨_, hkeeps, _⟩ | ⟨_, ⟨c, rfl⟩ | ⟨u, hu, rfl⟩⟩
  · exact .inl (congrArg Encoder.pin hkeeps.tx)
  · exact .inl rfl
  · obtain ⟨_, hkeeps | ⟨c, rfl⟩⟩ := dispatchOne_cases hu
    · exact .inl (congrArg Encoder.pin hkeeps.tx)
    · exact .inr ((pinRecorded_transmitting c _).of_returning none)

theorem execTimerTick_pin {s t : State} (h : execTimerTick s = .next t) : t.tx.pin = s.tx.pin ∨ PinRecorded t := by
  unfold execTimerTick at h
  injection h with h
  subst h
  split
  · exact .inl rfl
  · exact urgentStep_pin s

/-- An operation leaves the pin, or is one of the four that move it and records the move. -/
theorem exec_pin {i : Instr} {s t : State} (h : exec i s = .next t) :
    t.tx.pin = s.tx.pin ∨ ((startsEngine i = true ∨ i = .dispatch ∨ i = .timerTick) ∧ PinRecorded t) := by
  by_cases hd : i = .dispatch
  · subst hd; exact (execDispatch_pin h).imp_right fun hrec => ⟨.inr (.inl rfl), hrec⟩
  by_cases ht : i = .timerTick
  · subst ht; exact (execTimerTick_pin h).imp_right fun hrec => ⟨.inr (.inr rfl), hrec⟩
  cases hi : startsEngine i
  · exact .inl (congrArg Encoder.pin (exec_keepsEngine h hi hd ht).tx)
  · exact (exec_startsEngine_pin h hi).imp_right fun hrec => ⟨.inl rfl, hrec⟩

theorem startsEngine_iff (i : Instr) :
    startsEngine i = true ↔ (∃ c, i = .transmit c) ∨ ∃ d1 d2, i = .outTick d1 d2 := by
  cases i <;> simp [startsEngine]

/-- A step leaves the pin, or is a TX_STEP, a DISPATCH or a request that starts the engine and records the move: a period of
the timer, a TX_RETURN and every other request leave the engine's pin. -/
theorem step_pin {s t : State} (h : step s = .next t) :
    t.tx.pin = s.tx.pin ∨
      ((stepTaken s = some .txStep ∨ stepTaken s = some .dispatch ∨
          ∃ w rest i, s.sched = .request w :: rest ∧ decode w = .ok i ∧ startsEngine i = true) ∧
        PinRecorded t) := by
  cases hk : stepTaken s with
  | some k =>
    obtain ⟨_, rest, _, hstep⟩ := step_of_taken (step_next_par h) hk
    rw [hstep] at h
    cases k <;> simp only [Host.Outcome.next.injEq] at h
    case timerTick => subst h; exact .inl rfl
    case txReturn => subst h; exact .inl rfl
    case txStep => subst h; exact (txStep_pin { s with sched := rest }).imp_right fun hrec => ⟨.inl rfl, hrec⟩
    case dispatch => exact (execDispatch_pin h).imp_right fun hrec => ⟨.inr (.inl rfl), hrec⟩
  | none =>
    obtain ⟨rest, _, ⟨w, i, hs, hd, hi, hexec⟩ | hkeeps⟩ := step_untaken h hk
    · exact (exec_startsEngine_pin hexec hi).imp_right fun hrec => ⟨.inr (.inr ⟨w, rest, i, hs, hd, hi⟩), hrec⟩
    · exact .inl (congrArg Encoder.pin hkeeps.tx)

/-- Settles O60: where the pin moves, `exec_pin` and `step_pin` leave only their second case. -/
theorem onlyTheEngineMovesThePin : Obligations.OnlyTheEngineMovesThePin := by
  refine ⟨fun i s t h hmoved => ?_, fun s t h hmoved => (step_pin h).resolve_left hmoved⟩
  obtain ⟨hi, hrec⟩ := (exec_pin h).resolve_left hmoved
  refine ⟨?_, hrec⟩
  rw [startsEngine_iff, or_assoc] at hi
  exact hi

end Sys2Proof.Machine
end

section
/-! Proofs of the statements of 30_encoding.md: the encoder and the decoder of request words are inverse (R81, R82), the decoder
agrees with the opcode table (R83), and a numeral of hex digits parses to its value (R77, R78). The table is compared with the
decoder through the operand bits that each row leaves free, named once in `freeBits`. -/

namespace Sys2Proof.Machine

/-! ### Decoding what was encoded (R81, R82) -/

/-- A byte in a field of 16 bits leaves the bits above it 0, and is the field's low byte. -/
theorem zeroExtend_byte (b : Byte) : (b.zeroExtend 16) >>> 8 = 0 ∧ (b.zeroExtend 16).extractLsb' 0 8 = b := by
  constructor <;> apply BitVec.eq_of_toNat_eq
  · simp [Nat.shiftRight_eq_div_pow]; omega
  · simp [BitVec.extractLsb'_toNat]; omega

/-- No operand bit is lost between the encoder and the decoder: each row's field test passes on its own operands. -/
theorem decode_encode (i : Instr) : decode (encode i) = .ok i := by
  cases i with
  | reserved operands =>
    rw [encode, decode_reqWord]
    exact congrArg (fun x => Except.ok (Instr.reserved x)) (operands_split operands)
  | classify dir elapsed => rw [encode, decode_reqWord]; cases dir <;> rfl
  | edge dir => cases dir <;> rfl
  | applyBit bit => cases bit <;> rfl
  | put event => cases event <;> rfl
  | uartByte byte =>
    obtain ⟨hhigh, hlow⟩ := zeroExtend_byte byte
    rw [encode, decode_reqWord]
    simp [decodeFields, decodeIf, hhigh, hlow]
  | transmit command => rw [encode, decode_reqWord]; rfl
  | outTick d1 d2 => rw [encode, decode_reqWord]; rfl
  | beginFrame => rfl
  | get => rfl
  | empty => rfl
  | full => rfl
  | qreset => rfl
  | parseHex => rfl
  | dispatch => rfl
  | timerTick => rfl

/-- Settles O1. -/
theorem decodeOfEncodeIsIdentity : Obligations.DecodeOfEncodeIsIdentity := decode_encode

/-- Settles O4: each of the eight words is the encoder's word of its operation. -/
theorem wordsOfTheMapDecodeToTheirOperations : Obligations.WordsOfTheMapDecodeToTheirOperations :=
  ⟨decode_encode (.classify .rising 300), decode_encode (.edge .falling), decode_encode (.applyBit true),
    decode_encode (.put .frameStart), decode_encode (.uartByte 0x78), decode_encode (.transmit 0xF1A2),
    decode_encode (.outTick 300 400), decode_encode .timerTick⟩

/-! ### Encoding what was decoded (R83) -/

/-- The direction read from a field with only bit 0 free is coded back as that field (R70). -/
theorem dirCode_zeroExtend {a : Word16} (h : a >>> 1 = 0) : (Dir.ofBit (a.getLsbD 0)).code.zeroExtend 16 = a := by
  rcases one_bit h with rfl | rfl <;> rfl

theorem ofBool_zeroExtend {b : Word16} (h : b >>> 1 = 0) : (BitVec.ofBool (b.getLsbD 0)).zeroExtend 16 = b := by
  rcases one_bit h with rfl | rfl <;> rfl

/-- The Event read from a field with only two bits free is coded back as that field (R72). -/
theorem eventCode_zeroExtend {b : Word16} (h : b >>> 2 = 0) : (Event.ofCode (b.extractLsb' 0 2)).code.zeroExtend 16 = b := by
  rw [Event.code_ofCode, zeroExtend_low h]

/-- The operands of the reserved row are coded back as the two fields they came from. -/
theorem encode_reserved_append (a b : Word16) : encode (.reserved (a ++ b)) = reqWord 0x0 a b := by
  rw [encode, BitVec.extractLsb'_append_eq_left, BitVec.extractLsb'_append_eq_right]

/-- One row accepts only the word of its operation, when the encoder builds that word from clear operand bits. -/
theorem encode_of_decodeIf {op p : BitVec 4} {a b : Word16} {clear : Bool} {i j : Instr} (hop : op.toNat = p.toNat)
    (h : decodeIf op clear i = .ok j) (henc : clear = true → encode i = reqWord p a b) : encode j = reqWord op a b := by
  obtain ⟨hclear, rfl⟩ := decodeIf_ok h
  rw [henc hclear, BitVec.eq_of_toNat_eq hop]

/-- The test of a row that tests both fields, read as two equations. -/
theorem fields_of_clear {x y : Word16} (h : (x == 0 && y == 0) = true) : x = 0 ∧ y = 0 := by
  simpa only [Bool.and_eq_true, beq_iff_eq] using h

/-- A row with no operands builds its word from clear fields. -/
theorem reqWord_of_clear (p : BitVec 4) {a b : Word16} (h : (a == 0 && b == 0) = true) : reqWord p 0 0 = reqWord p a b := by
  obtain ⟨rfl, rfl⟩ := fields_of_clear h
  rfl

theorem encode_of_decodeFields {op : BitVec 4} {a b : Word16} {i : Instr} (h : decodeFields op a b = .ok i) :
    encode i = reqWord op a b := by
  have hlt := op.isLt
  unfold decodeFields at h
  split at h
  case h_1 hop =>
    cases h
    rw [encode_reserved_append, show op = 0x0 from BitVec.eq_of_toNat_eq hop]
  case h_2 hop => exact encode_of_decodeIf (p := 0x1) hop h fun hc => by rw [encode, dirCode_zeroExtend (eq_of_beq hc)]
  case h_3 hop =>
    refine encode_of_decodeIf (p := 0x2) hop h fun hc => ?_
    obtain ⟨ha, hb⟩ := fields_of_clear hc
    rw [encode, dirCode_zeroExtend ha, hb]
  case h_4 hop => exact encode_of_decodeIf (p := 0x3) hop h (reqWord_of_clear _)
  case h_5 hop =>
    refine encode_of_decodeIf (p := 0x4) hop h fun hc => ?_
    obtain ⟨ha, hb⟩ := fields_of_clear hc
    rw [encode, ofBool_zeroExtend hb, ha]
  case h_6 hop =>
    refine encode_of_decodeIf (p := 0x5) hop h fun hc => ?_
    obtain ⟨ha, hb⟩ := fields_of_clear hc
    rw [encode, eventCode_zeroExtend hb, ha]
  case h_7 hop => exact encode_of_decodeIf (p := 0x6) hop h (reqWord_of_clear _)
  case h_8 hop => exact encode_of_decodeIf (p := 0x7) hop h (reqWord_of_clear _)
  case h_9 hop => exact encode_of_decodeIf (p := 0x8) hop h (reqWord_of_clear _)
  case h_10 hop => exact encode_of_decodeIf (p := 0x9) hop h (reqWord_of_clear _)
  case h_11 hop =>
    refine encode_of_decodeIf (p := 0xA) hop h fun hc => ?_
    obtain ⟨ha, hb⟩ := fields_of_clear hc
    rw [encode, zeroExtend_low hb, ha]
  case h_12 hop => exact encode_of_decodeIf (p := 0xB) hop h (reqWord_of_clear _)
  case h_13 hop => exact encode_of_decodeIf (p := 0xC) hop h fun hc => by rw [encode, eq_of_beq hc]
  case h_14 hop =>
    cases h
    rw [encode, show op = 0xD from BitVec.eq_of_toNat_eq hop]
  case h_15 hop => exact encode_of_decodeIf (p := 0xE) hop h (reqWord_of_clear _)
  case h_16 =>
    have hop : op.toNat = 15 := by
      simp only [imp_false] at *
      omega
    exact encode_of_decodeIf (p := 0xF) hop h (reqWord_of_clear _)

theorem encode_of_decode {w : ReqWord} {i : Instr} (h : decode w = .ok i) : encode i = w := by
  rw [encode_of_decodeFields h, reqWord_fields]

/-- Settles O2. -/
theorem encodeOfDecodeIsIdentity : Obligations.EncodeOfDecodeIsIdentity := fun _ _ h => encode_of_decode h

/-! ### The decoder and the opcode table (R83) -/

/-- How many low bits of A and of B the row of an OP leaves free (R81). -/
def freeBits (op : BitVec 4) : Nat × Nat :=
  match op.toNat with
  | 0x0 => (16, 16)
  | 0x1 => (1, 16)
  | 0x2 => (1, 0)
  | 0x4 => (0, 1)
  | 0x5 => (0, 2)
  | 0xA => (0, 8)
  | 0xC => (0, 16)
  | 0xD => (16, 16)
  | _ => (0, 0)

/-- Every operand bit that the row of `op` wants 0 is 0. -/
def OperandsFit (op : BitVec 4) (a b : Word16) : Prop := a >>> (freeBits op).1 = 0 ∧ b >>> (freeBits op).2 = 0

theorem exists_decodeIf_ok_iff (op : BitVec 4) (clear : Bool) (i : Instr) :
    (∃ j, decodeIf op clear i = .ok j) ↔ clear = true := by
  cases clear <;> simp [decodeIf]

/-- A word is accepted exactly when its operand bits fit the row of its OP: one case for each OP. -/
theorem exists_decodeFields_ok_iff (op : BitVec 4) (a b : Word16) :
    (∃ i, decodeFields op a b = .ok i) ↔ OperandsFit op a b := by
  have hnone : ∀ x : Word16, x >>> 16 = 0#16 := fun x => BitVec.ushiftRight_eq_zero le_rfl
  obtain ⟨⟨n, hn⟩⟩ := op
  interval_cases n <;> simp [decodeFields, exists_decodeIf_ok_iff, OperandsFit, freeBits, hnone]

/-- Every row tests all of OP, wants 0 outside OP, and masks the operand bits from the free ones up. -/
theorem opcodeTable_fields : ∀ r ∈ opcodeTable,
    reqOp r.mask = 0xF ∧ reqA r.pattern = 0 ∧ reqB r.pattern = 0 ∧
      ∀ i, i < 16 → (reqA r.mask).getLsbD i = decide ((freeBits (reqOp r.pattern)).1 ≤ i) ∧
        (reqB r.mask).getLsbD i = decide ((freeBits (reqOp r.pattern)).2 ≤ i) := by
  decide

/-- The OP of a row determines the row. -/
theorem row_eq_of_op_eq : ∀ r ∈ opcodeTable, ∀ r' ∈ opcodeTable, reqOp r.pattern = reqOp r'.pattern → r = r' := by
  decide

/-- A row covers the words of its OP whose operand bits fit. -/
theorem covers_iff {r : OpRow} (hr : r ∈ opcodeTable) (w : ReqWord) :
    r.covers w = true ↔ reqOp w = reqOp r.pattern ∧ OperandsFit (reqOp r.pattern) (reqA w) (reqB w) := by
  obtain ⟨hop, ha, hb, hmask⟩ := opcodeTable_fields r hr
  have hall : reqOp w &&& 0xF = reqOp w := BitVec.and_allOnes
  refine (covers_fields r.mnemonic r.pattern r.mask w).trans ?_
  rw [hop, ha, hb, hall, and_high _ _ _ fun i hi => (hmask i hi).1, and_high _ _ _ fun i hi => (hmask i hi).2, OperandsFit]

/-- A word that a row covers is accepted. -/
theorem exists_decode_ok_of_covers {r : OpRow} {w : ReqWord} (hr : r ∈ opcodeTable) (h : r.covers w = true) :
    ∃ i, decode w = .ok i := by
  obtain ⟨hop, hfit⟩ := (covers_iff hr w).mp h
  exact (exists_decodeFields_ok_iff _ _ _).mpr (hop ▸ hfit)

theorem row_unique {r r' : OpRow} {w : ReqWord} (hr : r ∈ opcodeTable) (hr' : r' ∈ opcodeTable) (h : r.covers w = true)
    (h' : r'.covers w = true) : r' = r :=
  row_eq_of_op_eq r' hr' r hr (((covers_iff hr' w).mp h').1.symm.trans ((covers_iff hr w).mp h).1)

theorem row_of_encode (i : Instr) : Laws.Row.Statement i := by
  cases i with
  | reserved operands => exact Laws.Row.reserved operands
  | classify dir elapsed => exact Laws.Row.classify dir elapsed
  | edge dir => exact Laws.Row.edge dir
  | beginFrame => exact Laws.Row.beginFrame
  | applyBit bit => exact Laws.Row.applyBit bit
  | put event => exact Laws.Row.put event
  | get => exact Laws.Row.get
  | empty => exact Laws.Row.empty
  | full => exact Laws.Row.full
  | qreset => exact Laws.Row.qreset
  | uartByte byte => exact Laws.Row.uartByte byte
  | parseHex => exact Laws.Row.parseHex
  | transmit command => exact Laws.Row.transmit command
  | outTick d1 d2 => exact Laws.Row.outTick d1 d2
  | dispatch => exact Laws.Row.dispatch
  | timerTick => exact Laws.Row.timerTick

/-- An accepted word is covered by the row of the operation it decodes to, since it is that operation's word. -/
theorem exists_row_of_decode {w : ReqWord} {i : Instr} (h : decode w = .ok i) :
    ∃ r ∈ opcodeTable, r.mnemonic = i.mnemonic ∧ r.covers w = true :=
  encode_of_decode h ▸ row_of_encode i

/-- Settles O3: an accepted word has its operation's row and no other, and a row that covered a rejected word would make the
decoder accept it. -/
theorem everyWordIsExactlyOneRowOrRejected : Obligations.EveryWordIsExactlyOneRowOrRejected := by
  intro w
  cases hd : decode w with
  | ok i =>
    obtain ⟨r, hr, hname, hcovers⟩ := exists_row_of_decode hd
    exact .inl ⟨i, rfl, r, hr, hcovers, hname, fun r' hr' h' => row_unique hr hr' hcovers h'⟩
  | error e =>
    refine .inr ⟨⟨e, rfl⟩, fun r hr => Bool.eq_false_iff.mpr fun hcovers => ?_⟩
    obtain ⟨i, hi⟩ := exists_decode_ok_of_covers hr hcovers
    simp [hd] at hi

/-! ### Refused words (R83, 60_exceptions.md R255) -/

theorem decode_of_op_zero {w : ReqWord} (h : reqOp w = 0) : decode w = .ok (.reserved (reqA w ++ reqB w)) := by
  rw [decode, h]; rfl

theorem decode_error_of_uncovered {w : ReqWord} (h : ∀ r ∈ opcodeTable, r.covers w = false) : ∃ e, decode w = .error e := by
  cases hd : decode w with
  | error e => exact ⟨e, rfl⟩
  | ok i =>
    obtain ⟨r, hr, _, hcovers⟩ := exists_row_of_decode hd
    simp [h r hr] at hcovers

/-- Settles O6: a word of OP 0x0 is the reserved operation and a word of no row is rejected, and both are refused. -/
theorem illegalWordsOnlyMarkRefused : Obligations.IllegalWordsOnlyMarkRefused := by
  refine ⟨fun _ _ => rfl, fun w rest s hp hs hw => ?_⟩
  rw [step_request hp hs, runWord]
  rcases hw with hop | hrow
  · rw [decode_of_op_zero hop]; rfl
  · obtain ⟨e, he⟩ := decode_error_of_uncovered hrow
    rw [he]; rfl

/-! ### Hex numerals (R77, R78, 43_hexparse.md R174) -/

/-- A byte outside the three ranges of R77 is no hex digit. -/
theorem hexValue_eq_none {b : Byte} (hdec : ¬(0x30 ≤ b.toNat ∧ b.toNat ≤ 0x39)) (hlow : ¬(0x61 ≤ b.toNat ∧ b.toNat ≤ 0x66))
    (hup : ¬(0x41 ≤ b.toNat ∧ b.toNat ≤ 0x46)) : hexValue b = none := by
  simp [hexValue, BitVec.le_def, -not_and, hdec, hlow, hup]

theorem digitsValue_append_one (ds : List Byte) (d : Byte) :
    digitsValue (ds ++ [d]) = digitsValue ds * 16 + (hexValue d).getD 0 := by
  simp [digitsValue]

/-- The bytes of a numeral: hex digits, and the terminator is not among them. -/
def IsNumeral (term : Byte) (ds : List Byte) : Prop := ∀ d ∈ ds, d ≠ term ∧ (hexValue d).isSome = true

theorem scanHex_cons {term d : Byte} (hne : d ≠ term) (hd : (hexValue d).isSome = true) (rest : List Byte) (v w : Nat) :
    scanHex term (d :: rest) v w = scanHex term rest (v + (hexValue d).getD 0 * w) (w * 16) := by
  obtain ⟨x, hx⟩ := Option.isSome_iff_exists.mp hd
  simp [scanHex, hne, hx]

/-- The backward scan adds the value of a whole numeral, at the weight it starts with, and goes on before it. -/
theorem scanHex_digits {term : Byte} (ds rest : List Byte) (hds : IsNumeral term ds) (v w : Nat) :
    scanHex term (ds.reverse ++ rest) v w = scanHex term rest (v + digitsValue ds * w) (w * 16 ^ ds.length) := by
  induction ds using List.reverseRecOn generalizing v w with
  | nil => simp [digitsValue]
  | append_singleton ds d ih =>
    obtain ⟨hne, hd⟩ := hds d (by simp)
    have hrest : IsNumeral term ds := fun x hx => hds x (by simp [hx])
    rw [List.reverse_append, List.reverse_singleton, List.singleton_append, List.cons_append, scanHex_cons hne hd,
      ih hrest, digitsValue_append_one, List.length_append, List.length_singleton]
    congr 1 <;> ring

/-- A parse reads the numeral at the end of the buffer when the scan stops before it. -/
theorem parseHex_append_digits {term : Byte} (before : List Byte) {ds : List Byte} (hne : ds ≠ []) (hds : IsNumeral term ds)
    (hstop : ∀ v w, scanHex term before.reverse v w = .ok v) :
    parseHex term (before ++ ds) = .ok (BitVec.ofNat 16 (digitsValue ds)) := by
  have hscan : scanHex term (before ++ ds).reverse 0 1 = .ok (digitsValue ds) := by
    rw [List.reverse_append, scanHex_digits ds before.reverse hds, hstop]
    simp
  obtain ⟨init, d, rfl⟩ := (List.eq_nil_or_concat' ds).resolve_left hne
  have hlast : d ≠ term := (hds d (by simp)).1
  have hrev : (before ++ (init ++ [d])).reverse = d :: (init.reverse ++ before.reverse) := by simp
  rw [hrev] at hscan
  rw [parseHex, hrev]
  simp [hlast, hscan]

/-- Settles O28: the scan stops at the terminator before the digits, or past index 0. -/
theorem parseReadsTheNumeralAfterTheLastTerminator : Obligations.ParseReadsTheNumeralAfterTheLastTerminator := by
  refine ⟨by decide, by decide, fun _ => hexValue_eq_none, fun term before ds hne hds => ⟨?_, ?_⟩⟩
  · rw [List.append_cons]
    exact parseHex_append_digits _ hne hds fun v w => by simp [scanHex]
  · exact parseHex_append_digits [] hne hds fun v w => rfl

end Sys2Proof.Machine
end

section
/-! Proofs of the statements of 40_classifier.md: the Symbol of CLASSIFY, one lemma for each window (R100 to R103), and what an
edge does while the input is enabled (R104 to R106) and while it is not (R107). -/

namespace Sys2Proof.Machine

/-! ### The windows (R101, R102) -/

theorem classifyEdge_rising (p : Params) (e : Nat) :
    classifyEdge p .rising e = if p.hdrLo < e ∧ e < p.hdrHi then .header else .invalid := rfl

theorem classifyEdge_falling (p : Params) (e : Nat) :
    classifyEdge p .falling e =
      if p.oneLo < e ∧ e < p.oneHi then .bitOne else if p.zeroLo < e ∧ e < p.zeroHi then .bitZero else .invalid := rfl

theorem classifyEdge_eq_header_iff (p : Params) (dir : Dir) (e : Nat) :
    classifyEdge p dir e = .header ↔ dir = .rising ∧ p.hdrLo < e ∧ e < p.hdrHi := by
  cases dir with
  | rising => rw [classifyEdge_rising]; split <;> simp [*]
  | falling => rw [classifyEdge_falling]; split_ifs <;> simp

theorem classifyEdge_eq_bitOne_iff (p : Params) (dir : Dir) (e : Nat) :
    classifyEdge p dir e = .bitOne ↔ dir = .falling ∧ p.oneLo < e ∧ e < p.oneHi := by
  cases dir with
  | rising => rw [classifyEdge_rising]; split <;> simp
  | falling => rw [classifyEdge_falling]; split_ifs <;> simp [*]

/-- Where the windows of the two bits overlap, BitOne is tested first (R102). -/
theorem classifyEdge_eq_bitZero_iff (p : Params) (dir : Dir) (e : Nat) :
    classifyEdge p dir e = .bitZero ↔
      dir = .falling ∧ ¬(p.oneLo < e ∧ e < p.oneHi) ∧ p.zeroLo < e ∧ e < p.zeroHi := by
  cases dir with
  | rising => rw [classifyEdge_rising]; split <;> simp
  | falling => rw [classifyEdge_falling]; split_ifs <;> simp [*]

/-- Settles O7: the Symbol is `classifyEdge`'s, and each clause is one window. -/
theorem classifyAnswersTheOpenWindow : Obligations.ClassifyAnswersTheOpenWindow := fun dir elapsed s =>
  ⟨classifyEdge s.par dir elapsed.toNat, rfl, classifyEdge_eq_header_iff _ _ _, classifyEdge_eq_bitOne_iff _ _ _,
    classifyEdge_eq_bitZero_iff _ _ _⟩

/-! ### A put on a well-formed queue (44_queue.md R191) -/

/-- Q.HEAD points into the array, so a `put` does not raise. -/
theorem putEvent_of_queueOk (e : Event) {s : State} (h : QueueOk s) : putEvent e s = .ok (putState e s) :=
  (putEvent_ok_iff _ _ _).mpr ⟨by rw [h.slots]; exact Nat.lt_succ_of_le h.head_le, rfl⟩

/-- The state after a `put`, in the indices of the queue. -/
theorem putState_eq (e : Event) (s : State) :
    putState e s =
      { s with
        q := { slot := s.q.slot.set s.q.head e
               head := (s.q.head + 1) % (s.par.queueN + 1)
               tail := if (s.q.head + 1) % (s.par.queueN + 1) = s.q.tail
                 then (s.q.tail + 1) % (s.par.queueN + 1) else s.q.tail }
        m.out := s.m.out ++
          (if (s.q.head + 1) % (s.par.queueN + 1) = s.q.tail then [.drop .queueOverflow] else []) } := by
  simp only [putState, ringNext, ringSize, queueFull, beq_iff_eq]

/-! ### The edge handler (R104 to R107) -/

theorem exec_edge_of_enabled (dir : Dir) {s : State} (h : s.inputEn = true) :
    exec (.edge dir) s = .next (commit s (noResult (handleEdge dir s))) := by
  simp only [exec, execEdge, h, if_true]

theorem exec_edge_of_disabled (dir : Dir) {s : State} (h : s.inputEn = false) :
    exec (.edge dir) s = .next (returning none s) := by
  simp [exec, execEdge, h]

theorem handleEdge_of_invalid {dir : Dir} {s : State} (h : classifyEdge s.par dir s.pt.count = .invalid) :
    handleEdge dir s = .ok (emit (.drop .noise) (timerReset s)) := by
  rw [handleEdge_eq, h]; rfl

/-- The reset of the timer comes before the put and leaves the queue well-formed, so the put on it does not raise. -/
theorem handleEdge_of_event {dir : Dir} {e : Event} {s : State} (hq : QueueOk s)
    (h : eventOf (classifyEdge s.par dir s.pt.count) = some e) :
    handleEdge dir s = .ok (putState e (timerReset s)) := by
  have hreset : QueueOk (timerReset s) := { hq with }
  rw [handleEdge_eq, h]
  exact putEvent_of_queueOk e hreset

/-- Settles O8: the handler ends in the noise entry on the state whose timer is reset. -/
theorem noiseEdgeOnlyResetsTheTimer : Obligations.NoiseEdgeOnlyResetsTheTimer := by
  intro dir s hen hinvalid
  rw [exec_edge_of_enabled dir hen, handleEdge_of_invalid hinvalid]
  rfl

/-- Settles O9: the edge ends in the put on the state whose timer is reset. -/
theorem edgeEnqueuesTheSymbolsEvent : Obligations.EdgeEnqueuesTheSymbolsEvent := by
  intro dir e s hq hen hevent
  rw [exec_edge_of_enabled dir hen, handleEdge_of_event hq hevent, putState_eq]
  rfl

/-- Settles O10: the handler does not run. -/
theorem edgeWhileDisabledChangesNothing : Obligations.EdgeWhileDisabledChangesNothing := fun dir _ h =>
  exec_edge_of_disabled dir h

end Sys2Proof.Machine
end

section
/-! Proofs of the statements of 41_assembler.md: BEGIN_FRAME and one bit event (R120 to R122), runs of bit events from a tick on
(R123, R124), and the invariant with the range of DEC.TICK that every step keeps (R128). The lemmas before the last say once, for
each operation of the model, that it keeps the invariant. -/

namespace Sys2Proof.Machine

/-! ### One operation of the assembler (R120 to R122) -/

theorem exec_beginFrame (s : State) : exec .beginFrame s = .next (returning none (beginFrame s)) := rfl

theorem exec_applyBit (b : Bool) (s : State) :
    exec (.applyBit b) s =
      .next (returning (some (.bool (assembleBit b s.dec).2)) { s with dec := (assembleBit b s.dec).1 }) := rfl

/-- Settles O11: the two writes of `beginFrame`. -/
theorem beginFrameClearsTickAndBuffer : Obligations.BeginFrameClearsTickAndBuffer := exec_beginFrame

/-- Settles O12: the buffer is `bufAfter`, and the tick says whether the bit is counted or materialises. -/
theorem applyBitWritesOnePositionAndCounts : Obligations.ApplyBitWritesOnePositionAndCounts := by
  intro b s htick
  refine ⟨bufAfter s.dec b, fun i hi => bufAfter_getLsbD s.dec b i hi htick, fun hcount => ?_, fun hlast => ?_⟩
  · rw [exec_applyBit, assembleBit_count b hcount]; rfl
  · rw [exec_applyBit, assembleBit_materialise b hlast.ge]; rfl

/-! ### Runs of bit events (R123, R124) -/

/-- The decoder after a list of bit events, the first of the list first. -/
def assembleBits (bs : List Bool) (d : Decoder) : Decoder := bs.foldl (fun d b => (assembleBit b d).1) d

@[simp] theorem assembleBits_nil (d : Decoder) : assembleBits [] d = d := rfl

theorem assembleBits_cons (b : Bool) (bs : List Bool) (d : Decoder) :
    assembleBits (b :: bs) d = assembleBits bs (assembleBit b d).1 := rfl

theorem assembleBits_append_one (bs : List Bool) (b : Bool) (d : Decoder) :
    assembleBits (bs ++ [b]) d = (assembleBit b (assembleBits bs d)).1 := by
  simp [assembleBits]

/-- A run of APPLY_BIT changes the decoder alone, but for the result of its last operation. -/
theorem exists_runInstrs_applyBit (bs : List Bool) (s : State) :
    ∃ r, runInstrs (bs.map .applyBit) s = returning r { s with dec := assembleBits bs s.dec } := by
  induction bs generalizing s with
  | nil => exact ⟨s.result, rfl⟩
  | cons b bs ih =>
    rw [List.map_cons, runInstrs_cons, exec_applyBit]
    obtain ⟨r, hr⟩ := ih (returning (some (.bool (assembleBit b s.dec).2)) { s with dec := (assembleBit b s.dec).1 })
    exact ⟨r, hr⟩

/-- The result of a run of APPLY_BIT is what its last bit event answers. -/
theorem runInstrs_applyBit_append_one (bs : List Bool) (b : Bool) (s : State) :
    runInstrs ((bs ++ [b]).map .applyBit) s =
      returning (some (.bool (assembleBit b (assembleBits bs s.dec)).2))
        { s with dec := (assembleBit b (assembleBits bs s.dec)).1 } := by
  obtain ⟨r, hr⟩ := exists_runInstrs_applyBit bs s
  rw [List.map_append, runInstrs_append, hr]
  rfl

theorem tick_add_one_toNat {d : Decoder} (h : d.tick.toNat < 12) : (d.tick + 1).toNat = d.tick.toNat + 1 := by
  bv_omega

/-- As long as no bit event comes at TICK 12, each is counted and none touches DEC.CMD or DEC.FIP. -/
theorem assembleBits_count (bs : List Bool) {d : Decoder} (h : d.tick.toNat + bs.length ≤ 12) :
    (assembleBits bs d).tick.toNat = d.tick.toNat + bs.length ∧ (assembleBits bs d).cmd = d.cmd ∧
      (assembleBits bs d).fip = d.fip := by
  induction bs generalizing d with
  | nil => exact ⟨rfl, rfl, rfl⟩
  | cons b bs ih =>
    rw [List.length_cons] at h
    have htick := tick_add_one_toNat (d := d) (by omega)
    rw [assembleBits_cons, assembleBit_count b (by omega)]
    obtain ⟨hticks, hcmd, hfip⟩ := ih (d := { d with buf := bufAfter d b, tick := d.tick + 1 }) (by rw [htick]; omega)
    refine ⟨?_, hcmd, hfip⟩
    rw [hticks, htick, List.length_cons]
    omega

/-- Position j of the buffer is the bit event that comes at TICK 12 - j, and is kept where none does (41_assembler.md R121). -/
theorem assembleBits_buf (bs : List Bool) {d : Decoder} (h : d.tick.toNat + bs.length ≤ 12) {j : Nat} (hj : j < 12) :
    (assembleBits bs d).buf.getLsbD j =
      if d.tick.toNat ≤ 12 - j then bs.getD (12 - j - d.tick.toNat) (d.buf.getLsbD j) else d.buf.getLsbD j := by
  induction bs generalizing d with
  | nil => simp
  | cons b bs ih =>
    rw [List.length_cons] at h
    have htick := tick_add_one_toNat (d := d) (by omega)
    rw [assembleBits_cons, assembleBit_count b (by omega), ih (by rw [htick]; omega)]
    simp only [htick, bufAfter_getLsbD d b j hj (by omega)]
    rcases Nat.lt_trichotomy d.tick.toNat (12 - j) with hlt | heq | hgt
    · obtain ⟨k, hk⟩ := Nat.exists_eq_add_of_lt hlt
      rw [if_pos (by omega), if_pos hlt.le, if_neg (by omega), show 12 - j - d.tick.toNat = k + 1 by omega,
        show 12 - j - (d.tick.toNat + 1) = k by omega, List.getD_cons_succ]
    · rw [if_neg (by omega), if_pos (by omega), if_pos (by omega), ← heq, Nat.sub_self, List.getD_cons_zero]
    · rw [if_neg (by omega), if_neg (by omega), if_neg (by omega)]

theorem length_lineBits (c : Command) : (lineBits c).length = 12 := by simp [lineBits, cmdBits]

/-- The line's bits, counted from 0, are the bits of the Command from bit 11 on down (20_memory.md R53). -/
theorem getD_lineBits (c : Command) {k : Nat} (hk : k < 12) (b : Bool) : (lineBits c).getD k b = c.getLsbD (11 - k) := by
  simp [lineBits, cmdBits, hk]

theorem lineBits_eq_append_one (c : Command) : lineBits c = (lineBits c).take 11 ++ [c.getLsbD 0] := rfl

/-- Twelve bit events from TICK 1 write every position, so that the Command of the line is all that the buffer holds. -/
theorem bufAfter_lineBits (first : Bool) (c : Command) {d : Decoder} (h : d.tick = 0) :
    bufAfter (assembleBits (first :: (lineBits c).take 11) d) (c.getLsbD 0) = c := by
  have hzero : d.tick.toNat = 0 := by rw [h]; rfl
  have hlen : d.tick.toNat + (first :: (lineBits c).take 11).length = 12 := by simp [hzero, length_lineBits]
  have htick := (assembleBits_count _ hlen.le).1.trans hlen
  refine BitVec.eq_of_getLsbD_eq fun j hj => ?_
  rw [bufAfter_getLsbD _ _ _ hj htick.le, htick, assembleBits_buf _ hlen.le hj]
  by_cases h0 : j = 0
  · simp [h0]
  · obtain ⟨k, hk⟩ : ∃ k, 12 - j = k + 1 := ⟨11 - j, by omega⟩
    have hread : ((lineBits c).take 11).getD k (d.buf.getLsbD j) = (lineBits c).getD k (d.buf.getLsbD j) := by
      simp [List.getElem?_take_of_lt (show k < 11 by omega)]
    rw [if_neg (by omega), if_pos (by omega), hzero, Nat.sub_zero, hk, List.getD_cons_succ, hread,
      getD_lineBits c (by omega), show 11 - k = j by omega]

/-- Thirteen bit events from TICK 0: the twelfth leaves TICK 12, so the last materialises, whatever the buffer held. -/
theorem runInstrs_thirteen_bits (first : Bool) (c : Command) {s : State} (h : s.dec.tick = 0) :
    runInstrs ((first :: lineBits c).map .applyBit) s =
      { s with dec := { s.dec with tick := 0, buf := c, cmd := c }, result := some (.bool true) } := by
  have hlen : s.dec.tick.toNat + (first :: (lineBits c).take 11).length = 12 := by simp [h, length_lineBits]
  obtain ⟨hticks, _, hfip⟩ := assembleBits_count _ hlen.le
  rw [lineBits_eq_append_one, ← List.cons_append, runInstrs_applyBit_append_one,
    assembleBit_materialise _ (by omega), bufAfter_lineBits first c h, hfip]
  rfl

/-- Settles O14: a header is not asked for, only TICK 0. -/
theorem thirteenBitsWithNoHeaderMaterialise : Obligations.ThirteenBitsWithNoHeaderMaterialise :=
  fun first c _ h => runInstrs_thirteen_bits first c h

/-- At most twelve bit events from TICK 0 are counted, and the last of them answers false. -/
theorem runInstrs_count (bs : List Bool) {s : State} (h : s.dec.tick = 0) (hne : bs ≠ []) (hlen : bs.length ≤ 12) :
    (runInstrs (bs.map .applyBit) s).dec.cmd = s.dec.cmd ∧
      (runInstrs (bs.map .applyBit) s).dec.tick = BitVec.ofNat 4 bs.length ∧
      (runInstrs (bs.map .applyBit) s).result = some (.bool false) := by
  rcases List.eq_nil_or_concat' bs with rfl | ⟨before, b, rfl⟩
  · exact absurd rfl hne
  rw [List.length_append, List.length_singleton] at hlen ⊢
  have hzero : s.dec.tick.toNat = 0 := by rw [h]; rfl
  obtain ⟨hticks, hcmd, _⟩ := assembleBits_count before (d := s.dec) (by omega)
  rw [runInstrs_applyBit_append_one, assembleBit_count b (by omega)]
  refine ⟨hcmd, ?_, rfl⟩
  show (assembleBits before s.dec).tick + 1 = _
  refine BitVec.eq_of_toNat_eq ?_
  rw [tick_add_one_toNat (by omega), hticks, hzero, BitVec.toNat_ofNat, Nat.mod_eq_of_lt (by omega), Nat.zero_add]

/-- Settles O13: BEGIN_FRAME leaves TICK 0 and the old Command, and the bit events count on from there. -/
theorem thirteenthBitAfterAHeaderMaterialises : Obligations.ThirteenthBitAfterAHeaderMaterialises := by
  intro gap c s
  simp only [runInstrs_cons, exec_beginFrame, stateAfter_next]
  refine ⟨runInstrs_thirteen_bits gap c rfl, fun k h1 h12 => ?_⟩
  have hlen : ((gap :: lineBits c).take k).length = k := by simp [length_lineBits]; omega
  have hne : (gap :: lineBits c).take k ≠ [] := List.ne_nil_of_length_pos (by omega)
  have hcount := runInstrs_count _ (s := returning none (beginFrame s)) rfl hne (by omega)
  rwa [hlen] at hcount

/-! ### The history of the invariant (10_state.md R45) -/

/-- Entries other than those of the pin leave its last level. -/
theorem lastPin_append_of_no_pin (out : List Obs) {new : List Obs} (h : ∀ l u, Obs.pin l u ∉ new) :
    lastPin (out ++ new) = lastPin out := by
  induction new generalizing out with
  | nil => rw [List.append_nil]
  | cons o new ih =>
    rw [List.append_cons, ih _ fun l u hm => h l u (List.mem_cons_of_mem o hm), lastPin_append_one]
    cases o with
    | pin l u => exact absurd List.mem_cons_self (h l u)
    | _ => rfl

/-- Appending entries other than those of the pin keeps the invariant. -/
theorem Inv.of_append {s : State} (h : Inv s) {new : List Obs} (hnew : ∀ l u, Obs.pin l u ∉ new) :
    Inv { s with m := { s.m with out := s.m.out ++ new } } :=
  { h with
    queue := { h.queue with }
    history := (lastPin_append_of_no_pin s.m.out hnew).trans h.history
    stamps := fun l u hm => h.stamps l u ((List.mem_append.mp hm).resolve_right (hnew l u)) }

theorem Inv.of_emit {s : State} (h : Inv s) {o : Obs} (ho : ∀ l u, o ≠ .pin l u) : Inv (emit o s) :=
  h.of_append fun l u hm => ho l u (List.mem_singleton.mp hm).symm

theorem Inv.of_drop {s : State} (h : Inv s) (c : DropCode) : Inv (emit (.drop c) s) := h.of_emit fun _ _ => nofun

/-- An entry of the pin at M.TIME is no later than M.TIME. -/
theorem stamps_append_pin {s : State} (h : Inv s) (level l : Bool) (u : Nat)
    (hm : Obs.pin l u ∈ s.m.out ++ [.pin level s.m.time]) : u ≤ s.m.time := by
  rcases List.mem_append.mp hm with hold | hnew
  · exact h.stamps l u hold
  · cases List.mem_singleton.mp hnew
    exact Nat.le_refl _

/-! ### Writes that the invariant does not read

In these and the lemmas below, `{ h.queue with }` states the queue's part again of the new state, whose queue and parameters are
the same. -/

theorem Inv.of_sched {s : State} (h : Inv s) (rest : List Move) : Inv { s with sched := rest } :=
  { h with queue := { h.queue with } }

theorem Inv.of_returning {s : State} (h : Inv s) (r : Option Result) : Inv (returning r s) :=
  { h with queue := { h.queue with } }

theorem Inv.of_refuse {s : State} (h : Inv s) (c : RefuseCode) : Inv (refuse c s) :=
  { h with queue := { h.queue with } }

theorem Inv.of_raiseFault {s : State} (h : Inv s) (c : FaultCode) : Inv (raiseFault c s) :=
  { h with queue := { h.queue with } }

/-- A step that may raise keeps the invariant where what it answers does: a fault discards the step's writes. -/
theorem Inv.of_commit {s : State} (h : Inv s) {r : Except FaultCode (State × Option Result)}
    (hr : ∀ t res, r = .ok (t, res) → Inv t) : Inv (commit s r) := by
  cases r with
  | ok a => exact (hr a.1 a.2 rfl).of_returning a.2
  | error c => exact h.of_raiseFault c

theorem Inv.of_commit_noResult {s : State} (h : Inv s) {r : Except FaultCode State} (hr : ∀ t, r = .ok t → Inv t) :
    Inv (commit s (noResult r)) := by
  cases r with
  | ok t => exact (hr t rfl).of_returning none
  | error c => exact h.of_raiseFault c

/-! ### The queue (44_queue.md R199) -/

theorem queueOk_putState (e : Event) {s : State} (h : QueueOk s) : QueueOk (putState e s) where
  capacity := h.capacity
  slots := (List.length_set ..).trans h.slots
  head_le := ringNext_le s _
  tail_le := by
    show (if queueFull s then ringNext s s.q.tail else s.q.tail) ≤ s.par.queueN
    split
    · exact ringNext_le s _
    · exact h.tail_le

theorem Inv.of_put {s t : State} {e : Event} (h : Inv s) (ht : putEvent e s = .ok t) : Inv t := by
  obtain ⟨_, rfl⟩ := (putEvent_ok_iff _ _ _).mp ht
  have hout : Inv { s with m := { s.m with out := s.m.out ++ if queueFull s then [.drop .queueOverflow] else [] } } :=
    h.of_append fun l u => by split <;> simp
  exact { hout with queue := queueOk_putState e h.queue }

theorem Inv.of_tail {s : State} (h : Inv s) {i : Nat} (hi : i ≤ s.par.queueN) : Inv { s with q := { s.q with tail := i } } :=
  { h with queue := { h.queue with tail_le := hi } }

theorem Inv.of_getEvent {s t : State} {e : Event} (h : Inv s) (ht : getEvent s = .ok (e, t)) : Inv t := by
  rcases getEvent_cases s with ⟨_, e'⟩ | ⟨_, _, e'⟩ | ⟨_, _, _, e'⟩ <;> rw [e'] at ht <;> cases ht
  exact h.of_tail (ringNext_le s _)

/-! ### The HexCommandBuffer (10_state.md R32, 43_hexparse.md R182) -/

/-- Nothing of the invariant speaks of HB.ARMED. -/
theorem Inv.of_armed {s : State} (h : Inv s) (b : Bool) : Inv { s with hb := { s.hb with armed := b } } :=
  { h with queue := { h.queue with } }

theorem Inv.of_hbClear {s : State} (h : Inv s) : Inv (hbClear s) :=
  { h with
    queue := { h.queue with }
    memory := Memory.wf_clear
    len := Nat.zero_le _
    unfilled := fun i _ => Memory.read_nil i }

/-- A byte stored below the threshold: only the one position that HB.LEN now passes is written. -/
theorem Inv.of_store {s : State} (h : Inv s) (b : Byte) (hlen : s.hb.len + 1 ≤ s.par.hbThreshold) :
    Inv { s with hb := { s.hb with data := s.hb.data.write s.hb.len b, len := s.hb.len + 1 } } :=
  { h with
    queue := { h.queue with }
    memory := Memory.wf_write h.memory _ _
    len := hlen
    unfilled := fun i (hi : s.hb.len + 1 ≤ i) => by
      rw [Memory.read_write_wf h.memory, if_neg (by omega)]
      exact h.unfilled i (by omega) }

theorem Inv.of_handleByte {s t : State} {b : Byte} (h : Inv s) (ht : handleByte b s = .ok t) : Inv t := by
  rcases handleByte_cases b s with ⟨_, e⟩ | ⟨_, _, e⟩ | ⟨_, _, hlen, e⟩ | ⟨_, _, hlen, e⟩ <;> rw [e] at ht
  · cases ht; exact h.of_drop _
  · cases ht
  · cases ht; exact h.of_store b hlen.le
  · exact ((h.of_store b hlen.le).of_armed false).of_put ht

theorem Inv.of_parseAndClear {s t : State} {r : Option Word16} (h : Inv s) (ht : parseAndClear s = .ok (r, t)) : Inv t := by
  rw [parseAndClear_eq] at ht
  split at ht
  · split at ht <;> cases ht
    · exact h.of_hbClear
    · exact (h.of_drop _).of_hbClear
  · cases ht

/-! ### The Pulse Timer (10_state.md R43) -/

theorem Inv.of_timerReset {s : State} (h : Inv s) : Inv (timerReset s) :=
  { h with queue := { h.queue with }, count := Nat.two_pow_pos _ }

theorem Inv.of_timerStart {s : State} (h : Inv s) : Inv (timerStart s) :=
  { h with queue := { h.queue with }, count := Nat.two_pow_pos _, running := fun _ _ => rfl }

theorem Inv.of_timerAdvance {s : State} (h : Inv s) : Inv (timerAdvance s) :=
  { h with
    queue := { h.queue with }
    count := nextCount_lt h.count
    stamps := fun l u hm => Nat.le_succ_of_le (h.stamps l u hm) }

theorem Inv.of_handleEdge {s t : State} {dir : Dir} (h : Inv s) (ht : handleEdge dir s = .ok t) : Inv t := by
  rw [handleEdge_eq] at ht
  split at ht
  · cases ht; exact h.of_timerReset.of_drop _
  · exact h.of_timerReset.of_put ht

/-! ### The bit assembler (R128) -/

theorem Inv.of_dec {s : State} (h : Inv s) {d : Decoder} (hd : d.tick.toNat ≤ 12) : Inv { s with dec := d } :=
  { h with queue := { h.queue with }, tick := hd }

/-- A bit event counts up to 12 and then starts again at 0. -/
theorem assembleBit_tick_le (b : Bool) {d : Decoder} (h : d.tick.toNat ≤ 12) : (assembleBit b d).1.tick.toNat ≤ 12 := by
  rcases Nat.lt_or_eq_of_le h with hcount | hlast
  · rw [assembleBit_count b hcount]
    exact (tick_add_one_toNat hcount).trans_le hcount
  · rw [assembleBit_materialise b hlast.ge]
    exact Nat.zero_le _

theorem Inv.of_onFrameStart {s : State} (h : Inv s) : Inv (onFrameStart s) := h.of_dec (Nat.zero_le _)

theorem Inv.of_onBit {s : State} (h : Inv s) (b : Bool) : Inv (onBit b s) := by
  rcases Nat.lt_or_eq_of_le h.tick with hcount | hlast
  · rw [onBit_count b hcount]
    exact h.of_dec ((tick_add_one_toNat hcount).trans_le hcount)
  · rw [onBit_materialise b hlast.ge]
    exact (h.of_dec (Nat.zero_le _)).of_emit (o := .cmdReport _) fun _ _ => nofun

/-! ### The Output Encoder (10_state.md R37, 42_encoder.md R143) -/

/-- A high half begins with the pin high and recorded at M.TIME; what the invariant asks of the phase in progress is asked
of the phase that begins. -/
theorem Inv.of_beginHigh {s u : State} (h : Inv s) (hu : u = { s with tx := u.tx }) (hphase : u.tx.phase.toNat ≤ 13)
    (hsingle : u.tx.mode = .single → u.tx.phase = 0)
    (hframe : u.tx.mode = .frame → s.pt.run = true ∧
      u.tx.d1 = threshold (phaseTicks s.par u.tx.phase.toNat u.tx.cmd).1 ∧
        u.tx.d2 = threshold (phaseTicks s.par u.tx.phase.toNat u.tx.cmd).2) : Inv (beginHigh u) := by
  rw [hu]
  exact
    { h with
      queue := { h.queue with }
      phase := hphase
      single := hsingle
      count := Nat.two_pow_pos _
      pin := ⟨fun _ => rfl, fun _ => rfl⟩
      idle := nofun
      thresholds := fun _ hm => (hframe hm).2
      running := fun _ hm => (hframe hm).1
      history := lastPin_append_one _ _
      stamps := stamps_append_pin h true }

theorem Inv.of_startPhase {s : State} (h : Inv s) {k : Nat} (hk : k ≤ 13) (hm : s.tx.mode = .frame) (hr : s.pt.run = true) :
    Inv (startPhase k s) := by
  have hphase : (BitVec.ofNat 4 k).toNat = k := by rw [BitVec.toNat_ofNat, Nat.mod_eq_of_lt (by omega)]
  refine h.of_beginHigh rfl (hphase.trans_le hk) (fun hs => absurd (hm.symm.trans hs) nofun) fun _ => ⟨hr, ?_⟩
  dsimp only
  rw [hphase]
  exact ⟨rfl, rfl⟩

/-- Only an idle engine takes a new command or mode: a run in progress has the thresholds of its own. -/
theorem Inv.of_startFrame {s : State} (h : Inv s) (ha : s.tx.active = false) (c : Word16) : Inv (startFrame c s) := by
  have hset : Inv { s with tx := { s.tx with cmd := c, mode := .frame } } :=
    { h with
      queue := { h.queue with }
      single := nofun
      thresholds := fun ha' => absurd (ha.symm.trans ha') nofun
      running := fun ha' => absurd (ha.symm.trans ha') nofun }
  exact hset.of_timerStart.of_startPhase (Nat.zero_le _) rfl rfl

theorem Inv.of_startSingle {s : State} (h : Inv s) (d1 d2 : Word16) : Inv (startSingle d1 d2 s) :=
  h.of_beginHigh rfl (Nat.zero_le _) (fun _ => rfl) nofun

/-- The end of the high half, with the pin low and recorded at M.TIME. -/
theorem Inv.of_endHigh {s : State} (h : Inv s) :
    Inv { drivePin false s with tx := { s.tx with pin := false, half := .low } } :=
  { h with
    queue := { h.queue with }
    pin := ⟨nofun, nofun⟩
    idle := fun _ => rfl
    history := lastPin_append_one _ _
    stamps := stamps_append_pin h false }

theorem Inv.of_endRun {s : State} (h : Inv s) (hh : s.tx.half = .low) : Inv (endRun s) :=
  { h with queue := { h.queue with }, idle := fun _ => hh, thresholds := nofun, running := nofun }

/-- The timer's stop is the last step of a frame: it leaves a state that keeps the invariant only once the run has ended. -/
theorem Inv.of_endRun_timerStop {s : State} (h : Inv s) (hh : s.tx.half = .low) : Inv (endRun (timerStop s)) :=
  { h.of_endRun hh with queue := { h.queue with }, running := nofun }

theorem Inv.of_txStep {s : State} (h : Inv s) (he : txStepEnabled s = true) : Inv (txStep s) := by
  obtain ⟨ha, _⟩ := (txStepEnabled_iff s).mp he
  rcases txStep_cases s with ⟨_, e⟩ | ⟨hh, _, e⟩ | ⟨_, hm, hp, e⟩ | ⟨hh, _, _, e⟩ <;> rw [e]
  · exact h.of_endHigh
  · exact h.of_endRun hh
  · exact h.of_startPhase hp hm (h.running ha hm)
  · exact h.of_endRun_timerStop hh

/-! ### The Dispatcher (45_dispatcher.md R226) -/

/-- The Dispatcher is blocked and the input disabled together; `txReturn` frees and enables them together. -/
theorem Inv.of_block {s : State} (h : Inv s) : Inv { s with inputEn := false, dsp := .inTx } :=
  { h with queue := { h.queue with }, input := ⟨nofun, nofun⟩ }

theorem Inv.of_txReturn {s : State} (h : Inv s) : Inv (txReturn s) :=
  { h.of_timerStart.of_armed true with queue := { h.queue with }, input := ⟨fun _ => rfl, fun _ => rfl⟩ }

theorem Inv.of_urgentStep {s : State} (h : Inv s) : Inv (urgentStep s) := by
  unfold urgentStep
  split
  · exact h.of_txStep (by assumption)
  split
  · exact h.of_txReturn
  · exact h

theorem Inv.of_transmitting {s : State} (h : Inv s) (ha : s.tx.active = false) (c : Word16) : Inv (transmitting c s) := by
  rw [transmitting_eq_startFrame]
  exact (h.of_hbClear.of_emit (o := .txReport c) fun _ _ => nofun).of_block.of_startFrame ha c

theorem Inv.of_onUartReady {s t : State} (h : Inv s) (ha : s.tx.active = false) (ht : onUartReady s = .ok t) : Inv t := by
  rw [onUartReady_eq] at ht
  split at ht
  · split at ht <;> cases ht
    · exact h.of_transmitting ha _
    · exact (h.of_drop _).of_hbClear.of_armed true
  · cases ht

/-- Dequeuing an event leaves the engine. -/
theorem getEvent_tx {s t : State} {e : Event} (ht : getEvent s = .ok (e, t)) : t.tx = s.tx := by
  rcases getEvent_cases s with ⟨_, e'⟩ | ⟨_, _, e'⟩ | ⟨_, _, _, e'⟩ <;> rw [e'] at ht <;> cases ht
  rfl

theorem Inv.of_dispatchOne {s t : State} (h : Inv s) (ha : s.tx.active = false) (ht : dispatchOne s = .ok t) : Inv t := by
  unfold dispatchOne at ht
  split at ht
  case h_1 => cases ht
  case h_2 hg => cases ht; exact (h.of_getEvent hg).of_onFrameStart
  case h_3 hg => cases ht; exact (h.of_getEvent hg).of_onBit false
  case h_4 hg => cases ht; exact (h.of_getEvent hg).of_onBit true
  case h_5 hg => exact (h.of_getEvent hg).of_onUartReady (by rw [getEvent_tx hg]; exact ha) ht

/-! ### Every operation and every step -/

theorem Inv.of_exec {i : Instr} {s t : State} (h : Inv s) (ht : exec i s = .next t) : Inv t := by
  cases i <;> (simp only [exec] at ht; injection ht with ht; subst ht)
  case reserved => exact h.of_refuse _
  case classify => exact h.of_returning _
  case edge =>
    split
    · exact h.of_commit_noResult fun _ => h.of_handleEdge
    · exact h.of_returning none
  case beginFrame => exact (h.of_dec (Nat.zero_le _)).of_returning none
  case applyBit b => exact (h.of_dec (assembleBit_tick_le b h.tick)).of_returning _
  case put => exact h.of_commit_noResult fun _ => h.of_put
  case get =>
    refine h.of_commit fun u _ hu => ?_
    split at hu <;> cases hu
    exact h.of_getEvent (by assumption)
  case empty => exact h.of_returning _
  case full => exact h.of_returning _
  case qreset => exact (h.of_tail h.queue.head_le).of_returning none
  case uartByte => exact h.of_commit_noResult fun _ => h.of_handleByte
  case parseHex =>
    refine h.of_commit fun u _ hu => ?_
    split at hu <;> cases hu
    exact h.of_parseAndClear (by assumption)
  case transmit c =>
    split
    · exact h.of_refuse _
    · exact (h.of_startFrame (Bool.eq_false_iff.mpr (by assumption)) c).of_returning none
  case outTick d1 d2 =>
    split
    · exact h.of_refuse _
    · exact (h.of_startSingle d1 d2).of_returning none
  case dispatch =>
    split
    · exact h.of_refuse _
    rename_i hfree
    split
    · exact h.of_returning none
    · exact h.of_commit_noResult fun _ => h.of_dispatchOne (Bool.eq_false_iff.mpr fun ha => hfree (.inr ha))
  case timerTick =>
    split
    · exact h.of_timerAdvance.of_returning none
    · exact (h.of_urgentStep.of_sched _).of_returning none

theorem Inv.of_step {s t : State} (h : Inv s) (ht : step s = .next t) : Inv t := by
  obtain ⟨_, rest, hcases⟩ := step_next_cases ht
  have hrest := h.of_sched rest
  rcases hcases with ⟨i, hi⟩ | rfl | rfl | ⟨he, rfl⟩ | ⟨_, rfl⟩
  · exact hrest.of_exec hi
  · exact hrest.of_refuse _
  · exact hrest.of_returning none
  · exact (hrest.of_txStep he).of_returning none
  · exact hrest.of_txReturn.of_returning none

/-- Settles O55: HB.LEN is within the threshold, so the spare bytes are among the unfilled ones. -/
theorem everyStepKeepsTheInvariant : Obligations.EveryStepKeepsTheInvariant := by
  intro s t h ht
  have hinv := h.of_step ht
  exact ⟨hinv, fun i hi => hinv.unfilled i (hinv.len.trans hi)⟩

end Sys2Proof.Machine
end

section
/-! Proofs of the statements of 42_encoder.md about the engine: TRANSMIT, OUTTICK and TX_STEP (R140 to R148), the
waveforms of an outTick and of a frame (R145, R149), and the engine on a stopped timer (R151). -/

namespace Sys2Proof.Machine

/-! ### TRANSMIT, OUTTICK and their refusal (R140, R144, R148) -/

theorem exec_transmit (c : Word16) (s : State) :
    exec (.transmit c) s = .next (if s.tx.active then refuse .txBusy s else returning none (startFrame c s)) := rfl

theorem exec_outTick (d1 d2 : Word16) (s : State) :
    exec (.outTick d1 d2) s = .next (if s.tx.active then refuse .txBusy s else returning none (startSingle d1 d2 s)) := rfl

theorem exec_transmit_of_idle (c : Word16) {s : State} (h : s.tx.active = false) :
    exec (.transmit c) s = .next (returning none (startFrame c s)) := by
  simp [exec_transmit, h]

theorem exec_outTick_of_idle (d1 d2 : Word16) {s : State} (h : s.tx.active = false) :
    exec (.outTick d1 d2) s = .next (returning none (startSingle d1 d2 s)) := by
  simp [exec_outTick, h]

theorem exec_transmit_of_busy (c : Word16) {s : State} (h : s.tx.active = true) :
    exec (.transmit c) s = .next (refuse .txBusy s) := by
  simp [exec_transmit, h]

theorem exec_outTick_of_busy (d1 d2 : Word16) {s : State} (h : s.tx.active = true) :
    exec (.outTick d1 d2) s = .next (refuse .txBusy s) := by
  simp [exec_outTick, h]

theorem exec_dispatch_of_busy {s : State} (h : s.dsp = .inTx ∨ s.tx.active = true) :
    exec .dispatch s = .next (refuse .txBusy s) := by
  simp [exec, execDispatch, h]

/-- The first state of a phase, field by field. -/
theorem startPhase_eq (k : Nat) (s : State) :
    startPhase k s =
      { s with
        tx := { s.tx with
          phase := BitVec.ofNat 4 k, half := .high, pin := true, active := true
          d1 := threshold (phaseTicks s.par k s.tx.cmd).1, d2 := threshold (phaseTicks s.par k s.tx.cmd).2 }
        pt.count := 0
        timerCtl := s.timerCtl ++ [.reset]
        m.out := s.m.out ++ [.pin true s.m.time]
        lag := { high := 0, low := 0, ret := 0 } } := rfl

/-- The frame's first state, field by field: the requests of the timer come from the re-arm and from the phase's own reset. -/
theorem startFrame_eq (c : Word16) (s : State) :
    startFrame c s =
      { s with
        tx := { active := true, mode := .frame, cmd := c, phase := 0, half := .high, pin := true
                d1 := threshold s.par.txHdrHigh, d2 := threshold (s.par.txHdrHigh + s.par.txHdrLow) }
        pt := { count := 0, run := true }
        timerCtl := s.timerCtl ++ [.start, .reset, .reset]
        m.out := s.m.out ++ [.pin true s.m.time]
        lag := { high := 0, low := 0, ret := 0 } } := by
  rw [startFrame, startPhase_eq]
  simp [phaseTicks]

/-- The first state of an outTick, field by field. -/
theorem startSingle_eq (d1 d2 : Word16) (s : State) :
    startSingle d1 d2 s =
      { s with
        tx := { active := true, mode := .single, cmd := s.tx.cmd, phase := 0, half := .high, pin := true
                d1 := d1, d2 := d2 }
        pt.count := 0
        timerCtl := s.timerCtl ++ [.reset]
        m.out := s.m.out ++ [.pin true s.m.time]
        lag := { high := 0, low := 0, ret := 0 } } := rfl

/-- Settles O30: the engine is idle, so the frame starts. -/
theorem transmitStartsTheHeader : Obligations.TransmitStartsTheHeader := by
  intro c s h
  rw [exec_transmit_of_idle c h, startFrame_eq]
  rfl

/-- Settles O31: the engine is idle, so the high half begins. -/
theorem outTickStartsOneHighHalf : Obligations.OutTickStartsOneHighHalf := fun d1 d2 _ h =>
  exec_outTick_of_idle d1 d2 h

/-- Settles O32: each of the three is refused at its busy check. -/
theorem busyRequestsOnlyMarkRefused : Obligations.BusyRequestsOnlyMarkRefused := fun c d1 d2 _ =>
  ⟨fun h => ⟨exec_transmit_of_busy c h, exec_outTick_of_busy d1 d2 h⟩, fun h => exec_dispatch_of_busy h.symm⟩

/-! ### TX_STEP (R146) -/

theorem txStep_of_high {s : State} (hh : s.tx.half = .high) :
    txStep s =
      { s with tx.pin := false, tx.half := .low, m.out := s.m.out ++ [.pin false s.m.time] } := by
  simp only [txStep, hh]; rfl

theorem txStep_of_single {s : State} (hh : s.tx.half = .low) (hm : s.tx.mode = .single) : txStep s = endRun s := by
  simp only [txStep, hh, hm]

theorem txStep_of_phase {s : State} (hh : s.tx.half = .low) (hm : s.tx.mode = .frame) (hp : s.tx.phase.toNat < 13) :
    txStep s = startPhase (s.tx.phase.toNat + 1) s := by
  simp only [txStep, hh, hm, hp, if_true]

theorem txStep_of_trailer {s : State} (hh : s.tx.half = .low) (hm : s.tx.mode = .frame) (hp : s.tx.phase.toNat = 13) :
    txStep s = endRun (timerStop s) := by
  simp only [txStep, hh, hm, hp, lt_irrefl, if_false]

/-- The engine's own move, while TX_STEP is enabled. -/
theorem step_agent_txStep {rest : List Move} {s : State} (hp : s.par.wellFormed = true)
    (hs : s.sched = .agent .txStep :: rest) (he : txStepEnabled s = true) :
    step s = .next (returning none { txStep s with sched := rest }) := by
  have he' : txStepEnabled { s with sched := rest } = true := he
  rw [step_agent hp hs, runAgent, if_pos he', txStep_sched]

/-- A phase begins with the thresholds of the phase table and a number of its own. -/
theorem ofNat_phase_add_one (k : BitVec 4) : BitVec.ofNat 4 (k.toNat + 1) = k + 1 := by
  bv_omega

/-- Settles O34: the four branches of TX_STEP. -/
theorem enabledTxStepFollowsThePhaseTable : Obligations.EnabledTxStepFollowsThePhaseTable := by
  intro rest s hp hs he _
  rw [step_agent_txStep hp hs he]
  refine ⟨fun hh => ?_, fun hh hm => ?_, fun hh hm hlast => ?_, fun hh hm hbefore => ?_⟩
  · rw [txStep_of_high hh]; rfl
  · rw [txStep_of_single hh hm]; rfl
  · rw [txStep_of_trailer hh hm hlast]; rfl
  · obtain ⟨ha, _⟩ := (txStepEnabled_iff s).mp he
    rw [txStep_of_phase hh hm hbefore, startPhase_eq, ofNat_phase_add_one]
    simp [returning, ha]

/-! ### The length of a frame at the defaults (R149) -/

theorem phaseTicks_bit (p : Params) (c : Word16) {k : Nat} (h1 : 1 ≤ k) (h12 : k ≤ 12) :
    phaseTicks p k c = (p.txBitHigh, p.txBitHigh + if c.getLsbD (12 - k) then p.txOneLow else p.txZeroLow) := by
  rw [phaseTicks, if_neg (by omega), if_pos h12]
  split_ifs <;> rfl

/-- The end of the window of phase k at the defaults: 100 ticks more for a 1 than for a 0. -/
theorem phaseTicks_default_bit (c : Word16) {k : Nat} (h1 : 1 ≤ k) (h12 : k ≤ 12) :
    (phaseTicks Params.default k c).2 = 200 + 100 * (c.getLsbD (12 - k)).toNat := by
  rw [phaseTicks_bit _ c h1 h12]
  cases c.getLsbD (12 - k) <;> rfl

theorem popcount12_eq_sum (c : Word16) :
    popcount12 c = ((List.range 12).map fun i => (c.getLsbD i).toNat).sum := by
  have key : ∀ l : List Nat, (l.filter fun i => c.getLsbD i).length = (l.map fun i => (c.getLsbD i).toNat).sum := by
    intro l
    induction l with
    | nil => rfl
    | cons i l ih => cases h : c.getLsbD i <;> simp [h, ih, Nat.add_comm]
  exact key _

/-- Settles O37: 400 ticks for the header, 200 for the trailer, and the twelve bits between. -/
theorem defaultFrameLengthFollowsPopcount : Obligations.DefaultFrameLengthFollowsPopcount := by
  intro c
  have hheader : (phaseTicks Params.default 0 c).2 = 400 := rfl
  have htrailer : (phaseTicks Params.default 13 c).2 = 200 := rfl
  have hzero : phaseStart Params.default c 0 = 0 := rfl
  rw [popcount12_eq_sum]
  simp [phaseStart_succ, hzero, hheader, htrailer, phaseTicks_default_bit, List.range_succ]
  omega

/-! ### The block left alone while the engine runs -/

/-- While the engine waits for a threshold, time passes and nothing else (R146, 45_dispatcher.md R222). -/
theorem step_waiting {s : State} (hp : s.par.wellFormed = true) (hs : s.sched = []) (ha : s.tx.active = true)
    (he : txStepEnabled s = false) : step s = .next (returning none (timerAdvance s)) := by
  rw [step_alone hp hs]
  simp [runAlone, urgentEnabled, dispatchEnabled, txReturnEnabled, ha, he]

/-- Once the threshold is reached, TX_STEP is taken (00_scope.md R13). -/
theorem step_txStep {s : State} (hp : s.par.wellFormed = true) (hs : s.sched = []) (he : txStepEnabled s = true) :
    step s = .next (returning none (txStep s)) := by
  rw [step_alone hp hs]
  simp [runAlone, urgentEnabled, urgentStep, he]

theorem runSteps_succ_of_next {s t u : State} {n : Nat} (ht : runSteps s n = t) (hu : step t = .next u) :
    runSteps s (n + 1) = u := by
  rw [runSteps, ht, hu, stateAfter_next]

/-! ### The engine on a stopped timer (R151) -/

/-- With the same engine, a lower count does not enable TX_STEP. -/
theorem txStepEnabled_of_count_le {s t : State} (he : txStepEnabled s = false) (htx : t.tx = s.tx)
    (hc : t.pt.count ≤ s.pt.count) : txStepEnabled t = false := by
  rw [← Bool.not_eq_true, txStepEnabled_iff] at he ⊢
  rw [htx]
  rintro ⟨ha, ⟨hh, hd⟩ | ⟨hh, hd⟩⟩
  · exact he ⟨ha, .inl ⟨hh, hd.trans hc⟩⟩
  · exact he ⟨ha, .inr ⟨hh, hd.trans hc⟩⟩

/-- The engine runs on a stopped timer whose count is below the threshold of its half. -/
structure Hangs (s : State) : Prop where
  active : s.tx.active = true
  stopped : s.pt.run = false
  early : txStepEnabled s = false

theorem Hangs.of_sched {s : State} (h : Hangs s) (rest : List Move) : Hangs { s with sched := rest } := { h with }

theorem Hangs.nextCount {s : State} (h : Hangs s) : nextCount s = s.pt.count := by
  simp [Machine.nextCount, h.stopped]

/-- A period of the timer passes: no urgent step is enabled, so it does not wait. -/
theorem Hangs.execTimerTick {s : State} (h : Hangs s) : execTimerTick s = .next (returning none (timerAdvance s)) :=
  execTimerTick_of_allowed (by simp [tickAllowed, urgentEnabled, txReturnEnabled, h.active, h.early])

/-- What leaves the engine leaves the count, or resets it. -/
theorem KeepsEngine.count_le {s t : State} (h : KeepsEngine s t) : t.pt.count ≤ s.pt.count := by
  rcases h.clock with ⟨hc, _, _⟩ | ⟨_, hc, _, _⟩ <;> omega

/-- No operation moves a hanging engine: TRANSMIT, OUTTICK and DISPATCH are refused, and a tick does not count. -/
theorem Hangs.of_exec {i : Instr} {s t : State} (h : Hangs s) (ht : exec i s = .next t) :
    t.tx = s.tx ∧ t.pt.run = s.pt.run ∧ t.pt.count ≤ s.pt.count := by
  have kept : KeepsEngine s t → t.tx = s.tx ∧ t.pt.run = s.pt.run ∧ t.pt.count ≤ s.pt.count := fun hk =>
    ⟨hk.tx, hk.run, hk.count_le⟩
  by_cases hd : i = .dispatch
  · subst hd
    rw [exec_dispatch_of_busy (.inr h.active)] at ht
    cases ht
    exact kept (.of_refuse s _)
  by_cases hk : i = .timerTick
  · subst hk
    cases h.execTimerTick.symm.trans ht
    exact ⟨rfl, rfl, h.nextCount.le⟩
  cases hi : startsEngine i
  · exact kept (exec_keepsEngine ht hi hd hk)
  · rcases exec_startsEngine ht hi with ⟨_, rfl⟩ | ⟨hidle, _⟩
    · exact kept (.of_refuse s _)
    · exact absurd (h.active.symm.trans hidle) nofun

/-- No step of any schedule moves a hanging engine: neither of the urgent steps is enabled. -/
theorem Hangs.of_step {s t : State} (h : Hangs s) (ht : step s = .next t) :
    t.tx = s.tx ∧ t.pt.run = s.pt.run ∧ t.pt.count ≤ s.pt.count := by
  obtain ⟨_, rest, hcases⟩ := step_next_cases ht
  rcases hcases with ⟨i, hi⟩ | rfl | rfl | ⟨he, _⟩ | ⟨he, _⟩
  · exact (h.of_sched rest).of_exec hi
  · exact ⟨rfl, rfl, le_rfl⟩
  · exact ⟨rfl, rfl, le_rfl⟩
  · exact absurd ((h.of_sched rest).early.symm.trans he) nofun
  · exact absurd (h.active.symm.trans ((txReturnEnabled_iff _).mp he).2) nofun

/-- A hanging engine left alone: only M.TIME passes. -/
theorem Hangs.runSteps {s : State} (h : Hangs s) (hp : s.par.wellFormed = true) (hs : s.sched = []) (n : Nat) :
    ∃ l r, runSteps s n = { s with m.time := s.m.time + n, lag := l, result := r } := by
  induction n with
  | zero => exact ⟨s.lag, s.result, rfl⟩
  | succ n ih =>
    obtain ⟨l, r, ih⟩ := ih
    have hn : Hangs { s with m.time := s.m.time + n, lag := l, result := r } := { h with }
    rw [runSteps_succ_of_next ih (step_waiting hp hs hn.active hn.early), timerAdvance, hn.nextCount]
    exact ⟨_, _, rfl⟩

/-- Settles O38: the step lemma, and the block left alone. -/
theorem stoppedTimerHangsTheEngine : Obligations.StoppedTimerHangsTheEngine := by
  refine ⟨fun s t ha hr he ht => ?_, fun n s hp hs ha hr he => Hangs.runSteps ⟨ha, hr, he⟩ hp hs n⟩
  obtain ⟨htx, hrun, hcount⟩ := Hangs.of_step ⟨ha, hr, he⟩ ht
  exact ⟨htx, hrun.trans hr, hcount, txStepEnabled_of_count_le he htx hcount⟩

/-! ### The waveform of one phase (R145) -/

/-- The threshold of the half in progress. -/
def dueAt (s : State) : Nat :=
  match s.tx.half with
  | .high => s.tx.d1.toNat
  | .low => s.tx.d2.toNat

theorem txStepEnabled_eq (s : State) : txStepEnabled s = (s.tx.active && decide (dueAt s ≤ s.pt.count)) := by
  unfold txStepEnabled dueAt
  cases s.tx.half <;> rfl

/-- The engine runs on a running timer, in a step that returned nothing, and nothing is scheduled. -/
structure RunsAlone (s : State) : Prop where
  par : s.par.wellFormed = true
  sched : s.sched = []
  active : s.tx.active = true
  run : s.pt.run = true
  result : s.result = none

/-- Up to the threshold of its half the engine waits, and the count follows the time. -/
theorem RunsAlone.runSteps_wait {s : State} (h : RunsAlone s) {n : Nat} (hdue : n ≤ dueAt s - s.pt.count)
    (hfits : s.pt.count + n < 2 ^ s.par.timerWidth) :
    ∃ l, runSteps s n = { s with pt.count := s.pt.count + n, m.time := s.m.time + n, lag := l } := by
  induction n with
  | zero => exact ⟨s.lag, rfl⟩
  | succ n ih =>
    obtain ⟨l, ih⟩ := ih (by omega) (by omega)
    have hearly : txStepEnabled { s with pt.count := s.pt.count + n, m.time := s.m.time + n, lag := l } = false := by
      rw [txStepEnabled_eq, h.active]
      show decide (dueAt s ≤ s.pt.count + n) = false
      simp; omega
    rw [runSteps_succ_of_next ih (step_waiting h.par h.sched h.active hearly)]
    refine ⟨Lag.advance { s with pt.count := s.pt.count + n, m.time := s.m.time + n, lag := l }, ?_⟩
    simp [returning, timerAdvance, nextCount, h.run, h.result, Nat.mod_eq_of_lt hfits, Nat.add_assoc]

/-- The high half from its reset on: d1 ticks, and the TX_STEP that drives the pin low. -/
theorem RunsAlone.runSteps_high {s : State} (h : RunsAlone s) (hh : s.tx.half = .high) (hc : s.pt.count = 0)
    (h1 : s.tx.d1.toNat < 2 ^ s.par.timerWidth) :
    ∃ l, runSteps s (s.tx.d1.toNat + 1) =
      { s with
        tx.pin := false
        tx.half := .low
        pt.count := s.tx.d1.toNat
        m.time := s.m.time + s.tx.d1.toNat
        m.out := s.m.out ++ [.pin false (s.m.time + s.tx.d1.toNat)]
        lag := l } := by
  have hd : dueAt s = s.tx.d1.toNat := by rw [dueAt, hh]
  obtain ⟨l, hwait⟩ := h.runSteps_wait (n := s.tx.d1.toNat) (by omega) (by omega)
  rw [hc, Nat.zero_add] at hwait
  refine ⟨l, ?_⟩
  rw [runSteps_succ_of_next hwait (step_txStep h.par h.sched (by simp [txStepEnabled, h.active, hh])),
    txStep_of_high (by exact hh)]
  simp [returning, h.result]

/-- A whole phase from its reset on: high up to d1, low up to d2 where that comes later, and the TX_STEP that ends it. -/
theorem RunsAlone.runSteps_phase {s : State} (h : RunsAlone s) (hh : s.tx.half = .high) (hc : s.pt.count = 0)
    (h1 : s.tx.d1.toNat < 2 ^ s.par.timerWidth) (h2 : s.tx.d2.toNat < 2 ^ s.par.timerWidth) :
    ∃ l, runSteps s (max s.tx.d1.toNat s.tx.d2.toNat + 2) =
      returning none (txStep { s with
        tx.pin := false
        tx.half := .low
        pt.count := max s.tx.d1.toNat s.tx.d2.toNat
        m.time := s.m.time + max s.tx.d1.toNat s.tx.d2.toNat
        m.out := s.m.out ++ [.pin false (s.m.time + s.tx.d1.toNat)]
        lag := l }) := by
  obtain ⟨l, hhigh⟩ := h.runSteps_high hh hc h1
  have hmax : s.tx.d1.toNat + (s.tx.d2.toNat - s.tx.d1.toNat) = max s.tx.d1.toNat s.tx.d2.toNat := by omega
  have hlow : RunsAlone (runSteps s (s.tx.d1.toNat + 1)) := by rw [hhigh]; exact { h with }
  obtain ⟨l', hwait⟩ := hlow.runSteps_wait (n := s.tx.d2.toNat - s.tx.d1.toNat)
    (by rw [hhigh]; exact le_rfl) (by rw [hhigh]; show s.tx.d1.toNat + _ < 2 ^ s.par.timerWidth; omega)
  rw [← runSteps_add, hhigh] at hwait
  simp only [Nat.add_assoc, hmax] at hwait
  rw [show s.tx.d1.toNat + (1 + (s.tx.d2.toNat - s.tx.d1.toNat)) = max s.tx.d1.toNat s.tx.d2.toNat + 1 by omega] at hwait
  exact ⟨l', runSteps_succ_of_next hwait
    (step_txStep h.par h.sched (by simp [txStepEnabled, h.active]))⟩

/-- Settles O35: one phase, which ends the run. -/
theorem outTickHasTwoThresholdsFromOneReset : Obligations.OutTickHasTwoThresholdsFromOneReset := by
  intro d1 d2 s hp hs ha hr h1 h2
  rw [exec_outTick_of_idle d1 d2 ha, stateAfter_next]
  have hstart : RunsAlone (returning none (startSingle d1 d2 s)) := ⟨hp, hs, rfl, hr, rfl⟩
  obtain ⟨l, hphase⟩ := hstart.runSteps_phase rfl rfl h1 h2
  refine hphase.trans ?_
  rw [txStep_of_single rfl rfl]
  simp [returning, endRun, startSingle_eq]

/-! ### The waveform of a frame (R149) -/

/-- A frame for c at the start of its phase k, after the re-arm of the timer at `s` and k whole phases. -/
def framePhase (c : Word16) (s : State) (k : Nat) : State :=
  { s with
    tx := { active := true, mode := .frame, cmd := c, phase := BitVec.ofNat 4 k, half := .high, pin := true
            d1 := threshold (phaseTicks s.par k c).1, d2 := threshold (phaseTicks s.par k c).2 }
    pt := { count := 0, run := true }
    timerCtl := s.timerCtl ++ [.start] ++ List.replicate (k + 2) .reset
    m.time := s.m.time + phaseStart s.par c k
    m.out := s.m.out ++ framePins s.par c s.m.time k ++ [.pin true (s.m.time + phaseStart s.par c k)]
    lag := { high := 0, low := 0, ret := 0 }
    result := none }

/-- A frame's first state is the start of its phase 0. -/
theorem framePhase_zero (c : Word16) (s : State) : framePhase c s 0 = returning none (startFrame c s) := by
  rw [startFrame_eq]
  simp [framePhase, returning, phaseStart, framePins, phaseTicks, List.replicate_succ]

/-- The end of the low half of phase k, where the engine is about to take the TX_STEP that ends the phase. -/
def framePhaseDone (c : Word16) (s : State) (k : Nat) (l : Lag) : State :=
  { framePhase c s k with
    tx.pin := false
    tx.half := .low
    pt.count := (phaseTicks s.par k c).2
    m.time := s.m.time + phaseStart s.par c (k + 1)
    m.out := s.m.out ++ framePins s.par c s.m.time (k + 1)
    lag := l }

/-- A phase that fits the timer takes its own ticks and two TX_STEPs. -/
theorem runSteps_framePhase {c : Word16} {s : State} {k : Nat} (hp : s.par.wellFormed = true) (hs : s.sched = [])
    (hfits : (phaseTicks s.par k c).2 < 2 ^ s.par.timerWidth) :
    ∃ l, runSteps (framePhase c s k) ((phaseTicks s.par k c).2 + 2) =
      returning none (txStep (framePhaseDone c s k l)) := by
  have hle := phaseTicks_le s.par k c
  have hd1 := threshold_toNat hp (hle.trans_lt hfits)
  have hd2 := threshold_toNat hp hfits
  have hstart : RunsAlone (framePhase c s k) := ⟨hp, hs, rfl, rfl, rfl⟩
  obtain ⟨l, hphase⟩ := hstart.runSteps_phase rfl rfl (hd1.trans_lt (hle.trans_lt hfits)) (hd2.trans_lt hfits)
  exact ⟨l, by simpa [framePhaseDone, framePhase, hd1, hd2, hle, framePins_succ, phaseStart_succ, Nat.add_assoc]
    using hphase⟩

/-- The TX_STEP at the end of a phase before the trailer's starts the next. -/
theorem txStep_framePhaseDone {c : Word16} {s : State} {k : Nat} (hk : k < 13) (l : Lag) :
    returning none (txStep (framePhaseDone c s k l)) = framePhase c s (k + 1) := by
  have hphase : (framePhaseDone c s k l).tx.phase.toNat = k := Nat.mod_eq_of_lt (show k < 2 ^ 4 by omega)
  rw [txStep_of_phase rfl rfl (by omega), hphase, startPhase_eq]
  simp [framePhaseDone, framePhase, returning, List.replicate_succ' (n := k + 2)]

/-- The engine left alone reaches the start of each phase in turn. -/
theorem runSteps_framePhase_zero {c : Word16} {s : State} (hp : s.par.wellFormed = true) (hs : s.sched = [])
    (hfits : ∀ k, k ≤ 13 → (phaseTicks s.par k c).2 < 2 ^ s.par.timerWidth) {k : Nat} (hk : k ≤ 13) :
    runSteps (framePhase c s 0) (phaseStart s.par c k + 2 * k) = framePhase c s k := by
  induction k with
  | zero => rfl
  | succ k ih =>
    obtain ⟨l, hphase⟩ := runSteps_framePhase hp hs (hfits k (by omega))
    rw [phaseStart_succ, show phaseStart s.par c k + (phaseTicks s.par k c).2 + 2 * (k + 1) =
      phaseStart s.par c k + 2 * k + ((phaseTicks s.par k c).2 + 2) by omega, runSteps_add, ih (by omega), hphase,
      txStep_framePhaseDone (by omega)]

/-- Settles O36: fourteen phases, the last of which stops the timer and ends the run. -/
theorem frameHasTheTimelineOfItsPhases : Obligations.FrameHasTheTimelineOfItsPhases := by
  intro c s hp hs ha hfits
  obtain ⟨l, htrailer⟩ := runSteps_framePhase hp hs (hfits 13 le_rfl)
  rw [exec_transmit_of_idle c ha, stateAfter_next, ← framePhase_zero, phaseStart_succ,
    show phaseStart s.par c 13 + (phaseTicks s.par 13 c).2 + 28 =
      phaseStart s.par c 13 + 2 * 13 + ((phaseTicks s.par 13 c).2 + 2) by omega, runSteps_add,
    runSteps_framePhase_zero hp hs hfits le_rfl, htrailer, txStep_of_trailer rfl rfl rfl, ← phaseStart_succ]
  simp [returning, endRun, timerStop, requestTimer, framePhaseDone, framePhase, phaseTicks]

end Sys2Proof.Machine
end

section
/-! Proof that bits 15 to 12 of a command never reach the line (42_encoder.md R142). -/

namespace Sys2Proof.Machine

/-- Two commands with the same thresholds in every phase, whatever the parameters. -/
def SameTrain (c c' : Word16) : Prop := ∀ p k, phaseTicks p k c' = phaseTicks p k c

/-- The phase table reads bits 11 to 0 alone. -/
theorem sameTrain_of_toNat {c c' : Word16} (h : c'.toNat = c.toNat % 4096) : SameTrain c c' := by
  intro p k
  unfold phaseTicks
  by_cases hk : k = 0
  · simp [hk]
  · have hbit : c'.getLsbD (12 - k) = c.getLsbD (12 - k) := by
      rw [BitVec.getLsbD, BitVec.getLsbD, h, show 4096 = 2 ^ 12 from rfl, Nat.testBit_mod_two_pow]
      simp; omega
    rw [hbit]

/-- `t` is `s`, but for a TX.CMD with the same train. -/
def AlikeButCmd (s t : State) : Prop := ∃ c, SameTrain s.tx.cmd c ∧ t = { s with tx.cmd := c }

theorem AlikeButCmd.refl (s : State) : AlikeButCmd s s := ⟨s.tx.cmd, fun _ _ => rfl, rfl⟩

/-- Two answers of an operation that may raise: alike states, or the same fault. -/
inductive AlikeAnswers : Except FaultCode State → Except FaultCode State → Prop
  | ok {s t : State} (h : AlikeButCmd s t) : AlikeAnswers (.ok s) (.ok t)
  | error (c : FaultCode) : AlikeAnswers (.error c) (.error c)

/-! ### Every operation, every word and every agent's move answers a next state -/

theorem stateAfter_exec (i : Instr) (s s' : State) : stateAfter s' (exec i s) = stateAfter s (exec i s) := by
  cases i <;> rfl

theorem stateAfter_runWord (w : ReqWord) (s s' : State) :
    stateAfter s' (runWord w s) = stateAfter s (runWord w s) := by
  unfold runWord
  cases decode w with
  | ok i => exact stateAfter_exec i s s'
  | error _ => rfl

theorem stateAfter_runAgent (a : AgentStep) (s s' : State) :
    stateAfter s' (runAgent a s) = stateAfter s (runAgent a s) := by
  cases a with
  | dispatch => cases hd : dispatchEnabled s <;> simp only [runAgent, hd] <;> rfl
  | txStep => rfl
  | txReturn => rfl

section
variable {s t : State} (h : AlikeButCmd s t)
include h

theorem AlikeButCmd.returning (r : Option Result) : AlikeButCmd (returning r s) (returning r t) := by
  obtain ⟨c, hc, rfl⟩ := h
  exact ⟨c, hc, rfl⟩

theorem AlikeButCmd.refuse (code : RefuseCode) : AlikeButCmd (refuse code s) (refuse code t) := by
  obtain ⟨c, hc, rfl⟩ := h
  exact ⟨c, hc, rfl⟩

theorem AlikeButCmd.raiseFault (code : FaultCode) : AlikeButCmd (raiseFault code s) (raiseFault code t) := by
  obtain ⟨c, hc, rfl⟩ := h
  exact ⟨c, hc, rfl⟩

theorem AlikeButCmd.sched (r : List Move) : AlikeButCmd { s with sched := r } { t with sched := r } := by
  obtain ⟨c, hc, rfl⟩ := h
  exact ⟨c, hc, rfl⟩

theorem AlikeButCmd.commit {r r' : Except FaultCode State} (hr : AlikeAnswers r r') :
    AlikeButCmd (commit s (noResult r)) (commit t (noResult r')) := by
  cases hr with
  | ok hu => exact hu.returning none
  | error c => exact h.raiseFault c

/-! ### The receiver's operations do not look at TX.CMD -/

theorem AlikeButCmd.putEvent (e : Event) : AlikeAnswers (putEvent e s) (putEvent e t) := by
  obtain ⟨c, hc, rfl⟩ := h
  simp only [putEvent_eq]
  split
  · exact .ok ⟨c, hc, rfl⟩
  · exact .error _

theorem AlikeButCmd.handleEdge (dir : Dir) : AlikeAnswers (handleEdge dir s) (handleEdge dir t) := by
  obtain ⟨c, hc, rfl⟩ := h
  simp only [handleEdge_eq]
  cases eventOf (classifyEdge s.par dir s.pt.count) with
  | none => exact .ok ⟨c, hc, rfl⟩
  | some e =>
    refine AlikeButCmd.putEvent ?_ e
    exact ⟨c, hc, rfl⟩

theorem AlikeButCmd.handleByte (b : Byte) : AlikeAnswers (handleByte b s) (handleByte b t) := by
  obtain ⟨c, hc, rfl⟩ := h
  unfold Machine.handleByte
  simp only [hbWrite_eq]
  split_ifs with harmed hcap
  · dsimp only
    split_ifs with hfull
    · refine AlikeButCmd.putEvent ?_ _
      exact ⟨c, hc, rfl⟩
    · exact .ok ⟨c, hc, rfl⟩
  · exact .error _
  · exact .ok ⟨c, hc, rfl⟩

theorem AlikeButCmd.execGet : AlikeButCmd (stateAfter s (execGet s)) (stateAfter t (execGet t)) := by
  obtain ⟨c, hc, rfl⟩ := h
  unfold Machine.execGet
  rcases getEvent_cases s with ⟨hq, e⟩ | ⟨hq, hslot, e⟩ | ⟨ev, hq, hslot, e⟩ <;> rw [e]
  · have e' : getEvent { s with tx.cmd := c } = .error .queueUnderflow := if_pos hq
    rw [e']
    exact ⟨c, hc, rfl⟩
  · have e' : getEvent { s with tx.cmd := c } = .error .indexRange := by
      unfold getEvent
      rw [if_neg (by exact Bool.eq_false_iff.mp hq), slotRead]
      simp only [hslot]
    rw [e']
    exact ⟨c, hc, rfl⟩
  · rw [getEvent_of_slot (s := { s with tx.cmd := c }) hq hslot]
    exact ⟨c, hc, rfl⟩

theorem AlikeButCmd.execParseHex : AlikeButCmd (stateAfter s (execParseHex s)) (stateAfter t (execParseHex t)) := by
  obtain ⟨c, hc, rfl⟩ := h
  simp only [Machine.execParseHex, parseAndClear_eq, received, stateAfter_next]
  split_ifs
  · cases parseHex s.par.hexTerm ((List.range s.hb.len).map s.hb.data.read) <;> exact ⟨c, hc, rfl⟩
  · exact ⟨c, hc, rfl⟩

/-! ### The Dispatcher -/

theorem AlikeButCmd.onBit (b : Bool) : AlikeButCmd (onBit b s) (onBit b t) := by
  obtain ⟨c, hc, rfl⟩ := h
  by_cases hcount : s.dec.tick.toNat < 12
  · rw [onBit_count b hcount, onBit_count (s := { s with tx.cmd := c }) b hcount]
    exact ⟨c, hc, rfl⟩
  · rw [onBit_materialise b (not_lt.mp hcount), onBit_materialise (s := { s with tx.cmd := c }) b (not_lt.mp hcount)]
    exact ⟨c, hc, rfl⟩

/-- A transmission has a command of its own, whatever TX.CMD was. -/
theorem AlikeButCmd.onUartReady : AlikeAnswers (onUartReady s) (onUartReady t) := by
  obtain ⟨c, hc, rfl⟩ := h
  simp only [onUartReady_eq, received]
  split_ifs
  · cases parseHex s.par.hexTerm ((List.range s.hb.len).map s.hb.data.read) with
    | ok v => exact .ok (.refl (transmitting v s))
    | error f => exact .ok ⟨c, hc, rfl⟩
  · exact .error _

theorem AlikeButCmd.dispatchOne (hq : queueEmpty s = false) : AlikeAnswers (dispatchOne s) (dispatchOne t) := by
  have hpop : AlikeButCmd { s with q.tail := ringNext s s.q.tail } { t with q.tail := ringNext t t.q.tail } := by
    obtain ⟨c, hc, rfl⟩ := h
    exact ⟨c, hc, rfl⟩
  have hqt : queueEmpty t = false := by obtain ⟨c, hc, rfl⟩ := h; exact hq
  have hslots : t.q.slot[t.q.tail]? = s.q.slot[s.q.tail]? := by obtain ⟨c, hc, rfl⟩ := h; rfl
  cases hs : s.q.slot[s.q.tail]? with
  | none =>
    have hfault : ∀ u : State, queueEmpty u = false → u.q.slot[u.q.tail]? = none →
        Machine.dispatchOne u = .error .indexRange := by
      intro u hu hnone
      simp [Machine.dispatchOne, getEvent, slotRead, hu, hnone]
    rw [hfault s hq hs, hfault t hqt (hslots.trans hs)]
    exact .error _
  | some e =>
    rw [dispatchOne_of_slot hq hs, dispatchOne_of_slot hqt (hslots.trans hs)]
    cases e with
    | bitLow => exact .ok (hpop.onBit false)
    | bitHigh => exact .ok (hpop.onBit true)
    | frameStart =>
      obtain ⟨c, hc, ht⟩ := hpop
      exact .ok ⟨c, hc, by rw [ht]; rfl⟩
    | uartCommandReady => exact hpop.onUartReady

theorem AlikeButCmd.execDispatch : AlikeButCmd (stateAfter s (execDispatch s)) (stateAfter t (execDispatch t)) := by
  have hbusy : (t.dsp = .inTx ∨ t.tx.active = true) = (s.dsp = .inTx ∨ s.tx.active = true) := by
    obtain ⟨c, hc, rfl⟩ := h; rfl
  have hqt : queueEmpty t = queueEmpty s := by obtain ⟨c, hc, rfl⟩ := h; rfl
  simp only [Machine.execDispatch, stateAfter_next, hbusy, hqt]
  split_ifs with _ hq
  · exact h.refuse _
  · exact h.returning none
  · exact h.commit (h.dispatchOne (Bool.eq_false_iff.mpr hq))

/-! ### The engine and the timer -/

/-- The one place where TX.CMD is read: the thresholds of the phase that begins. -/
theorem AlikeButCmd.startPhase (k : Nat) : AlikeButCmd (startPhase k s) (startPhase k t) := by
  obtain ⟨c, hc, rfl⟩ := h
  refine ⟨c, hc, ?_⟩
  simp only [startPhase_eq, hc s.par k]

theorem AlikeButCmd.txStep : AlikeButCmd (txStep s) (txStep t) := by
  have hphase := h.startPhase (s.tx.phase.toNat + 1)
  obtain ⟨c, hc, rfl⟩ := h
  unfold Machine.txStep
  cases s.tx.half with
  | high => exact ⟨c, hc, rfl⟩
  | low =>
    cases s.tx.mode with
    | single => exact ⟨c, hc, rfl⟩
    | frame =>
      dsimp only
      split_ifs
      · exact hphase
      · exact ⟨c, hc, rfl⟩

theorem AlikeButCmd.txReturn : AlikeButCmd (txReturn s) (txReturn t) := by
  obtain ⟨c, hc, rfl⟩ := h
  exact ⟨c, hc, rfl⟩

theorem AlikeButCmd.timerAdvance : AlikeButCmd (timerAdvance s) (timerAdvance t) := by
  obtain ⟨c, hc, rfl⟩ := h
  exact ⟨c, hc, rfl⟩

theorem AlikeButCmd.txStepEnabled : txStepEnabled t = txStepEnabled s := by
  obtain ⟨c, hc, rfl⟩ := h; rfl

theorem AlikeButCmd.txReturnEnabled : txReturnEnabled t = txReturnEnabled s := by
  obtain ⟨c, hc, rfl⟩ := h; rfl

theorem AlikeButCmd.urgentStep : AlikeButCmd (urgentStep s) (urgentStep t) := by
  simp only [Machine.urgentStep, h.txStepEnabled, h.txReturnEnabled]
  split_ifs
  · exact h.txStep
  · exact h.txReturn
  · exact h

theorem AlikeButCmd.execTimerTick : AlikeButCmd (stateAfter s (execTimerTick s)) (stateAfter t (execTimerTick t)) := by
  have hallowed : tickAllowed t = tickAllowed s := by obtain ⟨c, hc, rfl⟩ := h; rfl
  have hsched : t.sched = s.sched := by obtain ⟨c, hc, rfl⟩ := h; rfl
  simp only [Machine.execTimerTick, stateAfter_next, hallowed, hsched]
  split_ifs
  · exact h.timerAdvance.returning none
  · exact (h.urgentStep.sched _).returning none

/-! ### Every operation and every step -/

theorem AlikeButCmd.exec (i : Instr) : AlikeButCmd (stateAfter s (exec i s)) (stateAfter t (exec i t)) := by
  cases i
  case edge dir =>
    have hen : t.inputEn = s.inputEn := by obtain ⟨c, hc, rfl⟩ := h; rfl
    simp only [Machine.exec, execEdge, stateAfter_next, hen]
    split_ifs
    · exact h.commit (h.handleEdge dir)
    · exact h.returning none
  case put e => exact h.commit (h.putEvent e)
  case get => exact h.execGet
  case uartByte b => exact h.commit (h.handleByte b)
  case parseHex => exact h.execParseHex
  case dispatch => exact h.execDispatch
  case timerTick => exact h.execTimerTick
  case transmit c =>
    have hactive : t.tx.active = s.tx.active := by obtain ⟨c, hc, rfl⟩ := h; rfl
    simp only [exec_transmit, stateAfter_next, hactive]
    split_ifs
    · exact h.refuse _
    · obtain ⟨c', _, rfl⟩ := h
      exact .refl (Machine.returning none (startFrame c s))
  case outTick d1 d2 =>
    have hactive : t.tx.active = s.tx.active := by obtain ⟨c, hc, rfl⟩ := h; rfl
    simp only [exec_outTick, stateAfter_next, hactive]
    split_ifs
    · exact h.refuse _
    · obtain ⟨c, hc, rfl⟩ := h
      exact ⟨c, hc, rfl⟩
  all_goals
    obtain ⟨c, hc, rfl⟩ := h
    exact ⟨c, hc, rfl⟩

theorem AlikeButCmd.runAgent (a : AgentStep) :
    AlikeButCmd (stateAfter s (runAgent a s)) (stateAfter t (runAgent a t)) := by
  have hdispatch : dispatchEnabled t = dispatchEnabled s := by obtain ⟨c, hc, rfl⟩ := h; rfl
  cases a <;>
    simp only [Machine.runAgent, apply_ite (stateAfter s), apply_ite (stateAfter t), stateAfter_next, hdispatch,
      h.txStepEnabled, h.txReturnEnabled]
  case dispatch =>
    split_ifs
    · exact h.execDispatch
    · exact h.returning none
  case txStep =>
    split_ifs
    · exact h.txStep.returning none
    · exact h.returning none
  case txReturn =>
    split_ifs
    · exact h.txReturn.returning none
    · exact h.returning none

theorem AlikeButCmd.runWord (w : ReqWord) : AlikeButCmd (stateAfter s (runWord w s)) (stateAfter t (runWord w t)) := by
  unfold Machine.runWord
  cases decode w with
  | ok i => exact h.exec i
  | error _ => exact h.refuse _

theorem AlikeButCmd.runAlone : AlikeButCmd (stateAfter s (runAlone s)) (stateAfter t (runAlone t)) := by
  have hdispatch : dispatchEnabled t = dispatchEnabled s := by obtain ⟨c, hc, rfl⟩ := h; rfl
  have hurgent : urgentEnabled t = urgentEnabled s := by obtain ⟨c, hc, rfl⟩ := h; rfl
  unfold Machine.runAlone
  rw [hurgent, hdispatch]
  split_ifs
  · exact h.urgentStep.returning none
  · exact h.execDispatch
  · exact h.timerAdvance.returning none

theorem AlikeButCmd.step : AlikeButCmd (stateAfter s (step s)) (stateAfter t (step t)) := by
  have hpar : t.par = s.par := by obtain ⟨c, hc, rfl⟩ := h; rfl
  have hsched : t.sched = s.sched := by obtain ⟨c, hc, rfl⟩ := h; rfl
  by_cases hp : s.par.wellFormed = true
  · have hpt : t.par.wellFormed = true := by rw [hpar]; exact hp
    cases hs : s.sched with
    | nil =>
      rw [step_alone hp hs, step_alone hpt (hsched.trans hs)]
      exact h.runAlone
    | cons m rest =>
      cases m with
      | request w =>
        rw [step_request hp hs, step_request hpt (hsched.trans hs), stateAfter_runWord w { s with sched := rest } s,
          stateAfter_runWord w { t with sched := rest } t]
        exact (h.sched rest).runWord w
      | agent a =>
        rw [step_agent hp hs, step_agent hpt (hsched.trans hs), stateAfter_runAgent a { s with sched := rest } s,
          stateAfter_runAgent a { t with sched := rest } t]
        exact (h.sched rest).runAgent a
  · simp only [Machine.step, hpar, hp]
    exact h

theorem AlikeButCmd.runSteps (n : Nat) : AlikeButCmd (runSteps s n) (runSteps t n) := by
  induction n with
  | zero => exact h
  | succ n ih => exact ih.step

end

/-- Settles O33: the header's and the trailer's rows of the phase table hold no bit, and a run depends on TX.CMD only through
the thresholds of the phases. -/
theorem onlyTwelveBitsReachTheLine : Obligations.OnlyTwelveBitsReachTheLine := by
  intro p c c' h
  have htrain := sameTrain_of_toNat h
  have hticks : (phaseTicks p · c') = (phaseTicks p · c) := funext (htrain p)
  refine ⟨rfl, fun k h1 h12 => phaseTicks_bit p c h1 h12, rfl, fun k t0 => ⟨(htrain p k).symm, ?_⟩, fun s n => ?_⟩
  · simp only [framePins, phaseStart, htrain p]
  · have hstart : AlikeButCmd (stateAfter s (exec (.transmit c) s)) (stateAfter s (exec (.transmit c') s)) := by
      simp only [exec_transmit, stateAfter_next]
      split_ifs
      · exact .refl _
      · exact ⟨c', htrain, by simp only [startFrame_eq]; rfl⟩
    obtain ⟨_, _, hrun⟩ := hstart.runSteps n
    rw [hrun]

end Sys2Proof.Machine
end

section
/-! Proof of the round trip (42_encoder.md R153, R154): the queue as the list of its unread events (44_queue.md R199), an idle
receiver of edges, and the frame's edges as the events they become. -/

namespace Sys2Proof.Machine

/-! ### The unread events (44_queue.md R191, R192, R199) -/

/-- The number of unread events is the only one that leads from Q.TAIL to Q.HEAD. -/
theorem unreadIndex_eq_head_iff {s : State} (h : QueueOk s) {k : Nat} (hk : k ≤ s.par.queueN) :
    unreadIndex s k = s.q.head ↔ k = queueCount s := by
  have hhead := h.head_le
  have htail := h.tail_le
  unfold unreadIndex queueCount ringSize
  rw [mod_of_lt_double (x := s.q.tail + k) (by omega),
    mod_of_lt_double (x := s.q.head + (s.par.queueN + 1) - s.q.tail) (by omega)]
  split <;> split <;> omega

theorem queueCount_le (s : State) : queueCount s ≤ s.par.queueN := Nat.lt_succ_iff.mp (Nat.mod_lt _ (Nat.succ_pos _))

theorem unreadIndex_queueCount {s : State} (h : QueueOk s) : unreadIndex s (queueCount s) = s.q.head :=
  (unreadIndex_eq_head_iff h (queueCount_le s)).mpr rfl

theorem tail_mod_ringSize {s : State} (h : QueueOk s) : s.q.tail % ringSize s = s.q.tail :=
  Nat.mod_eq_of_lt (Nat.lt_succ_of_le h.tail_le)

theorem queueCount_eq_zero_iff {s : State} (h : QueueOk s) : queueCount s = 0 ↔ queueEmpty s = true := by
  have hzero : unreadIndex s 0 = s.q.tail := tail_mod_ringSize h
  rw [eq_comm, ← unreadIndex_eq_head_iff h (Nat.zero_le _), hzero, queueEmpty, beq_iff_eq, eq_comm]

theorem unread_eq_nil_iff {s : State} (h : QueueOk s) : unread s = [] ↔ queueEmpty s = true := by
  rw [unread_eq_map h, List.map_eq_nil_iff, List.range_eq_nil, queueCount_eq_zero_iff h]

/-- `s` with its oldest event taken. -/
def popped (s : State) : State := { s with q.tail := ringNext s s.q.tail }

theorem queueOk_popped {s : State} (h : QueueOk s) : QueueOk (popped s) := { h with tail_le := ringNext_le s _ }

theorem unreadIndex_popped (s : State) (k : Nat) : unreadIndex (popped s) k = unreadIndex s (k + 1) := by
  show (ringNext s s.q.tail + k) % ringSize s = _
  rw [ringNext, Nat.mod_add_mod, unreadIndex, Nat.add_right_comm, Nat.add_assoc]

theorem queueCount_popped {s : State} (h : QueueOk s) (hq : queueEmpty s = false) :
    queueCount s = queueCount (popped s) + 1 := by
  have hpos : queueCount s ≠ 0 := fun h0 => by simp [(queueCount_eq_zero_iff h).mp h0] at hq
  have hle := queueCount_le s
  obtain ⟨k, hk⟩ := Nat.exists_eq_succ_of_ne_zero hpos
  rw [hk, ← (unreadIndex_eq_head_iff (queueOk_popped h) (k := k) (by show k ≤ s.par.queueN; omega)).mp]
  rw [unreadIndex_popped, ← Nat.succ_eq_add_one, ← hk]
  exact unreadIndex_queueCount h

/-- The oldest unread event is the slot at Q.TAIL, and the others are what is unread once it is taken. -/
theorem unread_eq_cons {s : State} (h : QueueOk s) (hq : queueEmpty s = false) :
    ∃ e, s.q.slot[s.q.tail]? = some e ∧ unread s = e :: unread (popped s) := by
  have htail : s.q.tail < s.q.slot.length := by rw [h.slots]; exact Nat.lt_succ_of_le h.tail_le
  have hzero : unreadIndex s 0 = s.q.tail := tail_mod_ringSize h
  refine ⟨s.q.slot[s.q.tail], List.getElem?_eq_getElem htail, ?_⟩
  rw [unread_eq_map h, unread_eq_map (queueOk_popped h), queueCount_popped h hq, List.range_succ_eq_map, List.map_cons,
    List.map_map, hzero, List.getD_eq_getElem _ _ htail]
  congr 1
  refine List.map_congr_left fun k _ => ?_
  rw [Function.comp_apply, unreadIndex_popped]
  rfl

/-- A `put` that finds room adds its event behind the unread ones. -/
theorem unread_putState_of_room (e : Event) {s : State} (h : QueueOk s) (hf : queueFull s = false) :
    unread (putState e s) = unread s ++ [e] := by
  have hput := queueOk_putState e h
  have hindex : ∀ k, unreadIndex (putState e s) k = unreadIndex s k := fun k => by
    simp [unreadIndex, putState, hf, ringSize]
  have hhead : s.q.head < s.q.slot.length := by rw [h.slots]; exact Nat.lt_succ_of_le h.head_le
  have hnext : unreadIndex s (queueCount s + 1) = (s.q.head + 1) % ringSize s := by
    rw [← unreadIndex_queueCount h, unreadIndex, unreadIndex, Nat.mod_add_mod, Nat.add_assoc]
  have hroom : queueCount s + 1 ≤ s.par.queueN := by
    by_contra hfull
    have hN : queueCount s + 1 = ringSize s := by have := queueCount_le s; unfold ringSize; omega
    rw [hN, unreadIndex, Nat.add_mod_right, tail_mod_ringSize h] at hnext
    simp [queueFull, ← hnext] at hf
  have hcount : queueCount (putState e s) = queueCount s + 1 :=
    ((unreadIndex_eq_head_iff hput hroom).mp ((hindex _).trans hnext)).symm
  rw [unread_eq_map hput, unread_eq_map h, hcount, List.range_succ, List.map_append, List.map_singleton, hindex,
    unreadIndex_queueCount h]
  congr 1
  · refine List.map_congr_left fun k hk => ?_
    rw [List.mem_range] at hk
    have hne : s.q.head ≠ unreadIndex s k := fun heq =>
      hk.ne ((unreadIndex_eq_head_iff h (hk.le.trans (queueCount_le s))).mp heq.symm)
    rw [hindex]
    simp [putState, List.getElem?_set_ne hne]
  · simp [putState, hhead]

/-- A `put` on a full queue drops the oldest unread event for its own. -/
theorem unread_putState_of_full (e : Event) {s : State} (h : QueueOk s) (hf : queueFull s = true) :
    unread (putState e s) = (unread s).tail ++ [e] := by
  have hhead := h.head_le
  have htail := h.tail_le
  have hcap := h.capacity
  have hfull : (s.q.head + 1) % ringSize s = s.q.tail := beq_iff_eq.mp hf
  have hq : queueEmpty s = false := by
    rw [ringSize, mod_of_lt_double (by omega)] at hfull
    rw [queueEmpty, beq_eq_false_iff_ne]
    split at hfull <;> omega
  have hroom : queueFull (popped s) = false := by
    show ((s.q.head + 1) % ringSize s == (s.q.tail + 1) % ringSize s) = false
    rw [hfull, ringSize, mod_of_lt_double (by omega), beq_eq_false_iff_ne]
    split <;> omega
  have hsame : unread (putState e s) = unread (putState e (popped s)) := by
    have hpq : (putState e s).q = (putState e (popped s)).q := by simp [putState, hf, hroom]; exact ⟨rfl, rfl, rfl⟩
    unfold unread queueCount unreadIndex ringSize
    rw [hpq]
    rfl
  obtain ⟨_, _, hcons⟩ := unread_eq_cons h hq
  rw [hsame, unread_putState_of_room e (queueOk_popped h) hroom, hcons, List.tail_cons]

/-! ### What the receiver makes of an edge (40_classifier.md R104, 45_dispatcher.md R223, R224) -/

/-- The event of an edge after a number of ticks, `none` where it is noise. -/
def edgeEvent (p : Params) (r : Dir × Nat) : Option Event := eventOf (classifyEdge p r.1 r.2)

theorem edgeEvent_ne_uartCommandReady (p : Params) (r : Dir × Nat) : edgeEvent p r ≠ some .uartCommandReady := by
  unfold edgeEvent
  cases classifyEdge p r.1 r.2 <;> nofun

theorem edgeEvent_eq_none_iff (p : Params) (r : Dir × Nat) : edgeEvent p r = none ↔ classifyEdge p r.1 r.2 = .invalid := by
  unfold edgeEvent
  cases classifyEdge p r.1 r.2 <;> simp [eventOf]

/-- The decoder and the history after one bit event. -/
def hearBit (b : Bool) (x : Decoder × List Obs) : Decoder × List Obs :=
  let r := assembleBit b x.1
  if r.2 then ({ r.1 with fip := false }, x.2 ++ [.cmdReport r.1.cmd]) else (r.1, x.2)

theorem hearBit_count (b : Bool) {x : Decoder × List Obs} (h : x.1.tick.toNat < 12) :
    hearBit b x = ((assembleBit b x.1).1, x.2) := by
  simp [hearBit, assembleBit_count b h]

theorem hearBit_materialise (b : Bool) {x : Decoder × List Obs} (h : 12 ≤ x.1.tick.toNat) :
    hearBit b x =
      ({ tick := 0, buf := bufAfter x.1 b, cmd := bufAfter x.1 b, fip := false },
        x.2 ++ [.cmdReport (bufAfter x.1 b)]) := by
  simp [hearBit, assembleBit_materialise b h]

/-- The decoder and the history after an edge: noise is recorded, and an event handled. -/
def hear (x : Decoder × List Obs) (e : Option Event) : Decoder × List Obs :=
  match e with
  | none => (x.1, x.2 ++ [.drop .noise])
  | some .frameStart => ({ x.1 with tick := 0, buf := 0, fip := true }, x.2)
  | some .bitLow => hearBit false x
  | some .bitHigh => hearBit true x
  | some .uartCommandReady => x

/-- A state whose decoder and history are replaced. -/
def withHeard (x : Decoder × List Obs) (s : State) : State := { s with dec := x.1, m.out := x.2 }

theorem onFrameStart_eq_hear (s : State) : onFrameStart s = withHeard (hear (s.dec, s.m.out) (some .frameStart)) s := rfl

theorem onBit_eq_hearBit (b : Bool) (s : State) : onBit b s = withHeard (hearBit b (s.dec, s.m.out)) s := by
  by_cases h : s.dec.tick.toNat < 12
  · rw [onBit_count b h, hearBit_count b h, assembleBit_count b h]; rfl
  · rw [onBit_materialise b (not_lt.mp h), hearBit_materialise b (not_lt.mp h)]; rfl

/-- The decoder and the Commands reported: what is told apart where noise may come between. -/
def heard (x : Decoder × List Obs) : Decoder × List Command := (x.1, reports x.2)

theorem reports_append (xs ys : List Obs) : reports (xs ++ ys) = reports xs ++ reports ys := List.filterMap_append ..

theorem heard_hear_none (x : Decoder × List Obs) : heard (hear x none) = heard x := by
  simp [heard, hear, reports]

/-- What an edge makes of the decoder and of the reports depends on nothing else of the history. -/
theorem heard_hear_congr {x y : Decoder × List Obs} (h : heard x = heard y) (e : Option Event) :
    heard (hear x e) = heard (hear y e) := by
  obtain ⟨d, out⟩ := x
  obtain ⟨d', out'⟩ := y
  obtain ⟨rfl, hr⟩ : d = d' ∧ reports out = reports out' := by simpa [heard] using h
  have bit : ∀ b, heard (hearBit b (d, out)) = heard (hearBit b (d, out')) := by
    intro b
    by_cases hcount : d.tick.toNat < 12
    · simp [hearBit_count, heard, hcount, hr]
    · simp [hearBit_materialise, heard, not_lt.mp hcount, reports_append, hr]
  cases e with
  | none => rw [heard_hear_none, heard_hear_none, h]
  | some e =>
    cases e with
    | bitLow => exact bit false
    | bitHigh => exact bit true
    | frameStart => simp [hear, heard, hr]
    | uartCommandReady => exact h

theorem heard_foldl_hear_congr (es : List (Option Event)) {x y : Decoder × List Obs} (h : heard x = heard y) :
    heard (es.foldl hear x) = heard (es.foldl hear y) := by
  induction es generalizing x y with
  | nil => exact h
  | cons e es ih => exact ih (heard_hear_congr h e)

/-! ### A receiver of edges -/

/-- The Dispatcher is at LOOP and the engine idle, the input is enabled on a running timer, and every unread event is of the
decoder's. -/
structure Receiving (p : Params) (s : State) : Prop where
  par : s.par = p
  queue : QueueOk s
  loop : s.dsp = .loop
  idle : s.tx.active = false
  input : s.inputEn = true
  run : s.pt.run = true
  events : Event.uartCommandReady ∉ unread s

theorem Receiving.of_returning {p : Params} {s : State} (h : Receiving p s) (r : Option Result) :
    Receiving p (returning r s) := { h with queue := { h.queue with } }

theorem Receiving.of_heard {p : Params} {s : State} (h : Receiving p s) (x : Decoder × List Obs) :
    Receiving p (withHeard x s) := { h with queue := { h.queue with } }

theorem Receiving.of_timerReset {p : Params} {s : State} (h : Receiving p s) : Receiving p (timerReset s) :=
  { h with queue := { h.queue with } }

theorem Receiving.of_timerAdvance {p : Params} {s : State} (h : Receiving p s) : Receiving p (timerAdvance s) :=
  { h with queue := { h.queue with } }

theorem Receiving.urgentEnabled {p : Params} {s : State} (h : Receiving p s) : urgentEnabled s = false := by
  simp [Machine.urgentEnabled, txStepEnabled, txReturnEnabled, h.loop, h.idle]

theorem Receiving.of_popped {p : Params} {s : State} (h : Receiving p s) (hq : queueEmpty s = false) :
    Receiving p (popped s) := by
  obtain ⟨_, _, hcons⟩ := unread_eq_cons h.queue hq
  exact { h with queue := queueOk_popped h.queue, events := fun hm => h.events (hcons ▸ List.mem_cons_of_mem _ hm) }

theorem Receiving.of_put {p : Params} {s : State} (h : Receiving p s) {e : Event} (he : e ≠ .uartCommandReady) :
    Receiving p (putState e s) := by
  refine { h with queue := queueOk_putState e h.queue, events := fun hm => ?_ }
  cases hf : queueFull s with
  | false =>
    rw [unread_putState_of_room e h.queue hf, List.mem_append, List.mem_singleton] at hm
    exact hm.elim h.events fun h' => he h'.symm
  | true =>
    rw [unread_putState_of_full e h.queue hf, List.mem_append, List.mem_singleton] at hm
    exact hm.elim (fun h' => h.events (List.mem_of_mem_tail h')) fun h' => he h'.symm

/-- DISPATCH on no event. -/
theorem Receiving.dispatch_empty {p : Params} {s : State} (h : Receiving p s) (hq : queueEmpty s = true) :
    runHarnessStep (.request .dispatch) s = returning none s := by
  simp [runHarnessStep, exec, execDispatch, h.loop, h.idle, hq]

/-- DISPATCH on an event takes it, and handles it. -/
theorem Receiving.dispatch_event {p : Params} {s : State} (h : Receiving p s) (hq : queueEmpty s = false) :
    ∃ e, unread s = e :: unread (popped s) ∧ runHarnessStep (.request .dispatch) s =
      returning none (withHeard (hear (s.dec, s.m.out) (some e)) (popped s)) := by
  obtain ⟨e, he, hcons⟩ := unread_eq_cons h.queue hq
  have hstep : runHarnessStep (.request .dispatch) s = commit s (noResult (dispatchOne s)) := by
    simp [runHarnessStep, exec, execDispatch, h.loop, h.idle, hq]
  refine ⟨e, hcons, ?_⟩
  rw [hstep, dispatchOne_of_slot hq he]
  cases e with
  | frameStart => simp only [onFrameStart_eq_hear]; rfl
  | bitLow => simp only [onBit_eq_hearBit]; rfl
  | bitHigh => simp only [onBit_eq_hearBit]; rfl
  | uartCommandReady => exact absurd (hcons ▸ List.mem_cons_self) h.events

/-- An edge that is noise. -/
theorem Receiving.edge_noise {p : Params} {s : State} (h : Receiving p s) {dir : Dir}
    (he : edgeEvent p (dir, s.pt.count) = none) :
    runHarnessStep (.request (.edge dir)) s = returning none (emit (.drop .noise) (timerReset s)) := by
  rw [edgeEvent_eq_none_iff, ← h.par] at he
  simp only [runHarnessStep, exec_edge_of_enabled dir h.input, handleEdge_of_invalid he]
  rfl

/-- An edge that becomes an event. -/
theorem Receiving.edge_event {p : Params} {s : State} (h : Receiving p s) {dir : Dir} {e : Event}
    (he : edgeEvent p (dir, s.pt.count) = some e) :
    runHarnessStep (.request (.edge dir)) s = returning none (putState e (timerReset s)) := by
  rw [edgeEvent, ← h.par] at he
  simp only [runHarnessStep, exec_edge_of_enabled dir h.input, handleEdge_of_event h.queue he]
  rfl

theorem Receiving.urgent {p : Params} {s : State} (h : Receiving p s) : runHarnessStep .urgent s = s :=
  settleUrgent_of_none h.urgentEnabled

theorem Receiving.tick {p : Params} {s : State} (h : Receiving p s) :
    runHarnessStep (.request .timerTick) s = returning none (timerAdvance s) := by
  show stateAfter s (execTimerTick s) = _
  rw [execTimerTick_of_allowed (by simp [tickAllowed, h.urgentEnabled]), stateAfter_next]

/-- A `put` that finds room drops nothing. -/
theorem putState_out_of_room (e : Event) {s : State} (hf : queueFull s = false) : (putState e s).m.out = s.m.out := by
  simp [putState, hf]

theorem queueFull_of_queueEmpty {s : State} (h : QueueOk s) (hq : queueEmpty s = true) : queueFull s = false := by
  have hhead := h.head_le
  have hcap := h.capacity
  rw [queueEmpty, beq_iff_eq] at hq
  rw [queueFull, ringSize, mod_of_lt_double (by omega), beq_eq_false_iff_ne, ← hq]
  split <;> omega

/-! ### A receiver under any draining (30_encoding.md R87) -/

/-- The steps a harness takes at a receiver: ticks with the urgent steps before them, edges, and DISPATCHes. -/
def isReceptionStep : HarnessStep → Bool
  | .urgent => true
  | .request i => match i with
    | .timerTick => true
    | .dispatch => true
    | .edge _ => true
    | _ => false

/-- What the decoder and the history come to when the unread events are handled, oldest first. -/
def outlook (s : State) : Decoder × List Obs := ((unread s).map some).foldl hear (s.dec, s.m.out)

/-- The count, and what is heard of the line: a tick counts, an edge is heard and resets the count, and a DISPATCH is no
part of the line. -/
def listen (p : Params) (x : Nat × Decoder × List Obs) : HarnessStep → Nat × Decoder × List Obs
  | .urgent => x
  | .request i => match i with
    | .timerTick => ((x.1 + 1) % 2 ^ p.timerWidth, x.2)
    | .edge dir => (0, hear x.2 (edgeEvent p (dir, x.1)))
    | _ => x

/-- How a receiver goes from `s` to `t` while the line is heard from `x` to `y`: unless an event is lost, the decoder and the
reports come to what is heard. -/
structure Follows (p : Params) (s t : State) (x y : Nat × Decoder × List Obs) : Prop where
  receiving : Receiving p t
  marks : SameMarks s t
  count : t.pt.count = y.1
  history : ∃ new, t.m.out = s.m.out ++ new ∧
    (.drop .queueOverflow ∉ new → heard (outlook s) = heard x.2 → heard (outlook t) = heard y.2)

theorem Follows.refl {p : Params} {s : State} {x : Nat × Decoder × List Obs} (h : Receiving p s)
    (hc : s.pt.count = x.1) : Follows p s s x x :=
  ⟨h, .refl s, hc, [], by simp, fun _ => id⟩

theorem Follows.trans {p : Params} {s t u : State} {x y z : Nat × Decoder × List Obs} (h : Follows p s t x y)
    (h' : Follows p t u y z) : Follows p s u x z := by
  obtain ⟨new, hout, hheard⟩ := h.history
  obtain ⟨new', hout', hheard'⟩ := h'.history
  refine ⟨h'.receiving, h.marks.trans h'.marks, h'.count, new ++ new', by simp [hout', hout], fun hno => ?_⟩
  rw [List.mem_append, not_or] at hno
  exact hheard' hno.2 ∘ hheard hno.1

/-- An edge adds one entry to the history at most: its noise, or the Command that its bit completes. -/
theorem hear_history (x : Decoder × List Obs) (e : Option Event) :
    ∃ new, (hear x e).2 = x.2 ++ new ∧ new.length ≤ 1 ∧ (e = none → new = [.drop .noise]) ∧
      (e ≠ none → x.1.tick.toNat < 12 → new = []) := by
  have bit : ∀ b, ∃ new, (hearBit b x).2 = x.2 ++ new ∧ new.length ≤ 1 ∧ (x.1.tick.toNat < 12 → new = []) := by
    intro b
    by_cases hcount : x.1.tick.toNat < 12
    · exact ⟨[], by rw [hearBit_count b hcount, List.append_nil], Nat.zero_le 1, fun _ => rfl⟩
    · exact ⟨_, by rw [hearBit_materialise b (not_lt.mp hcount)], le_rfl, fun h => absurd h hcount⟩
  rcases e with _ | _ | _ | _ | _
  case none => exact ⟨_, rfl, le_rfl, fun _ => rfl, fun h => absurd rfl h⟩
  case some.bitLow =>
    obtain ⟨new, hnew, hlen, hearly⟩ := bit false
    exact ⟨new, hnew, hlen, nofun, fun _ => hearly⟩
  case some.bitHigh =>
    obtain ⟨new, hnew, hlen, hearly⟩ := bit true
    exact ⟨new, hnew, hlen, nofun, fun _ => hearly⟩
  case some.frameStart => exact ⟨[], (List.append_nil _).symm, Nat.zero_le 1, nofun, fun _ _ => rfl⟩
  case some.uartCommandReady => exact ⟨[], (List.append_nil _).symm, Nat.zero_le 1, nofun, fun _ _ => rfl⟩

section
variable {p : Params} {s : State} {x : Nat × Decoder × List Obs} (h : Receiving p s)
include h

/-- Noise leaves the decoder and the reports, whatever is unread. -/
theorem Receiving.follows_noise {dir : Dir} (he : edgeEvent p (dir, s.pt.count) = none) :
    Follows p s (runHarnessStep (.request (.edge dir)) s) x (0, hear x.2 none) := by
  rw [h.edge_noise he]
  refine ⟨(h.of_timerReset.of_heard (hear (s.dec, s.m.out) none)).of_returning none, ⟨rfl, rfl⟩, rfl, [.drop .noise], rfl,
    fun _ hs => ?_⟩
  calc heard (((unread s).map some).foldl hear (hear (s.dec, s.m.out) none))
      = heard (outlook s) := heard_foldl_hear_congr _ (heard_hear_none _)
    _ = heard (hear x.2 none) := by rw [hs, heard_hear_none]

/-- An event goes behind the unread ones, and so is handled after them. -/
theorem Receiving.follows_event {dir : Dir} {e : Event} (he : edgeEvent p (dir, s.pt.count) = some e) :
    Follows p s (runHarnessStep (.request (.edge dir)) s) x (0, hear x.2 (some e)) := by
  have hne : e ≠ .uartCommandReady := fun heq => edgeEvent_ne_uartCommandReady p _ (heq ▸ he)
  rw [h.edge_event he]
  refine ⟨(h.of_timerReset.of_put hne).of_returning none, ⟨rfl, rfl⟩, rfl,
    if queueFull s then [.drop .queueOverflow] else [], rfl, fun hno hs => ?_⟩
  have hf : queueFull s = false := by
    by_contra hf
    simp [hf] at hno
  have hunread : unread (returning none (putState e (timerReset s))) = unread s ++ [e] :=
    unread_putState_of_room e h.of_timerReset.queue hf
  have hout : (putState e (timerReset s)).m.out = s.m.out := putState_out_of_room e hf
  have houtlook : outlook (returning none (putState e (timerReset s))) = hear (outlook s) (some e) := by
    rw [outlook, hunread, returning_m, hout, List.map_append, List.foldl_append]
    rfl
  rw [houtlook, heard_hear_congr hs]

variable (hc : s.pt.count = x.1)
include hc

/-- A DISPATCH moves the oldest unread event into the decoder, so that what all events come to stays. -/
theorem Receiving.follows_dispatch : Follows p s (runHarnessStep (.request .dispatch) s) x x := by
  cases hq : queueEmpty s with
  | true =>
    rw [h.dispatch_empty hq]
    exact ⟨h.of_returning none, ⟨rfl, rfl⟩, hc, [], (List.append_nil _).symm, fun _ => id⟩
  | false =>
    obtain ⟨e, hcons, hstep⟩ := h.dispatch_event hq
    obtain ⟨new, hnew, _⟩ := hear_history (s.dec, s.m.out) (some e)
    rw [hstep]
    refine ⟨((h.of_popped hq).of_heard _).of_returning none, ⟨rfl, rfl⟩, hc, new, hnew, fun _ hs => ?_⟩
    rw [← hs, outlook, outlook, hcons]
    rfl

theorem Receiving.follows_tick :
    Follows p s (runHarnessStep (.request .timerTick) s) x ((x.1 + 1) % 2 ^ p.timerWidth, x.2) := by
  rw [h.tick]
  refine ⟨h.of_timerAdvance.of_returning none, ⟨rfl, rfl⟩, ?_, [], (List.append_nil _).symm, fun _ => id⟩
  rw [← h.par, ← hc]
  exact if_pos h.run

theorem Receiving.follows {a : HarnessStep} (ha : isReceptionStep a = true) :
    Follows p s (runHarnessStep a s) x (listen p x a) := by
  cases a with
  | urgent =>
    rw [h.urgent]
    exact .refl h hc
  | request i =>
    cases i with
    | edge dir =>
      show Follows p s _ x (0, hear x.2 (edgeEvent p (dir, x.1)))
      rw [← hc]
      cases he : edgeEvent p (dir, s.pt.count) with
      | none => exact h.follows_noise he
      | some e => exact h.follows_event he
    | dispatch => exact h.follows_dispatch hc
    | timerTick => exact h.follows_tick hc
    | _ => cases ha

/-- Any number of steps of a receiver. -/
theorem Receiving.follows_runHarness {hs : List HarnessStep} (hhs : ∀ a ∈ hs, isReceptionStep a = true) :
    Follows p s (runHarness hs s) x (hs.foldl (listen p) x) := by
  induction hs generalizing s x with
  | nil => exact .refl h hc
  | cons a hs ih =>
    have hstep := h.follows hc (hhs a List.mem_cons_self)
    exact hstep.trans (ih hstep.receiving hstep.count fun b hb => hhs b (List.mem_cons_of_mem a hb))

end

/-! ### A DISPATCH after each edge -/

/-- How a receiver goes from `s` to `t` when it hears `y` and handles it at once: nothing is left unread, and the next edge is
counted from here. -/
structure Drained (p : Params) (s t : State) (y : Decoder × List Obs) : Prop where
  receiving : Receiving p t
  empty : queueEmpty t = true
  marks : SameMarks s t
  count : t.pt.count = 0
  heard : (t.dec, t.m.out) = y

/-- With no event unread before, an edge and a DISPATCH leave none unread. -/
theorem Receiving.edge_dispatch {p : Params} {s : State} (h : Receiving p s) (hq : queueEmpty s = true) (dir : Dir) :
    Drained p s (runHarness [.request (.edge dir), .request .dispatch] s)
      (hear (s.dec, s.m.out) (edgeEvent p (dir, s.pt.count))) := by
  show Drained p s (runHarnessStep (.request .dispatch) (runHarnessStep (.request (.edge dir)) s)) _
  have hreset := h.of_timerReset
  cases he : edgeEvent p (dir, s.pt.count) with
  | none =>
    have hnoise : Receiving p (returning none (emit (.drop .noise) (timerReset s))) :=
      (hreset.of_heard (hear (s.dec, s.m.out) none)).of_returning none
    rw [h.edge_noise he, hnoise.dispatch_empty hq]
    exact ⟨hnoise.of_returning none, hq, ⟨rfl, rfl⟩, rfl, rfl⟩
  | some e =>
    have hne : e ≠ .uartCommandReady := fun heq => edgeEvent_ne_uartCommandReady p _ (heq ▸ he)
    have hput : Receiving p (returning none (putState e (timerReset s))) := (hreset.of_put hne).of_returning none
    have hf : queueFull (timerReset s) = false := queueFull_of_queueEmpty hreset.queue hq
    have hunread : unread (returning none (putState e (timerReset s))) = [e] := by
      have hnil : unread (timerReset s) = [] := (unread_eq_nil_iff hreset.queue).mpr hq
      exact (unread_putState_of_room e hreset.queue hf).trans (by rw [hnil, List.nil_append])
    have hfull : queueEmpty (returning none (putState e (timerReset s))) = false := by
      rw [← Bool.not_eq_true, ← unread_eq_nil_iff hput.queue, hunread]
      simp
    obtain ⟨e', hcons, hstep⟩ := hput.dispatch_event hfull
    rw [hunread] at hcons
    injection hcons with hsame hnil
    subst hsame
    rw [h.edge_event he, hstep]
    refine ⟨((hput.of_popped hfull).of_heard _).of_returning none,
      (unread_eq_nil_iff (queueOk_popped hput.queue)).mp hnil.symm, ⟨rfl, rfl⟩, rfl, ?_⟩
    show hear (s.dec, (putState e (timerReset s)).m.out) (some e) = _
    rw [putState_out_of_room e hf]
    rfl

/-- Ticks at a receiver are counted, and nothing else of it moves. -/
theorem Receiving.ticks {p : Params} {s : State} (h : Receiving p s) {n : Nat} (hpos : 0 < n) :
    ∃ t, runHarness (tickTimes n) s = t ∧ Receiving p t ∧ t.q = s.q ∧ SameMarks s t ∧ t.dec = s.dec ∧
      t.m.out = s.m.out ∧ t.pt.count = (s.pt.count + n) % 2 ^ p.timerWidth := by
  obtain ⟨k, rfl⟩ := Nat.exists_eq_succ_of_ne_zero hpos.ne'
  refine ⟨_, runHarness_tickTimes h.loop h.idle k, { h with queue := { h.queue with } }, rfl, ⟨rfl, rfl⟩, rfl, rfl, ?_⟩
  rw [← h.par]
  exact if_pos h.run

/-- The rows of a receiver's input with durations that the timer counts. -/
def Countable (p : Params) (rows : List (Dir × Nat)) : Prop := ∀ r ∈ rows, 0 < r.2 ∧ r.2 < 2 ^ p.timerWidth

/-- A row heard by a drained receiver: its ticks, its edge and a DISPATCH. -/
theorem Drained.row {p : Params} {s t : State} {y : Decoder × List Obs} (h : Drained p s t y) {r : Dir × Nat}
    (hpos : 0 < r.2) (hfits : r.2 < 2 ^ p.timerWidth) :
    Drained p s (runHarness (tickTimes r.2 ++ [.request (.edge r.1), .request .dispatch]) t)
      (hear y (edgeEvent p r)) := by
  obtain ⟨u, hu, hrec, hqu, hmarks, hdec, hout, hcount⟩ := h.receiving.ticks hpos
  have hempty : queueEmpty u = true := by rw [queueEmpty, hqu]; exact h.empty
  rw [h.count, Nat.zero_add, Nat.mod_eq_of_lt hfits] at hcount
  have hedge := hrec.edge_dispatch hempty r.1
  rw [hdec, hout, h.heard, hcount] at hedge
  rw [runHarness_append, hu]
  exact { hedge with marks := (h.marks.trans hmarks).trans hedge.marks }

theorem Drained.rows {p : Params} {s t : State} {y : Decoder × List Obs} (h : Drained p s t y) {rows : List (Dir × Nat)}
    (hrows : Countable p rows) :
    Drained p s
      (runHarness (rows.flatMap fun r => tickTimes r.2 ++ [.request (.edge r.1), .request .dispatch]) t)
      ((rows.map (edgeEvent p)).foldl hear y) := by
  induction rows generalizing t y with
  | nil => exact h
  | cons r rows ih =>
    obtain ⟨hpos, hfits⟩ := hrows r List.mem_cons_self
    rw [List.flatMap_cons, runHarness_append, List.map_cons, List.foldl_cons]
    exact ih (h.row hpos hfits) fun r' hr' => hrows r' (List.mem_cons_of_mem r hr')

/-! ### The line alone -/

theorem foldl_listen_tickTimes (p : Params) (n : Nat) (x : Nat × Decoder × List Obs) (hx : x.1 + n < 2 ^ p.timerWidth) :
    (tickTimes n).foldl (listen p) x = (x.1 + n, x.2) := by
  induction n generalizing x with
  | zero => rfl
  | succ n ih =>
    show (tickTimes n).foldl (listen p) ((x.1 + 1) % 2 ^ p.timerWidth, x.2) = _
    rw [Nat.mod_eq_of_lt (by omega), ih _ (by show x.1 + 1 + n < _; omega), Nat.add_assoc, Nat.add_comm 1 n]

theorem foldl_listen_rows (p : Params) {rows : List (Dir × Nat)} (hrows : Countable p rows) (y : Decoder × List Obs) :
    (rows.flatMap fun r => tickTimes r.2 ++ [.request (.edge r.1)]).foldl (listen p) (0, y) =
      (0, (rows.map (edgeEvent p)).foldl hear y) := by
  induction rows generalizing y with
  | nil => rfl
  | cons r rows ih =>
    obtain ⟨hpos, hfits⟩ := hrows r List.mem_cons_self
    rw [List.flatMap_cons, List.foldl_append, List.foldl_append, foldl_listen_tickTimes p r.2 (0, y) (by simpa using hfits),
      List.map_cons, List.foldl_cons]
    show List.foldl _ (0, hear y (edgeEvent p (r.1, 0 + r.2))) _ = _
    rw [Nat.zero_add]
    exact ih (fun r' hr' => hrows r' (List.mem_cons_of_mem r hr')) _

/-- A DISPATCH is no part of the line. -/
theorem foldl_listen_filter (p : Params) (hs : List HarnessStep) (x : Nat × Decoder × List Obs) :
    (hs.filter fun a => a != .request .dispatch).foldl (listen p) x = hs.foldl (listen p) x := by
  rw [List.foldl_filter]
  congr 1
  funext y a
  by_cases ha : a = .request .dispatch
  · subst ha; rfl
  · simp [ha]

/-! ### The events of a frame (42_encoder.md R153) -/

/-- The default durations and windows, at any QUEUE_N. -/
def defaultWith (n : Nat) : Params := { Params.default with queueN := n }

theorem countable_frameEdges (n : Nat) (c : Command) : Countable (defaultWith n) (frameEdges (defaultWith n) c) := by
  have bit : ∀ b, Countable (defaultWith n) (bitEdges (defaultWith n) b) := by
    intro b
    cases b <;> simp [Countable, bitEdges, defaultWith, Params.default]
  intro r hr
  simp only [frameEdges, List.mem_cons, List.mem_append, List.mem_flatMap, List.not_mem_nil, or_false] at hr
  rcases hr with rfl | rfl | ⟨b, _, hb⟩ | rfl
  case inr.inr.inl => exact bit b r hb
  all_goals simp [defaultWith, Params.default]

/-- The rows of a bit: the rise that ends its high is noise, and the fall that ends its low is the bit. -/
theorem edgeEvent_bitEdges (n : Nat) (b : Bool) :
    (bitEdges (defaultWith n) b).map (edgeEvent (defaultWith n)) = [none, some (bitEvent b)] := by
  cases b <;> rfl

/-- Rows 2 to 28: the header, the gap as a first bit event, noise and an event for each bit, and the trailer's noise. -/
theorem edgeEvents_frameEdges (n : Nat) (c : Command) :
    (frameEdges (defaultWith n) c).map (edgeEvent (defaultWith n)) =
      some .frameStart :: some .bitLow ::
        ((lineBits c).flatMap (fun b => [none, some (bitEvent b)]) ++ [none]) := by
  simp only [frameEdges, List.map_cons, List.map_append, List.map_flatMap, edgeEvent_bitEdges]
  rfl

theorem hear_bitEvent (b : Bool) (x : Decoder × List Obs) : hear x (some (bitEvent b)) = hearBit b x := by
  cases b <;> rfl

/-- Bits before the last are assembled, each after the noise of its rise. -/
theorem foldl_hear_bits (bs : List Bool) {x : Decoder × List Obs} (h : x.1.tick.toNat + bs.length ≤ 12) :
    (bs.flatMap fun b => [none, some (bitEvent b)]).foldl hear x =
      (assembleBits bs x.1, x.2 ++ List.replicate bs.length (.drop .noise)) := by
  induction bs generalizing x with
  | nil => simp
  | cons b bs ih =>
    rw [List.length_cons] at h
    have hcount : x.1.tick.toNat < 12 := by omega
    have htick := tick_add_one_toNat hcount
    have hbit : hear (hear x none) (some (bitEvent b)) = ((assembleBit b x.1).1, x.2 ++ [.drop .noise]) := by
      rw [hear_bitEvent]
      exact hearBit_count b hcount
    rw [List.flatMap_cons, List.foldl_append, List.foldl_cons, List.foldl_cons, List.foldl_nil, hbit, ih, assembleBits_cons,
      List.length_cons, List.replicate_succ, List.append_assoc, List.singleton_append]
    rw [assembleBit_count b hcount]
    simp only [htick]
    omega

/-- Thirteen bit events from TICK 0, the last twelve each after noise: the last of them materialises the Command of the line. -/
theorem foldl_hear_thirteen_bits (first : Bool) (c : Command) {d : Decoder} (h : d.tick = 0) (out : List Obs) :
    (some (bitEvent first) :: (lineBits c).flatMap fun b => [none, some (bitEvent b)]).foldl hear (d, out) =
      ({ tick := 0, buf := c, cmd := c, fip := false }, out ++ List.replicate 12 (.drop .noise) ++ [.cmdReport c]) := by
  have hzero : d.tick.toNat = 0 := by rw [h]; rfl
  have hlen : ((lineBits c).take 11).length = 11 := by simp [length_lineBits]
  have hfirst : hear (d, out) (some (bitEvent first)) = ((assembleBit first d).1, out) := by
    rw [hear_bitEvent]
    exact hearBit_count first (by show d.tick.toNat < 12; omega)
  have hone : (assembleBit first d).1.tick.toNat = 1 := by
    rw [assembleBit_count first (by omega)]
    exact (tick_add_one_toNat (by omega)).trans (by rw [hzero])
  have htick : (assembleBits ((lineBits c).take 11) (assembleBit first d).1).tick.toNat = 12 := by
    rw [(assembleBits_count _ (by omega)).1, hlen, hone]
  have hbuf := bufAfter_lineBits first c h
  rw [assembleBits_cons] at hbuf
  rw [lineBits_eq_append_one, List.flatMap_append, List.foldl_cons, hfirst, List.foldl_append,
    foldl_hear_bits ((lineBits c).take 11) (by rw [hone, hlen]), hlen]
  simp only [List.flatMap_cons, List.flatMap_nil, List.append_nil, List.foldl_cons, List.foldl_nil]
  rw [hear_bitEvent, hearBit_materialise _ (by exact htick.ge)]
  simp only [hear, hbuf, List.append_assoc, List.replicate_succ' (n := 11)]

/-- A frame heard from its header on, which leaves TICK 0 whatever the decoder held; the gap is a bit event. -/
theorem foldl_hear_frame (c : Command) (x : Decoder × List Obs) :
    (some .frameStart :: some .bitLow ::
        ((lineBits c).flatMap (fun b => [none, some (bitEvent b)]) ++ [none])).foldl hear x =
      ({ tick := 0, buf := c, cmd := c, fip := false },
        x.2 ++ List.replicate 12 (.drop .noise) ++ [.cmdReport c, .drop .noise]) := by
  have hbits := foldl_hear_thirteen_bits false c (d := { x.1 with tick := 0, buf := 0, fip := true }) rfl x.2
  rw [List.foldl_cons, ← List.cons_append, List.foldl_append]
  refine (congrArg (hear · none) hbits).trans ?_
  simp only [hear, List.append_assoc, List.cons_append, List.nil_append]

/-! ### The round trip (R154) -/

theorem isReceptionStep_of_mem_rxFrame {p : Params} {c : Command} {a : HarnessStep} (ha : a ∈ rxFrame p c) :
    isReceptionStep a = true := by
  have tick : ∀ n, a ∈ tickTimes n → isReceptionStep a = true := by
    intro n hn
    obtain ⟨l, hl, hal⟩ := List.mem_flatten.mp hn
    rw [List.eq_of_mem_replicate hl] at hal
    rcases List.mem_pair.mp hal with rfl | rfl <;> rfl
  rcases List.mem_cons.mp ha with rfl | ha
  · rfl
  · obtain ⟨r, _, hr⟩ := List.mem_flatMap.mp ha
    rcases List.mem_append.mp hr with hr | hr
    · exact tick _ hr
    · rw [List.mem_singleton.mp hr]; rfl

/-- An idle receiver with no event unread. -/
theorem receiving_of_quiescent {s : State} (hqueue : QueueOk s) (hquiet : quiescent s) (hin : s.inputEn = true)
    (hrun : s.pt.run = true) : Receiving s.par s := by
  obtain ⟨hloop, hidle, hempty⟩ := hquiet
  exact ⟨rfl, hqueue, hloop, hidle, hin, hrun, by rw [(unread_eq_nil_iff hqueue).mpr hempty]; nofun⟩

/-- The decoder and the history after row 1. -/
def afterRowOne (p : Params) (s : State) : Decoder × List Obs := hear (s.dec, s.m.out) (edgeEvent p (.falling, s.pt.count))

/-- What is heard of a whole frame. -/
def frameHeard (p : Params) (c : Command) (s : State) : Decoder × List Obs :=
  ({ tick := 0, buf := c, cmd := c, fip := false },
    (afterRowOne p s).2 ++ List.replicate 12 (.drop .noise) ++ [.cmdReport c, .drop .noise])

/-- With a DISPATCH after each edge the receiver ends in what is heard. -/
theorem Receiving.drained_rxFrameDispatched {n : Nat} {s : State} (h : Receiving (defaultWith n) s)
    (hq : queueEmpty s = true) (c : Command) :
    Drained (defaultWith n) s (runHarness (rxFrameDispatched (defaultWith n) c) s) (frameHeard (defaultWith n) c s) := by
  have hrows := (h.edge_dispatch hq .falling).rows (countable_frameEdges n c)
  rw [edgeEvents_frameEdges, foldl_hear_frame, ← runHarness_append] at hrows
  exact hrows

/-- The line of a frame, with DISPATCHes anywhere. -/
theorem foldl_listen_rxFrame {n : Nat} {c : Command} {s : State} {hs : List HarnessStep}
    (hfilter : (hs.filter fun a => a != .request .dispatch) = rxFrame (defaultWith n) c) :
    hs.foldl (listen (defaultWith n)) (s.pt.count, s.dec, s.m.out) = (0, frameHeard (defaultWith n) c s) := by
  rw [← foldl_listen_filter, hfilter, rxFrame, List.foldl_cons]
  show List.foldl _ (0, afterRowOne (defaultWith n) s) _ = _
  rw [foldl_listen_rows _ (countable_frameEdges n c), edgeEvents_frameEdges, foldl_hear_frame]
  rfl

/-- Any draining that loses no event and leaves none unread ends in what is heard, but for where noise comes in the history. -/
theorem Receiving.heard_of_filter_eq_rxFrame {n : Nat} {s t : State} {c : Command} {hs : List HarnessStep}
    (h : Receiving (defaultWith n) s) (hq : queueEmpty s = true)
    (hfilter : (hs.filter fun a => a != .request .dispatch) = rxFrame (defaultWith n) c) (ht : t = runHarness hs s)
    (hqt : queueEmpty t = true) (hlost : t.m.out.count (.drop .queueOverflow) = s.m.out.count (.drop .queueOverflow)) :
    SameMarks s t ∧ heard (t.dec, t.m.out) = heard (frameHeard (defaultWith n) c s) := by
  have hsteps : ∀ a ∈ hs, isReceptionStep a = true := by
    intro a ha
    by_cases hd : a = .request .dispatch
    · rw [hd]; rfl
    · exact isReceptionStep_of_mem_rxFrame (hfilter ▸ List.mem_filter.mpr ⟨ha, by simpa using hd⟩)
  have hfollows := h.follows_runHarness (x := (s.pt.count, s.dec, s.m.out)) rfl hsteps
  rw [foldl_listen_rxFrame hfilter, ← ht] at hfollows
  obtain ⟨new, hout, hheard⟩ := hfollows.history
  have outlook_of_empty : ∀ {u : State}, QueueOk u → queueEmpty u = true → outlook u = (u.dec, u.m.out) := by
    intro u hu hempty
    rw [outlook, (unread_eq_nil_iff hu).mpr hempty]
    rfl
  have hno : Obs.drop .queueOverflow ∉ new := by
    rw [hout, List.count_append] at hlost
    exact List.count_eq_zero.mp (by omega)
  have hend := hheard hno (by rw [outlook_of_empty h.queue hq])
  rw [outlook_of_empty hfollows.receiving.queue hqt] at hend
  exact ⟨hfollows.marks, hend⟩

/-- Settles O50: the history after row 1 continues the history before, and the rest of the frame is heard in full. -/
theorem receivedFrameMaterialisesItsCommand : Obligations.ReceivedFrameMaterialisesItsCommand := by
  intro c s hqueue hquiet hin hrun hpar
  obtain ⟨n, hn⟩ : ∃ n, s.par = defaultWith n := ⟨s.par.queueN, hpar⟩
  have hrec := receiving_of_quiescent hqueue hquiet hin hrun
  obtain ⟨_, _, hq⟩ := hquiet
  rw [hn] at hrec ⊢
  obtain ⟨first, hfirst, hlen, hnoise, hearly⟩ :=
    hear_history (s.dec, s.m.out) (edgeEvent (defaultWith n) (.falling, s.pt.count))
  rw [Ne, edgeEvent_eq_none_iff] at hearly
  rw [edgeEvent_eq_none_iff] at hnoise
  have hrow : (afterRowOne (defaultWith n) s).2 = s.m.out ++ first := hfirst
  refine ⟨?_, fun hs t hfilter ht hqt hlost => ?_⟩
  · have hdrained := hrec.drained_rxFrameDispatched hq c
    have hheard := hdrained.heard
    rw [frameHeard, hrow, Prod.mk.injEq] at hheard
    obtain ⟨hdec, hout⟩ := hheard
    exact ⟨_, first, rfl, hdec, hout, hlen, hnoise, hearly, hdrained.marks.fault, hdrained.marks.refused,
      hdrained.receiving.loop, hdrained.receiving.idle, hdrained.empty⟩
  · obtain ⟨hmarks, hheard⟩ := hrec.heard_of_filter_eq_rxFrame hq hfilter ht hqt hlost
    rw [frameHeard, hrow, heard, heard, Prod.mk.injEq] at hheard
    obtain ⟨hdec, hreports⟩ := hheard
    refine ⟨hdec, hmarks.fault, hmarks.refused, reports first, ?_, (List.length_filterMap_le _ _).trans hlen, ?_⟩
    · have hbits : reports (List.replicate 12 (.drop .noise)) = [] := rfl
      have hend : reports [.cmdReport c, .drop .noise] = [c] := rfl
      rw [hreports, reports_append, reports_append, reports_append, hbits, hend, List.append_nil]
    · intro hquiet
      by_cases hinvalid : classifyEdge (defaultWith n) .falling s.pt.count = .invalid
      · rw [hnoise hinvalid]; rfl
      · rw [hearly hinvalid (hquiet.resolve_left hinvalid)]; rfl

end Sys2Proof.Machine
end

section
/-! Proofs of the statements of 43_hexparse.md: when a parse fails and with which code (R174, R175), what a received byte does
(R171 to R173), and PARSE_HEX (R176, R177). -/

namespace Sys2Proof.Machine

/-! ### The failures of a parse (R174, R175) -/

/-- The backward scan meets a byte that is neither the terminator nor a hex digit before any terminator. -/
def MeetsBadDigit (term : Byte) (bytes : List Byte) : Prop :=
  ∃ before b after, bytes = before ++ b :: after ∧ b ≠ term ∧ hexValue b = none ∧ ∀ d ∈ after, d ≠ term

theorem not_meetsBadDigit_nil (term : Byte) : ¬ MeetsBadDigit term [] := by
  rintro ⟨before, b, after, h, _⟩
  simp at h

/-- The last byte is scanned first: the terminator ends the scan, a bad digit fails it, and a digit leaves it to the rest. -/
theorem meetsBadDigit_append_one (term : Byte) (bytes : List Byte) (b : Byte) :
    MeetsBadDigit term (bytes ++ [b]) ↔ b ≠ term ∧ (hexValue b = none ∨ MeetsBadDigit term bytes) := by
  constructor
  · rintro ⟨before, c, after, hsplit, hc, hnone, hafter⟩
    rcases List.eq_nil_or_concat' after with rfl | ⟨init, d, rfl⟩
    · obtain ⟨-, rfl⟩ := List.append_singleton_inj.mp hsplit
      exact ⟨hc, .inl hnone⟩
    · rw [← List.cons_append, ← List.append_assoc] at hsplit
      obtain ⟨rfl, rfl⟩ := List.append_singleton_inj.mp hsplit
      exact ⟨hafter b (by simp), .inr ⟨before, c, init, rfl, hc, hnone, fun x hx => hafter x (by simp [hx])⟩⟩
  · rintro ⟨hb, hnone | ⟨before, c, after, rfl, hc, hnone, hafter⟩⟩
    · exact ⟨bytes, b, [], rfl, hb, hnone, by simp⟩
    · refine ⟨before, c, after ++ [b], by simp, hc, hnone, fun x hx => ?_⟩
      rcases List.mem_append.mp hx with hx | hx
      · exact hafter x hx
      · rwa [List.mem_singleton.mp hx]

/-- The scan fails on a bad digit and on nothing else, whatever value and weight it starts with. -/
theorem scanHex_reverse_eq_error_iff (term : Byte) (bytes : List Byte) (v w : Nat) (f : HexFailure) :
    scanHex term bytes.reverse v w = .error f ↔ f = .badDigit ∧ MeetsBadDigit term bytes := by
  induction bytes using List.reverseRecOn generalizing v w with
  | nil => simp [scanHex, not_meetsBadDigit_nil]
  | append_singleton bytes b ih =>
    rw [List.reverse_append, List.reverse_singleton, List.singleton_append, meetsBadDigit_append_one]
    by_cases hb : b = term
    · simp [scanHex, hb]
    cases hv : hexValue b with
    | none => simp [scanHex, hb, hv, eq_comm]
    | some d =>
      rw [scanHex_cons hb (by simp [hv]), ih]
      simp [hb]

@[simp] theorem parseHex_nil (term : Byte) : parseHex term [] = .error .empty := rfl

theorem parseHex_append_term (term : Byte) (bytes : List Byte) : parseHex term (bytes ++ [term]) = .error .noDigits := by
  simp [parseHex]

/-- Where the last byte is not the terminator, the parse is the scan. -/
theorem parseHex_append_of_ne {term b : Byte} (bytes : List Byte) (hb : b ≠ term) :
    parseHex term (bytes ++ [b]) = (scanHex term (bytes ++ [b]).reverse 0 1).map (BitVec.ofNat 16) := by
  simp only [parseHex, List.reverse_append, List.reverse_singleton, List.singleton_append, if_neg hb]
  cases scanHex term (b :: bytes.reverse) 0 1 <;> rfl

/-- A parse whose last byte is not the terminator can only fail on a bad digit. -/
theorem parseHex_append_eq_error_iff {term b : Byte} (bytes : List Byte) (hb : b ≠ term) (f : HexFailure) :
    parseHex term (bytes ++ [b]) = .error f ↔ f = .badDigit ∧ MeetsBadDigit term (bytes ++ [b]) := by
  rw [parseHex_append_of_ne bytes hb, ← scanHex_reverse_eq_error_iff term (bytes ++ [b]) 0 1]
  cases scanHex term (bytes ++ [b]).reverse 0 1 <;> simp [Except.map]

/-- Settles O29, by the last byte: there is none, it is the terminator, or the scan begins with it. -/
theorem parseFailsExactlyOnTheThreeConditions : Obligations.ParseFailsExactlyOnTheThreeConditions := by
  intro term bytes
  change _ ∧ _ ∧ (_ ↔ MeetsBadDigit term bytes)
  rcases List.eq_nil_or_concat' bytes with rfl | ⟨init, b, rfl⟩
  · simp [not_meetsBadDigit_nil]
  by_cases hb : b = term
  · subst hb
    simp [parseHex_append_term, meetsBadDigit_append_one]
  · simp [parseHex_append_eq_error_iff init hb, List.append_singleton_inj, hb]

/-! ### A received byte (R171 to R173) -/

theorem exec_uartByte (b : Byte) (s : State) :
    exec (.uartByte b) s = .next (commit s (noResult (handleByte b s))) := rfl

/-- Settles O25: of the four things a byte can do, the other three need the path armed. -/
theorem uartByteWhileDisarmedIsDropped : Obligations.UartByteWhileDisarmedIsDropped := by
  intro b s hoff
  rw [exec_uartByte]
  rcases handleByte_cases b s with ⟨_, e⟩ | ⟨hon, _⟩ | ⟨hon, _⟩ | ⟨hon, _⟩
  · rw [e]; rfl
  all_goals simp [hoff] at hon

theorem handleByte_of_store (b : Byte) {s : State} (harmed : s.hb.armed = true) (hcap : s.hb.len < s.par.hbCap)
    (hlt : s.hb.len + 1 < s.par.hbThreshold) :
    handleByte b s = .ok { s with hb := { s.hb with data := s.hb.data.write s.hb.len b, len := s.hb.len + 1 } } := by
  rcases handleByte_cases b s with ⟨hoff | hge, _⟩ | ⟨_, ⟨hge, _⟩, _⟩ | ⟨_, _, _, e⟩ | ⟨_, _, heq, _⟩
  · simp [harmed] at hoff
  iterate 2 omega
  · exact e
  · omega

theorem handleByte_of_threshold (b : Byte) {s : State} (harmed : s.hb.armed = true) (hcap : s.hb.len < s.par.hbCap)
    (heq : s.hb.len + 1 = s.par.hbThreshold) :
    handleByte b s =
      putEvent .uartCommandReady
        { s with hb := { data := s.hb.data.write s.hb.len b, len := s.hb.len + 1, armed := false } } := by
  rcases handleByte_cases b s with ⟨hoff | hge, _⟩ | ⟨_, ⟨hge, _⟩, _⟩ | ⟨_, _, hlt, _⟩ | ⟨_, _, _, e⟩
  · simp [harmed] at hoff
  iterate 3 omega
  · exact e

/-- Settles O23: the data is the one byte's write, and a read after a write is a law of the memory. -/
theorem uartByteIsStoredAtLen : Obligations.UartByteIsStoredAtLen := by
  intro b s hwf harmed hcap hlt
  refine ⟨s.hb.data.write s.hb.len b, ?_, Memory.wf_write hwf _ _, fun i => Memory.read_write_wf hwf _ i b⟩
  rw [exec_uartByte, handleByte_of_store b harmed hcap hlt]
  rfl

/-- Settles O24: the byte is written as in O23, and the put, on a state with the same queue, does not raise. -/
theorem uartByteAtTheThresholdRaisesReady : Obligations.UartByteAtTheThresholdRaisesReady := by
  intro b s hq hwf harmed hcap heq
  refine ⟨s.hb.data.write s.hb.len b, ?_, Memory.wf_write hwf _ _, fun i => Memory.read_write_wf hwf _ i b⟩
  have hstored : QueueOk { s with hb := { data := s.hb.data.write s.hb.len b, len := s.hb.len + 1, armed := false } } :=
    { hq with }
  rw [exec_uartByte, handleByte_of_threshold b harmed hcap heq, putEvent_of_queueOk _ hstored, putState_eq]
  rfl

/-! ### PARSE_HEX (R176, R177) -/

theorem exec_parseHex_of_ok {s : State} {v : Word16} (hcap : s.hb.len ≤ s.par.hbCap)
    (h : parseHex s.par.hexTerm (received s) = .ok v) :
    exec .parseHex s = .next (returning (some (.optU16 (some v))) (hbClear s)) := by
  have e : parseAndClear s = .ok (some v, hbClear s) := by rw [parseAndClear_eq, if_pos hcap, h]
  simp only [exec, execParseHex, e, commit_ok]

theorem exec_parseHex_of_error {s : State} {f : HexFailure} (hcap : s.hb.len ≤ s.par.hbCap)
    (h : parseHex s.par.hexTerm (received s) = .error f) :
    exec .parseHex s = .next (returning (some (.optU16 none)) (hbClear (emit (.drop f.dropCode) s))) := by
  have e : parseAndClear s = .ok (none, hbClear (emit (.drop f.dropCode) s)) := by
    rw [parseAndClear_eq, if_pos hcap, h]
  simp only [exec, execParseHex, e, commit_ok]

/-- Settles O27, by the outcome of the parse. -/
theorem parseHexReturnsTheParseAndClears : Obligations.ParseHexReturnsTheParseAndClears := by
  intro s hcap
  split
  next v hv => exact exec_parseHex_of_ok hcap hv
  next f hf => exact exec_parseHex_of_error hcap hf

end Sys2Proof.Machine
end

section
/-! Proofs of the statements of 44_queue.md: one operation of the queue as an equation and as a change of its unread
events (R191 to R196), the status against the count (R199), and runs of PUTs and GETs (R200). -/

namespace Sys2Proof.Machine

/-! ### The status and the count (R194, R195, R199) -/

theorem queueEmpty_eq_decide (s : State) : queueEmpty s = decide (s.q.head = s.q.tail) := beq_eq_decide ..

theorem queueFull_eq_decide (s : State) :
    queueFull s = decide ((s.q.head + 1) % (s.par.queueN + 1) = s.q.tail) := beq_eq_decide ..

theorem unread_length {s : State} (h : QueueOk s) : (unread s).length = queueCount s := by
  rw [unread_eq_map h, List.length_map, List.length_range]

theorem unread_length_le {s : State} (h : QueueOk s) : (unread s).length ≤ s.par.queueN :=
  (unread_length h).trans_le (queueCount_le s)

/-- N events are unread exactly when Q.HEAD is one slot behind Q.TAIL. -/
theorem queueFull_iff {s : State} (h : QueueOk s) : queueFull s = true ↔ queueCount s = s.par.queueN := by
  have hhead := h.head_le
  have htail := h.tail_le
  rw [eq_comm (a := queueCount s), ← unreadIndex_eq_head_iff h le_rfl, queueFull_eq_decide, decide_eq_true_iff,
    unreadIndex, ringSize, mod_of_lt_double (x := s.q.head + 1) (by omega),
    mod_of_lt_double (x := s.q.tail + s.par.queueN) (by omega)]
  split <;> split <;> omega

/-- Settles O19: both tests are read off the count, which cannot be 0 and N, as N is at least 1. -/
theorem queueStatusAgreesWithTheCount : Obligations.QueueStatusAgreesWithTheCount := by
  intro s h
  have hempty := (queueCount_eq_zero_iff h).symm
  have hfull := queueFull_iff h
  have hcap := h.capacity
  refine ⟨queueCount_le s, unread_length h, hempty, hfull, fun ⟨he, hf⟩ => ?_⟩
  have hzero := hempty.mp he
  have hN := hfull.mp hf
  omega

/-- Settles O17: the two tests as the model computes them, in the indices. -/
theorem emptyAndFullAnswerTheIndexTests : Obligations.EmptyAndFullAnswerTheIndexTests := by
  intro s
  rw [← queueEmpty_eq_decide, ← queueFull_eq_decide]
  exact ⟨rfl, rfl⟩

/-! ### The result of an operation is no part of the queue -/

@[simp] theorem unread_returning (r : Option Result) (s : State) : unread (returning r s) = unread s := rfl

theorem queueOk_returning {s : State} (h : QueueOk s) (r : Option Result) : QueueOk (returning r s) := { h with }

/-! ### PUT (R191, R202) -/

theorem exec_put_of_queueOk (e : Event) {s : State} (h : QueueOk s) :
    exec (.put e) s = .next (returning none (putState e s)) := by
  simp only [exec, execPut, putEvent_of_queueOk e h, noResult_ok, commit_ok]

/-- Settles O15: the head lies in the array, so the put does not raise. -/
theorem putWritesAtHeadWithOverwrite : Obligations.PutWritesAtHeadWithOverwrite := by
  intro e s h
  rw [exec_put_of_queueOk e h, putState_eq]
  rfl

theorem unread_putState (e : Event) {s : State} (h : QueueOk s) :
    unread (putState e s) = (if (unread s).length = s.par.queueN then (unread s).drop 1 else unread s) ++ [e] := by
  rw [unread_length h]
  by_cases hf : queueFull s = true
  · rw [if_pos ((queueFull_iff h).mp hf), List.drop_one, unread_putState_of_full e h hf]
  · rw [if_neg (mt (queueFull_iff h).mpr hf), unread_putState_of_room e h (Bool.eq_false_iff.mpr hf)]

/-- Settles O20: a full queue holds N unread events, and any other has room. -/
theorem putAppendsDroppingOnlyTheOldest : Obligations.PutAppendsDroppingOnlyTheOldest := fun e s h =>
  ⟨returning none (putState e s), exec_put_of_queueOk e h, queueOk_returning (queueOk_putState e h) none,
    unread_putState e h⟩

/-! ### GET (R192, R198) -/

theorem exec_get_of_queueEmpty {s : State} (hq : queueEmpty s = true) :
    exec .get s = .next (raiseFault .queueUnderflow s) := by
  simp only [exec, execGet, getEvent, hq, if_true, commit_error]

theorem exec_get_of_slot {s : State} {e : Event} (hq : queueEmpty s = false) (he : s.q.slot[s.q.tail]? = some e) :
    exec .get s = .next (returning (some (.event e)) (popped s)) := by
  simp only [exec, execGet, getEvent_of_slot hq he, commit_ok, popped]

/-- Settles O16, one clause for each answer of the test. -/
theorem getReturnsTheEventAtTail : Obligations.GetReturnsTheEventAtTail := by
  refine fun s => ⟨fun heq => exec_get_of_queueEmpty (beq_iff_eq.mpr heq), fun h hne => ?_⟩
  have hq : queueEmpty s = false := beq_eq_false_iff_ne.mpr hne
  obtain ⟨e, he, _⟩ := unread_eq_cons h hq
  exact ⟨e, he, exec_get_of_slot hq he⟩

/-- The oldest unread event is the one that `exec_get_of_slot` answers. -/
theorem exec_get_of_unread_eq_cons {s : State} {e : Event} {later : List Event} (h : QueueOk s)
    (hu : unread s = e :: later) :
    exec .get s = .next (returning (some (.event e)) (popped s)) ∧ unread (popped s) = later := by
  have hq : queueEmpty s = false := by
    rw [← Bool.not_eq_true, ← unread_eq_nil_iff h, hu]
    exact List.cons_ne_nil _ _
  obtain ⟨a, ha, hcons⟩ := unread_eq_cons h hq
  obtain ⟨rfl, hlater⟩ := List.cons.inj (hu.symm.trans hcons)
  exact ⟨exec_get_of_slot hq ha, hlater.symm⟩

/-- Settles O21: what is left unread is what is unread in `popped s`. -/
theorem getTakesTheOldestUnreadEvent : Obligations.GetTakesTheOldestUnreadEvent := by
  intro e later s h hu
  obtain ⟨hget, hlater⟩ := exec_get_of_unread_eq_cons h hu
  exact ⟨_, hget, rfl, hlater, queueOk_returning (queueOk_popped h) _⟩

/-! ### QRESET (R196) -/

/-- Equal indices leave nothing to read, in the array or outside it. -/
theorem unread_eq_nil_of_head_eq_tail {s : State} (h : s.q.head = s.q.tail) : unread s = [] := by
  have hcount : queueCount s = 0 := by rw [queueCount, h, Nat.add_sub_cancel_left, Nat.mod_self]
  rw [unread, hcount, List.range_zero, List.filterMap_nil]

/-- Settles O18: the two indices are equal in the next state. -/
theorem qresetCollapsesTheQueue : Obligations.QresetCollapsesTheQueue := fun _ =>
  ⟨_, rfl, rfl, unread_eq_nil_of_head_eq_tail rfl, beq_self_eq_true _⟩

/-! ### Runs of PUTs and of GETs (R200) -/

/-- PUT on the last N of a list of events: the event it drops is the one beyond the last N. -/
theorem unread_putState_eq_drop (e : Event) {s : State} (h : QueueOk s) :
    unread (putState e s) = (unread s ++ [e]).drop ((unread s).length + 1 - s.par.queueN) := by
  have hle := unread_length_le h
  have hcap := h.capacity
  rw [unread_putState e h]
  split
  next hN => rw [hN, Nat.add_sub_cancel_left, List.drop_append_of_le_length (by omega)]
  next hN => rw [show (unread s).length + 1 - s.par.queueN = 0 by omega, List.drop_zero]

/-- PUTs leave the last N of the events unread before and of their own. -/
theorem runInstrs_put (es : List Event) {s : State} (h : QueueOk s) :
    QueueOk (runInstrs (es.map .put) s) ∧
      unread (runInstrs (es.map .put) s) =
        (unread s ++ es).drop ((unread s).length + es.length - s.par.queueN) := by
  induction es generalizing s with
  | nil =>
    refine ⟨h, ?_⟩
    rw [List.append_nil, List.length_nil, Nat.add_zero, Nat.sub_eq_zero_of_le (unread_length_le h), List.drop_zero]
    rfl
  | cons e es ih =>
    have hle := unread_length_le h
    obtain ⟨hok, hunread⟩ := ih (queueOk_returning (queueOk_putState e h) none)
    rw [List.map_cons, runInstrs_cons, exec_put_of_queueOk e h, stateAfter_next]
    refine ⟨hok, hunread.trans ?_⟩
    rw [unread_returning, returning_par, putState_par, unread_putState_eq_drop e h,
      ← List.drop_append_of_le_length (by rw [List.length_append]; exact Nat.sub_le _ _), List.drop_drop,
      List.append_assoc, List.singleton_append, List.length_drop, List.length_append, List.length_singleton,
      List.length_cons]
    congr 1
    omega

/-- The (j+1)-th of a run of GETs answers the j-th unread event. -/
theorem result_runInstrs_get {s : State} (h : QueueOk s) {j : Nat} (hj : j < (unread s).length) :
    (runInstrs (List.replicate (j + 1) .get) s).result = ((unread s)[j]?).map .event := by
  induction j generalizing s with
  | zero =>
    obtain ⟨e, later, hu⟩ := List.exists_cons_of_length_pos hj
    obtain ⟨hget, _⟩ := exec_get_of_unread_eq_cons h hu
    rw [List.replicate_succ, runInstrs_cons, hget, hu]
    rfl
  | succ j ih =>
    obtain ⟨e, later, hu⟩ := List.exists_cons_of_length_pos (Nat.zero_lt_of_lt hj)
    obtain ⟨hget, hlater⟩ := exec_get_of_unread_eq_cons h hu
    rw [hu, List.length_cons, ← hlater] at hj
    rw [List.replicate_succ, runInstrs_cons, hget, stateAfter_next,
      ih (queueOk_returning (queueOk_popped h) (some (.event e))) (Nat.lt_of_succ_lt_succ hj), unread_returning,
      hlater, hu, List.getElem?_cons_succ]

/-- Settles O22: the PUTs start with nothing unread, and the GETs on what they leave. -/
theorem putsFromEmptyKeepTheLastN : Obligations.PutsFromEmptyKeepTheLastN := by
  intro es s h heq
  obtain ⟨hok, hunread⟩ := runInstrs_put es h
  rw [unread_eq_nil_of_head_eq_tail heq, List.nil_append, List.length_nil, Nat.zero_add] at hunread
  refine ⟨hunread, fun j hj => ?_⟩
  rw [← hunread] at hj
  rw [runInstrs_append, result_runInstrs_get hok hj, hunread]

end Sys2Proof.Machine
end

section
/-! Proofs of the statements of 45_dispatcher.md: DISPATCH by the event it takes (R222 to R228), TX_RETURN (R229), moves that are
not enabled (R232), and the decoder during a transmission (R234). The lemmas before the last say once what each operation but
the decoder's own and DISPATCH leaves of the decoder. -/

namespace Sys2Proof.Machine

/-! ### DISPATCH at LOOP with the engine idle (R222) -/

section

variable {s : State} (hloop : s.dsp = .loop) (hidle : s.tx.active = false)
include hloop hidle

theorem exec_dispatch_of_queueEmpty (hq : queueEmpty s = true) : exec .dispatch s = .next (returning none s) := by
  simp [exec, execDispatch, hloop, hidle, hq]

theorem exec_dispatch_of_dispatchOne {t : State} (hq : queueEmpty s = false) (h : dispatchOne s = .ok t) :
    exec .dispatch s = .next (returning none t) := by
  simp [exec, execDispatch, hloop, hidle, hq, h]

theorem dispatchEnabled_of_loop_idle (hq : queueEmpty s = false) : dispatchEnabled s = true := by
  simp [dispatchEnabled, hloop, hidle, hq]

end

theorem queueEmpty_eq_false_of_ne {s : State} (hne : s.q.head ≠ s.q.tail) : queueEmpty s = false :=
  beq_eq_false_iff_ne.mpr hne

/-! ### DISPATCH by the event it takes (R223 to R228) -/

/-- Settles O40: the one event is taken, and its handler is `onFrameStart`. -/
theorem dispatchOfFrameStartBeginsAFrame : Obligations.DispatchOfFrameStartBeginsAFrame := by
  intro s hloop hidle hne hslot
  have hq := queueEmpty_eq_false_of_ne hne
  exact exec_dispatch_of_dispatchOne hloop hidle hq (dispatchOne_of_slot hq hslot)

theorem dispatchOne_of_bitEvent {b : Bool} {s : State} (hq : queueEmpty s = false)
    (hslot : s.q.slot[s.q.tail]? = some (bitEvent b)) : dispatchOne s = .ok (onBit b (popped s)) := by
  rw [dispatchOne_of_slot hq hslot]
  cases b <;> rfl

/-- Settles O41: the handler applies the bit to the decoder, and the tick says whether it is counted or materialises. -/
theorem dispatchOfABitAppliesAndReports : Obligations.DispatchOfABitAppliesAndReports := by
  intro b s hloop hidle hne hslot htick
  have hq := queueEmpty_eq_false_of_ne hne
  have hexec := exec_dispatch_of_dispatchOne hloop hidle hq (dispatchOne_of_bitEvent hq hslot)
  refine ⟨bufAfter s.dec b, fun i hi => bufAfter_getLsbD s.dec b i hi htick, fun hcount => ?_, fun hlast => ?_⟩
  · rw [hexec, onBit_count (s := popped s) b hcount]; rfl
  · rw [hexec, onBit_materialise (s := popped s) b hlast.ge]; rfl

/-- The state in which a transmission begins, field by field: the report comes before the frame's first Pin entry. -/
theorem transmitting_eq (c : Word16) (s : State) :
    transmitting c s =
      { s with
        hb.data := []
        hb.len := 0
        inputEn := false
        dsp := .inTx
        tx := { active := true, mode := .frame, cmd := c, phase := 0, half := .high, pin := true
                d1 := threshold s.par.txHdrHigh, d2 := threshold (s.par.txHdrHigh + s.par.txHdrLow) }
        pt := { count := 0, run := true }
        timerCtl := s.timerCtl ++ [.start, .reset, .reset]
        m.out := s.m.out ++ [.txReport c, .pin true s.m.time]
        lag := { high := 0, low := 0, ret := 0 } } := by
  rw [transmitting, startFrame_eq]
  simp [emit, hbClear]

theorem onUartReady_of_ok {c : Word16} {s : State} (hcap : s.hb.len ≤ s.par.hbCap)
    (h : parseHex s.par.hexTerm (received s) = .ok c) : onUartReady s = .ok (transmitting c s) := by
  rw [onUartReady_eq, if_pos hcap, h]

theorem onUartReady_of_error {f : HexFailure} {s : State} (hcap : s.hb.len ≤ s.par.hbCap)
    (h : parseHex s.par.hexTerm (received s) = .error f) :
    onUartReady s = .ok { hbClear (emit (.drop f.dropCode) s) with hb := { data := [], len := 0, armed := true } } := by
  rw [onUartReady_eq, if_pos hcap, h]

/-- Settles O42, by the outcome of the parse; taking the event leaves the buffer that is parsed. -/
theorem dispatchOfReadyTransmitsOrRearms : Obligations.DispatchOfReadyTransmitsOrRearms := by
  intro s hloop hidle hne hslot hcap
  have hq := queueEmpty_eq_false_of_ne hne
  have htaken : dispatchOne s = onUartReady (popped s) := dispatchOne_of_slot hq hslot
  split
  next c hc =>
    have hone := htaken.trans (onUartReady_of_ok hcap hc)
    rw [exec_dispatch_of_dispatchOne hloop hidle hq hone, transmitting_eq]
    rfl
  next f hf => exact exec_dispatch_of_dispatchOne hloop hidle hq (htaken.trans (onUartReady_of_error hcap hf))

/-! ### The agents' moves (R222, R229, R232) -/

/-- Settles O43, one clause for each of its three: an enabled move, a move that is spent, and an empty queue. -/
theorem dispatchRunsOnlyWhenEnabled : Obligations.DispatchRunsOnlyWhenEnabled := by
  refine ⟨fun rest s hp hs hloop hidle hne => ?_, fun a rest s hp hs huntaken => ?_, fun s hloop hidle heq => ?_⟩
  · have henabled : dispatchEnabled { s with sched := rest } = true :=
      dispatchEnabled_of_loop_idle hloop hidle (queueEmpty_eq_false_of_ne hne)
    rw [step_agent hp hs, runAgent, if_pos henabled]
    rfl
  · have huntaken' : takenByAgent a { s with sched := rest } = none := huntaken
    rw [step_agent hp hs, runAgent_untaken huntaken']
    rfl
  · exact exec_dispatch_of_queueEmpty hloop hidle (beq_iff_eq.mpr heq)

/-- The state in which TX_RETURN leaves the block, field by field. -/
theorem txReturn_eq (s : State) :
    txReturn s =
      { s with
        inputEn := true
        pt := { count := 0, run := true }
        timerCtl := s.timerCtl ++ [.start, .reset]
        hb.armed := true
        dsp := .loop
        lag := { high := 0, low := 0, ret := 0 } } := by
  simp [txReturn, timerStart, timerReset, requestTimer]

/-- Settles O44: blocked in `transmit` with the engine idle, TX_RETURN is enabled. -/
theorem enabledTxReturnRestoresReception : Obligations.EnabledTxReturnRestoresReception := by
  intro rest s hp hs hdsp hidle
  have henabled : txReturnEnabled { s with sched := rest } = true := (txReturnEnabled_iff _).mpr ⟨hdsp, hidle⟩
  rw [step_agent hp hs, runAgent, if_pos henabled, txReturn_eq]
  rfl

/-! ### The decoder during a transmission (R234) -/

theorem putEvent_dec {e : Event} {s t : State} (h : putEvent e s = .ok t) : t.dec = s.dec := by
  obtain ⟨_, rfl⟩ := (putEvent_ok_iff _ _ _).mp h
  rfl

/-- An edge is classified and enqueued; the decoder hears of it from the Dispatcher. -/
theorem handleEdge_dec {dir : Dir} {s t : State} (h : handleEdge dir s = .ok t) : t.dec = s.dec := by
  rw [handleEdge_eq] at h
  split at h
  · cases h; rfl
  · exact (putEvent_dec h).trans (timerReset_dec s)

theorem handleByte_dec {b : Byte} {s t : State} (h : handleByte b s = .ok t) : t.dec = s.dec := by
  rcases handleByte_cases b s with ⟨_, e⟩ | ⟨_, _, e⟩ | ⟨_, _, _, e⟩ | ⟨_, _, _, e⟩ <;> rw [e] at h
  · cases h; rfl
  · cases h
  · cases h; rfl
  · exact (putEvent_dec h).trans rfl

theorem getEvent_dec {e : Event} {s t : State} (h : getEvent s = .ok (e, t)) : t.dec = s.dec := by
  rcases getEvent_cases s with ⟨_, e'⟩ | ⟨_, _, e'⟩ | ⟨_, _, _, e'⟩ <;> rw [e'] at h <;> cases h
  rfl

theorem parseAndClear_dec {r : Option Word16} {s t : State} (h : parseAndClear s = .ok (r, t)) : t.dec = s.dec := by
  rw [parseAndClear_eq] at h
  split at h
  · split at h <;> cases h <;> rfl
  · cases h

@[simp] theorem txStep_dec (s : State) : (txStep s).dec = s.dec := by
  rcases txStep_cases s with ⟨_, e⟩ | ⟨_, _, e⟩ | ⟨_, _, _, e⟩ | ⟨_, _, _, e⟩ <;> simp [e]

@[simp] theorem urgentStep_dec (s : State) : (urgentStep s).dec = s.dec := by
  unfold urgentStep
  split
  · exact txStep_dec s
  split
  · exact txReturn_dec s
  · rfl

/-- A raised fault discards every write, so an operation keeps the decoder where its answers do. -/
theorem commit_dec {s : State} {r : Except FaultCode (State × Option Result)}
    (h : ∀ t res, r = .ok (t, res) → t.dec = s.dec) : (commit s r).dec = s.dec := by
  cases r with
  | ok a => exact h a.1 a.2 rfl
  | error c => rfl

theorem commit_noResult_dec {s : State} {r : Except FaultCode State} (h : ∀ t, r = .ok t → t.dec = s.dec) :
    (commit s (noResult r)).dec = s.dec := by
  cases r with
  | ok t => exact h t rfl
  | error c => rfl

/-- Every operation but the decoder's own two and DISPATCH leaves the decoder. -/
theorem exec_dec {i : Instr} {s t : State} (h : exec i s = .next t) (hframe : i ≠ .beginFrame)
    (hbit : ∀ b, i ≠ .applyBit b) (hdispatch : i ≠ .dispatch) : t.dec = s.dec := by
  cases i <;> (simp only [exec] at h; injection h with h; subst h)
  case beginFrame => exact absurd rfl hframe
  case applyBit b => exact absurd rfl (hbit b)
  case dispatch => exact absurd rfl hdispatch
  case edge =>
    split
    · exact commit_noResult_dec fun _ => handleEdge_dec
    · rfl
  case put => exact commit_noResult_dec fun _ => putEvent_dec
  case get =>
    refine commit_dec fun u _ hu => ?_
    split at hu <;> cases hu
    exact getEvent_dec (by assumption)
  case uartByte => exact commit_noResult_dec fun _ => handleByte_dec
  case parseHex =>
    refine commit_dec fun u _ hu => ?_
    split at hu <;> cases hu
    exact parseAndClear_dec (by assumption)
  case transmit => split <;> simp
  case outTick => split <;> simp
  case timerTick =>
    split
    · exact timerAdvance_dec s
    · exact urgentStep_dec s
  all_goals rfl

/-- A step that is none of the four fair steps: a spent move, a refused word, or an operation whose word is the next one
scheduled. -/
theorem step_next_of_untaken {s t : State} (h : step s = .next t) (hk : stepTaken s = none) :
    ∃ rest : List Move,
      t = returning none { s with sched := rest } ∨ t = refuse .illegalOp { s with sched := rest } ∨
        ∃ i, s.sched = .request (encode i) :: rest ∧ exec i { s with sched := rest } = .next t := by
  have hp := step_next_par h
  cases hs : s.sched with
  | nil =>
    simp only [stepTaken, hs] at hk
    exact absurd hk (takenAlone_ne_none s)
  | cons m rest =>
    refine ⟨rest, ?_⟩
    cases m with
    | agent a =>
      simp only [stepTaken, hs] at hk
      have huntaken : takenByAgent a { s with sched := rest } = none := hk
      rw [step_agent hp hs, runAgent_untaken huntaken] at h
      injection h with h
      exact .inl h.symm
    | request w =>
      rw [step_request hp hs, runWord] at h
      cases hd : decode w with
      | error c =>
        rw [hd] at h
        injection h with h
        exact .inr (.inl h.symm)
      | ok i =>
        rw [hd] at h
        exact .inr (.inr ⟨i, by rw [encode_of_decode hd], h⟩)

/-- Settles O48: TX_STEP, TX_RETURN and a period of the timer leave the decoder, DISPATCH is not enabled and as a request is
refused, and of the other operations only the decoder's own write it. -/
theorem decoderUntouchedDuringATransmission : Obligations.DecoderUntouchedDuringATransmission := by
  intro s t hdsp h hframe hbit
  cases hk : stepTaken s with
  | some k =>
    obtain ⟨henabled, rest, _, hstep⟩ := step_of_taken (step_next_par h) hk
    rw [hstep] at h
    cases k <;> simp only [Host.Outcome.next.injEq] at h
    case timerTick => subst h; exact timerAdvance_dec _
    case txStep => subst h; exact txStep_dec _
    case txReturn => subst h; exact txReturn_dec _
    case dispatch => simp [FairStep.enabled, dispatchEnabled, hdsp] at henabled
  | none =>
    obtain ⟨rest, rfl | rfl | ⟨i, hs, hexec⟩⟩ := step_next_of_untaken h hk
    · rfl
    · rfl
    by_cases hi : i = .dispatch
    · subst hi
      rw [exec_dispatch_of_busy (s := { s with sched := rest }) (.inl hdsp)] at hexec
      injection hexec with hexec
      subst hexec
      rfl
    · exact (exec_dec hexec (fun hi => hframe rest (hi ▸ hs)) (fun b hi => hbit b rest (hi ▸ hs)) hi).trans rfl

end Sys2Proof.Machine
end

section
/-! Proofs of the statements of 60_exceptions.md about one step: it answers a next state (R250, R253), what TIMER_TICK does
(R262), what a step adds to the history (R256), and what the interrupt context writes (R264). -/

namespace Sys2Proof.Machine

/-! ### Every operation and every step answers (R250, R253) -/

theorem exists_exec_next (i : Instr) (s : State) : ∃ t, exec i s = .next t := by
  cases i <;> exact ⟨_, rfl⟩

theorem exists_runWord_next (w : ReqWord) (s : State) : ∃ t, runWord w s = .next t := by
  unfold runWord
  split
  · exact exists_exec_next _ s
  · exact ⟨_, rfl⟩

theorem exists_runAgent_next (a : AgentStep) (s : State) : ∃ t, runAgent a s = .next t := by
  cases a with
  | dispatch =>
    simp only [runAgent]
    split
    · exact exists_exec_next .dispatch s
    · exact ⟨_, rfl⟩
  | txStep => exact ⟨_, rfl⟩
  | txReturn => exact ⟨_, rfl⟩

theorem exists_runAlone_next (s : State) : ∃ t, runAlone s = .next t := by
  rcases runAlone_cases s with ⟨_, h⟩ | ⟨_, _, h⟩ | ⟨_, _, h⟩
  · exact ⟨_, h⟩
  · rw [h]; exact exists_exec_next .dispatch s
  · exact ⟨_, h⟩

theorem exists_step_next {s : State} (hp : s.par.wellFormed = true) : ∃ t, step s = .next t := by
  cases hs : s.sched with
  | nil => rw [step_alone hp hs]; exact exists_runAlone_next s
  | cons m rest =>
    cases m with
    | request w => rw [step_request hp hs]; exact exists_runWord_next w _
    | agent a => rw [step_agent hp hs]; exact exists_runAgent_next a _

/-- Settles O56: the operation, and the step by the move that comes next. -/
theorem nothingHaltsTheBlock : Obligations.NothingHaltsTheBlock := ⟨exists_exec_next, fun _ => exists_step_next⟩

/-! ### TIMER_TICK (R262) -/

theorem execTimerTick_of_waiting {s : State} (h : tickAllowed s = false) :
    execTimerTick s =
      .next (returning none { urgentStep s with sched := .request (encode .timerTick) :: s.sched }) := by
  simp [execTimerTick, h]

/-- A tick waits for an urgent step that has no latency left, or that it would put off (R262, 42_encoder.md R152). -/
theorem tickAllowed_eq_false {s : State} (hu : urgentEnabled s = true)
    (h : s.par.txLatency ≤ urgentLag s ∨ tickKeepsDue s = false) : tickAllowed s = false := by
  rcases h with hlag | hwrap
  · simp [tickAllowed, hu, Nat.not_lt.mpr hlag]
  · simp [tickAllowed, hu, hwrap]

@[simp] theorem txStep_time (s : State) : (txStep s).m.time = s.m.time := by
  rcases txStep_cases s with ⟨_, e⟩ | ⟨_, _, e⟩ | ⟨_, _, _, e⟩ | ⟨_, _, _, e⟩ <;> simp [e]

@[simp] theorem urgentStep_time (s : State) : (urgentStep s).m.time = s.m.time := by
  unfold urgentStep
  split
  · exact txStep_time s
  split <;> simp

/-- Settles O51: an allowed tick is a period of the timer, and any other is the urgent step, which takes no time. -/
theorem timerTickAdvancesOrWaits : Obligations.TimerTickAdvancesOrWaits := by
  intro s
  refine ⟨fun h => execTimerTick_of_allowed h, fun hu h => ?_⟩
  exact ⟨_, execTimerTick_of_waiting (tickAllowed_eq_false hu h), rfl, urgentStep_time s⟩

/-! ### What a step adds to the history (R256, 10_state.md R45) -/

/-- The history of `t` is that of `s` with at most one entry more, a drop. -/
def AddsAtMostADrop (s t : State) : Prop := t.m.out = s.m.out ∨ ∃ c, t.m.out = s.m.out ++ [.drop c]

/-- The history of `t` is that of `s` with entries added, at most one of which is a drop. -/
def AddsOneDropAtMost (s t : State) : Prop := ∃ new, t.m.out = s.m.out ++ new ∧ (drops new).length ≤ 1

theorem AddsAtMostADrop.only_drops {s t : State} (h : AddsAtMostADrop s t) :
    ∃ new, t.m.out = s.m.out ++ new ∧ ∀ o ∈ new, ∃ c, o = Obs.drop c := by
  rcases h with h | ⟨c, h⟩
  · exact ⟨[], by rw [h, List.append_nil], nofun⟩
  · exact ⟨[.drop c], h, fun o ho => ⟨c, List.mem_singleton.mp ho⟩⟩

theorem AddsAtMostADrop.weaken {s t : State} (h : AddsAtMostADrop s t) : AddsOneDropAtMost s t := by
  rcases h with h | ⟨c, h⟩
  · exact ⟨[], by rw [h, List.append_nil], Nat.zero_le 1⟩
  · exact ⟨[.drop c], h, le_rfl⟩

/-- An entry that is no drop. -/
theorem addsOneDropAtMost_of_one {s t : State} {o : Obs} (h : t.m.out = s.m.out ++ [o]) : AddsOneDropAtMost s t :=
  ⟨[o], h, List.length_filter_le _ [o]⟩

theorem addsAtMostADrop_putState (e : Event) (s : State) : AddsAtMostADrop s (putState e s) := by
  unfold AddsAtMostADrop putState
  split
  · exact .inr ⟨.queueOverflow, rfl⟩
  · exact .inl (List.append_nil _)

theorem addsAtMostADrop_put {e : Event} {s u t : State} (h : putEvent e u = .ok t) (hout : u.m.out = s.m.out) :
    AddsAtMostADrop s t := by
  obtain ⟨_, rfl⟩ := (putEvent_ok_iff _ _ _).mp h
  unfold AddsAtMostADrop
  rw [← hout]
  exact addsAtMostADrop_putState e u

theorem addsAtMostADrop_handleEdge {dir : Dir} {s t : State} (h : handleEdge dir s = .ok t) : AddsAtMostADrop s t := by
  rw [handleEdge_eq] at h
  split at h
  · cases h; exact .inr ⟨.noise, rfl⟩
  · exact addsAtMostADrop_put h rfl

theorem addsAtMostADrop_handleByte {b : Byte} {s t : State} (h : handleByte b s = .ok t) : AddsAtMostADrop s t := by
  rcases handleByte_cases b s with ⟨_, e⟩ | ⟨_, _, e⟩ | ⟨_, _, _, e⟩ | ⟨_, _, _, e⟩ <;> rw [e] at h
  · cases h; exact .inr ⟨.uartDisarmed, rfl⟩
  · cases h
  · cases h; exact .inl rfl
  · exact addsAtMostADrop_put h rfl

theorem addsAtMostADrop_parseAndClear {s t : State} {r : Option Word16} (h : parseAndClear s = .ok (r, t)) :
    AddsAtMostADrop s t := by
  rw [parseAndClear_eq] at h
  split at h
  · split at h <;> cases h
    · exact .inl rfl
    · exact .inr ⟨_, rfl⟩
  · cases h

/-- Taking an event leaves the history. -/
theorem getEvent_m {s t : State} {e : Event} (h : getEvent s = .ok (e, t)) : t.m = s.m := by
  rcases getEvent_cases s with ⟨_, e'⟩ | ⟨_, _, e'⟩ | ⟨_, _, _, e'⟩ <;> rw [e'] at h <;> cases h
  rfl

theorem addsOneDropAtMost_onBit (b : Bool) (s : State) : AddsOneDropAtMost s (onBit b s) := by
  by_cases hb : s.dec.tick.toNat < 12
  · rw [onBit_count b hb]; exact AddsAtMostADrop.weaken (.inl rfl)
  · rw [onBit_materialise b (by omega)]; exact addsOneDropAtMost_of_one rfl

/-- A transmission is reported and its first rise recorded; a failed parse is a drop (45_dispatcher.md R227, R228). -/
theorem addsOneDropAtMost_onUartReady {s t : State} (h : onUartReady s = .ok t) : AddsOneDropAtMost s t := by
  rw [onUartReady_eq] at h
  split at h
  · split at h <;> cases h
    · next c _ => exact ⟨[.txReport c, .pin true s.m.time], by rw [transmitting_eq], Nat.zero_le 1⟩
    · exact addsOneDropAtMost_of_one rfl
  · cases h

theorem addsOneDropAtMost_dispatchOne {s t : State} (h : dispatchOne s = .ok t) : AddsOneDropAtMost s t := by
  have taken : ∀ {e : Event} {u : State}, getEvent s = .ok (e, u) → AddsOneDropAtMost u t → AddsOneDropAtMost s t :=
    fun hg ht => by unfold AddsOneDropAtMost at ht ⊢; rwa [getEvent_m hg] at ht
  unfold dispatchOne at h
  split at h
  case h_1 => cases h
  case h_2 hg => cases h; exact taken hg (AddsAtMostADrop.weaken (.inl rfl))
  case h_3 hg => cases h; exact taken hg (addsOneDropAtMost_onBit _ _)
  case h_4 hg => cases h; exact taken hg (addsOneDropAtMost_onBit _ _)
  case h_5 hg => exact taken hg (addsOneDropAtMost_onUartReady h)

theorem addsOneDropAtMost_txStep (s : State) : AddsOneDropAtMost s (txStep s) := by
  rcases txStep_cases s with ⟨_, e⟩ | ⟨_, _, e⟩ | ⟨_, _, _, e⟩ | ⟨_, _, _, e⟩ <;> rw [e]
  · exact addsOneDropAtMost_of_one rfl
  · exact AddsAtMostADrop.weaken (.inl rfl)
  · exact addsOneDropAtMost_of_one rfl
  · exact AddsAtMostADrop.weaken (.inl rfl)

theorem addsOneDropAtMost_urgentStep (s : State) : AddsOneDropAtMost s (urgentStep s) := by
  unfold urgentStep
  split
  · exact addsOneDropAtMost_txStep s
  split <;> exact AddsAtMostADrop.weaken (.inl rfl)

/-- An operation that may raise adds what its answer adds, or nothing: a fault discards its writes (R254). -/
theorem addsOneDropAtMost_commit {s : State} {r : Except FaultCode (State × Option Result)}
    (h : ∀ t res, r = .ok (t, res) → AddsOneDropAtMost s t) : AddsOneDropAtMost s (commit s r) := by
  cases r with
  | ok a => exact h a.1 a.2 rfl
  | error c => exact AddsAtMostADrop.weaken (.inl rfl)

theorem addsOneDropAtMost_commit_noResult {s : State} {r : Except FaultCode State}
    (h : ∀ t, r = .ok t → AddsOneDropAtMost s t) : AddsOneDropAtMost s (commit s (noResult r)) := by
  cases r with
  | ok t => exact h t rfl
  | error c => exact AddsAtMostADrop.weaken (.inl rfl)

theorem exec_addsOneDropAtMost {i : Instr} {s t : State} (h : exec i s = .next t) : AddsOneDropAtMost s t := by
  cases i <;> (simp only [exec] at h; injection h with h; subst h)
  case edge =>
    split
    · exact addsOneDropAtMost_commit_noResult fun _ hu => (addsAtMostADrop_handleEdge hu).weaken
    · exact AddsAtMostADrop.weaken (.inl rfl)
  case put => exact addsOneDropAtMost_commit_noResult fun _ hu => (addsAtMostADrop_put hu rfl).weaken
  case get =>
    refine addsOneDropAtMost_commit fun u _ hu => AddsAtMostADrop.weaken (.inl ?_)
    split at hu <;> cases hu
    rw [getEvent_m (by assumption)]
  case uartByte => exact addsOneDropAtMost_commit_noResult fun _ hu => (addsAtMostADrop_handleByte hu).weaken
  case parseHex =>
    refine addsOneDropAtMost_commit fun u _ hu => AddsAtMostADrop.weaken ?_
    split at hu <;> cases hu
    exact addsAtMostADrop_parseAndClear (by assumption)
  case transmit =>
    split
    · exact AddsAtMostADrop.weaken (.inl rfl)
    · exact addsOneDropAtMost_of_one rfl
  case outTick =>
    split
    · exact AddsAtMostADrop.weaken (.inl rfl)
    · exact addsOneDropAtMost_of_one rfl
  case dispatch =>
    split
    · exact AddsAtMostADrop.weaken (.inl rfl)
    split
    · exact AddsAtMostADrop.weaken (.inl rfl)
    · exact addsOneDropAtMost_commit_noResult fun _ => addsOneDropAtMost_dispatchOne
  case timerTick =>
    split
    · exact AddsAtMostADrop.weaken (.inl rfl)
    · exact addsOneDropAtMost_urgentStep s
  all_goals exact AddsAtMostADrop.weaken (.inl rfl)

theorem step_addsOneDropAtMost {s t : State} (h : step s = .next t) : AddsOneDropAtMost s t := by
  obtain ⟨_, rest, ⟨i, hi⟩ | rfl | rfl | ⟨_, rfl⟩ | ⟨_, rfl⟩⟩ := step_next_cases h
  · exact (exec_addsOneDropAtMost hi :)
  · exact AddsAtMostADrop.weaken (.inl rfl)
  · exact AddsAtMostADrop.weaken (.inl rfl)
  · exact addsOneDropAtMost_txStep { s with sched := rest }
  · exact AddsAtMostADrop.weaken (.inl rfl)

/-- A DISPATCH takes no time. -/
theorem execDispatch_time {s t : State} (h : execDispatch s = .next t) : t.m.time = s.m.time := by
  rcases execDispatch_cases h with ⟨_, hkeeps, _⟩ | ⟨_, ⟨c, rfl⟩ | ⟨u, hu, rfl⟩⟩
  · exact hkeeps.time
  · rfl
  · obtain ⟨_, hkeeps | ⟨c, rfl⟩⟩ := dispatchOne_cases hu
    · exact hkeeps.time
    · rfl

/-- Time passes in a TIMER_TICK that is taken, and in no other step (10_state.md R45). -/
theorem step_time {s t : State} (h : step s = .next t) :
    t.m.time = s.m.time + if stepTaken s = some .timerTick then 1 else 0 := by
  cases hk : stepTaken s with
  | some k =>
    obtain ⟨_, rest, _, hstep⟩ := step_of_taken (step_next_par h) hk
    rw [hstep] at h
    cases k <;> simp only [Host.Outcome.next.injEq] at h
    case timerTick => subst h; rfl
    case txStep => subst h; exact txStep_time { s with sched := rest }
    case txReturn => subst h; rfl
    case dispatch => exact (execDispatch_time h :)
  | none =>
    obtain ⟨rest, _, ⟨w, i, _, _, hi, hexec⟩ | hkeeps⟩ := step_untaken h hk
    · rcases exec_startsEngine hexec hi with ⟨_, rfl⟩ | ⟨_, ⟨c, rfl⟩ | ⟨d1, d2, rfl⟩⟩ <;> rfl
    · exact hkeeps.time

/-- Settles O58: a step that marks a fault or a refusal adds nothing, and no step marks both. -/
theorem stepReportsAtMostOneAnomaly : Obligations.StepReportsAtMostOneAnomaly := by
  intro s t h
  have htime : t.m.time = s.m.time ∨ t.m.time = s.m.time + 1 := by
    rw [step_time h]
    split
    · exact .inr rfl
    · exact .inl rfl
  obtain ⟨rest, heffect⟩ := step_marks h
  cases heffect with
  | kept hsame =>
    obtain ⟨new, hout, hdrops⟩ := step_addsOneDropAtMost h
    exact ⟨new, hout, htime, hdrops, fun hne => absurd hsame.fault hne, fun hne => absurd hsame.refused hne⟩
  | raised c e =>
    subst e
    exact ⟨[], (List.append_nil _).symm, htime, Nat.zero_le 1, fun _ => ⟨rfl, rfl⟩, fun hne => absurd rfl hne⟩
  | refused c e =>
    subst e
    exact ⟨[], (List.append_nil _).symm, htime, Nat.zero_le 1, fun hne => absurd rfl hne, fun _ => ⟨rfl, rfl⟩⟩

/-! ### What the interrupt context writes (R264) -/

/-- A write leaves every other byte, in whatever form the memory is. -/
theorem Memory.read_write_of_ne (m : Memory) {i j : Nat} (b : Byte) (h : j ≠ i) : (m.write i b).read j = m.read j := by
  induction m with
  | nil =>
    unfold Memory.write
    split
    · rfl
    · exact if_neg h.symm
  | cons cell rest ih =>
    obtain ⟨k, c⟩ := cell
    unfold Memory.write
    split_ifs with hlt heq hzero hzero
    · rw [Memory.read_cons, Memory.read_cons, ih]
    · rw [Memory.read_cons, if_neg (heq ▸ h.symm)]
    · rw [Memory.read_cons, Memory.read_cons, if_neg h.symm, if_neg (heq ▸ h.symm)]
    · rfl
    · exact if_neg h.symm

/-- The four ends of an EDGE: the input is disabled, the put raises, the edge is noise, or its event is put. -/
theorem exec_edge_cases {dir : Dir} {s t : State} (h : exec (.edge dir) s = .next t) :
    t = returning none s ∨ (∃ c, t = raiseFault c s) ∨
      (s.inputEn = true ∧ t = returning none (emit (.drop .noise) (timerReset s))) ∨
      (s.inputEn = true ∧ ∃ e, eventOf (classifyEdge s.par dir s.pt.count) = some e ∧
        t = returning none (putState e (timerReset s))) := by
  cases hin : s.inputEn with
  | false => rw [exec_edge_of_disabled dir hin] at h; cases h; exact .inl rfl
  | true =>
    rw [exec_edge_of_enabled dir hin] at h
    injection h with h
    subst h
    refine .inr ?_
    rcases commit_noResult_cases s (handleEdge dir s) with ⟨u, hu, e⟩ | ⟨c, _, e⟩ <;> rw [e]
    · refine .inr ?_
      rw [handleEdge_eq] at hu
      split at hu
      · cases hu; exact .inl ⟨rfl, rfl⟩
      · next ev hev =>
        obtain ⟨_, rfl⟩ := (putEvent_ok_iff _ _ _).mp hu
        exact .inr ⟨rfl, ev, hev, rfl⟩
    · exact .inl ⟨c, rfl⟩

/-- The four ends of a UART_BYTE: an index or the put raises, the byte is dropped, it is stored, or it is stored and the event
put. -/
theorem exec_uartByte_cases {b : Byte} {s t : State} (h : exec (.uartByte b) s = .next t) :
    (∃ c, t = raiseFault c s) ∨ t = returning none (emit (.drop .uartDisarmed) s) ∨
      (s.hb.armed = true ∧
        t = returning none { s with hb := { s.hb with data := s.hb.data.write s.hb.len b, len := s.hb.len + 1 } }) ∨
      (s.hb.armed = true ∧
        t = returning none (putState .uartCommandReady
          { s with hb := { data := s.hb.data.write s.hb.len b, len := s.hb.len + 1, armed := false } })) := by
  rw [exec_uartByte] at h
  injection h with h
  subst h
  rcases commit_noResult_cases s (handleByte b s) with ⟨u, hu, e⟩ | ⟨c, _, e⟩ <;> rw [e]
  · refine .inr ?_
    rcases handleByte_cases b s with ⟨_, e⟩ | ⟨_, _, e⟩ | ⟨harmed, _, _, e⟩ | ⟨harmed, _, _, e⟩ <;> rw [e] at hu
    · cases hu; exact .inl rfl
    · cases hu
    · cases hu; exact .inr (.inl ⟨harmed, rfl⟩)
    · obtain ⟨_, rfl⟩ := (putEvent_ok_iff _ _ _).mp hu
      exact .inr (.inr ⟨harmed, rfl⟩)
  · exact .inl ⟨c, rfl⟩

/-- The queue after a `put`, in the indices of the queue. -/
theorem putState_q (e : Event) (s : State) :
    (putState e s).q =
      { slot := s.q.slot.set s.q.head e
        head := (s.q.head + 1) % (s.par.queueN + 1)
        tail := if (s.q.head + 1) % (s.par.queueN + 1) = s.q.tail
          then (s.q.tail + 1) % (s.par.queueN + 1) else s.q.tail } :=
  congrArg State.q (putState_eq e s)

/-- Settles O59: the four ends of each of the two operations, read field by field. -/
theorem interruptContextWritesOnlyItsOwn : Obligations.InterruptContextWritesOnlyItsOwn := by
  intro dir b s t put addsOnlyDrops
  refine ⟨fun h => ?_, fun h => ?_⟩
  · rcases exec_edge_cases h with rfl | ⟨c, rfl⟩ | ⟨hin, rfl⟩ | ⟨hin, e, he, rfl⟩
    · exact ⟨rfl, rfl, rfl, rfl, rfl, rfl, rfl, rfl, rfl, AddsAtMostADrop.only_drops (.inl rfl), .inl ⟨rfl, rfl⟩, .inl rfl⟩
    · exact ⟨rfl, rfl, rfl, rfl, rfl, rfl, rfl, rfl, rfl, AddsAtMostADrop.only_drops (.inl rfl), .inl ⟨rfl, rfl⟩, .inl rfl⟩
    · exact ⟨rfl, rfl, rfl, rfl, rfl, rfl, rfl, rfl, rfl, AddsAtMostADrop.only_drops (.inr ⟨.noise, rfl⟩),
        .inr ⟨hin, rfl, rfl⟩, .inl rfl⟩
    · exact ⟨rfl, rfl, rfl, rfl, rfl, rfl, rfl, rfl, rfl, (addsAtMostADrop_putState e (timerReset s)).only_drops,
        .inr ⟨hin, rfl, rfl⟩, .inr ⟨hin, e, he, putState_q e (timerReset s)⟩⟩
  · have stored : ∀ i, i ≠ s.hb.len → (s.hb.data.write s.hb.len b).read i = s.hb.data.read i := fun i hi =>
      Memory.read_write_of_ne s.hb.data b hi
    have written : s.hb.data.wf = true → (s.hb.data.write s.hb.len b).read s.hb.len = b := fun hwf => by
      rw [Memory.read_write_wf hwf, if_pos rfl]
    rcases exec_uartByte_cases h with ⟨c, rfl⟩ | rfl | ⟨harmed, rfl⟩ | ⟨harmed, rfl⟩
    · exact ⟨rfl, rfl, rfl, rfl, rfl, rfl, rfl, rfl, rfl, AddsAtMostADrop.only_drops (.inl rfl), .inl rfl, .inl ⟨rfl, rfl⟩⟩
    · exact ⟨rfl, rfl, rfl, rfl, rfl, rfl, rfl, rfl, rfl, AddsAtMostADrop.only_drops (.inr ⟨.uartDisarmed, rfl⟩), .inl rfl,
        .inl ⟨rfl, rfl⟩⟩
    · exact ⟨rfl, rfl, rfl, rfl, rfl, rfl, rfl, rfl, rfl, AddsAtMostADrop.only_drops (.inl rfl),
        .inr ⟨harmed, rfl, written, stored⟩, .inl ⟨rfl, rfl⟩⟩
    · exact ⟨rfl, rfl, rfl, rfl, rfl, rfl, rfl, rfl, rfl,
        (addsAtMostADrop_putState .uartCommandReady { s with hb := _ }).only_drops,
        .inr ⟨harmed, rfl, written, stored⟩, .inr ⟨harmed, rfl, putState_q _ _⟩⟩

end Sys2Proof.Machine
end

section
/-! Proofs of the statements of 60_exceptions.md R276: time passes and a transmission ends when the block runs alone, and on
every fair run a transmission ends and an unread event is dispatched or overwritten. Both kinds of run rest on one measure of
what the engine has still to do: no step but a DISPATCH raises it, and the fair step that the block waits for lowers it. -/

namespace Sys2Proof.Machine

/-! ### What the engine has still to do -/

@[simp] theorem txStep_dsp (s : State) : (txStep s).dsp = s.dsp := by
  rcases txStep_cases s with ⟨_, e⟩ | ⟨_, _, e⟩ | ⟨_, _, _, e⟩ | ⟨_, _, _, e⟩ <;> simp [e]

@[simp] theorem txStep_par (s : State) : (txStep s).par = s.par := by
  rcases txStep_cases s with ⟨_, e⟩ | ⟨_, _, e⟩ | ⟨_, _, _, e⟩ | ⟨_, _, _, e⟩ <;> simp [e]

@[simp] theorem txStep_q (s : State) : (txStep s).q = s.q := by
  rcases txStep_cases s with ⟨_, e⟩ | ⟨_, _, e⟩ | ⟨_, _, _, e⟩ | ⟨_, _, _, e⟩ <;> simp [e]

/-- TX_STEP neither takes a move from the schedule nor adds one. -/
@[simp] theorem txStep_keeps_sched (s : State) : (txStep s).sched = s.sched := by
  rcases txStep_cases s with ⟨_, e⟩ | ⟨_, _, e⟩ | ⟨_, _, _, e⟩ | ⟨_, _, _, e⟩ <;> simp [e]

/-- The ticks to the threshold of the half in progress, none where the engine is idle. -/
def ticksLeft (s : State) : Nat := if s.tx.active then dueAt s - s.pt.count else 0

/-- The urgent steps still to come, and then the ticks before the next of them. -/
def engineLeft (s : State) : ℕ ×ₗ ℕ := toLex (urgentLeft s, ticksLeft s)

/-- The fair step that the block waits for. -/
def awaited (s : State) : FairStep :=
  if txStepEnabled s then .txStep
  else if txReturnEnabled s then .txReturn
  else if s.tx.active then .timerTick
  else .dispatch

theorem engineLeft_lt_of_urgent {s t : State} (h : urgentLeft t < urgentLeft s) : engineLeft t < engineLeft s :=
  Prod.Lex.toLex_lt_toLex.mpr (.inl h)

theorem engineLeft_lt_of_ticks {s t : State} (hu : urgentLeft t = urgentLeft s) (h : ticksLeft t < ticksLeft s) :
    engineLeft t < engineLeft s :=
  Prod.Lex.toLex_lt_toLex.mpr (.inr ⟨hu, h⟩)

theorem engineLeft_txStep_lt {s : State} (he : txStepEnabled s = true) : engineLeft (txStep s) < engineLeft s := by
  have hlt := urgentLeft_lt (s := s) (by simp [urgentEnabled, he])
  rw [urgentStep, if_pos he] at hlt
  exact engineLeft_lt_of_urgent hlt

theorem engineLeft_txReturn_lt {s : State} (he : txReturnEnabled s = true) : engineLeft (txReturn s) < engineLeft s := by
  have hno : txStepEnabled s = false := by
    by_contra hn
    simp [txReturnEnabled_of_txStepEnabled (by simpa using hn)] at he
  have hlt := urgentLeft_lt (s := s) (by simp [urgentEnabled, he])
  rw [urgentStep, if_neg (by simp [hno]), if_pos he] at hlt
  exact engineLeft_lt_of_urgent hlt

/-- The engine's phase, the Dispatcher's state and the threshold test are all that the measure and the awaited step read. -/
theorem engineLeft_awaited_congr {s t : State} (htx : t.tx = s.tx) (hdsp : t.dsp = s.dsp) (hticks : ticksLeft t = ticksLeft s)
    (he : txStepEnabled t = txStepEnabled s) : engineLeft t = engineLeft s ∧ awaited t = awaited s := by
  have hu : urgentLeft t = urgentLeft s := by simp only [urgentLeft, htx, hdsp]
  have hr : txReturnEnabled t = txReturnEnabled s := by simp only [txReturnEnabled, htx, hdsp]
  constructor
  · simp only [engineLeft, hu, hticks]
  · simp only [awaited, he, hr, htx]

/-! ### Inside the Dispatcher's own frame -/

/-- While the engine runs, it sends a frame of the Dispatcher's, whose phases fit the timer. -/
structure OwnFrame (s : State) : Prop where
  dsp : s.tx.active = true → s.dsp = .inTx
  mode : s.tx.active = true → s.tx.mode = .frame
  fits : s.tx.active = true → ∀ k, k ≤ 13 → (phaseTicks s.par k s.tx.cmd).2 < 2 ^ s.par.timerWidth

theorem ownFrame_of_idle {s : State} (h : s.tx.active = false) : OwnFrame s where
  dsp ha := by simp [h] at ha
  mode ha := by simp [h] at ha
  fits ha := by simp [h] at ha

theorem OwnFrame.congr {s t : State} (h : OwnFrame s) (htx : t.tx = s.tx) (hdsp : t.dsp = s.dsp) (hpar : t.par = s.par) :
    OwnFrame t where
  dsp := by rw [htx, hdsp]; exact h.dsp
  mode := by rw [htx]; exact h.mode
  fits := by rw [htx, hpar]; exact h.fits

theorem OwnFrame.of_txStep {s : State} (h : OwnFrame s) (he : txStepEnabled s = true) : OwnFrame (txStep s) := by
  obtain ⟨ha, _⟩ := (txStepEnabled_iff s).mp he
  rcases txStep_cases s with ⟨_, e⟩ | ⟨_, _, e⟩ | ⟨_, _, _, e⟩ | ⟨_, _, _, e⟩ <;> rw [e]
  · exact ⟨h.dsp, h.mode, h.fits⟩
  · exact ownFrame_of_idle rfl
  · exact ⟨fun _ => h.dsp ha, fun _ => h.mode ha, fun _ => by simpa using h.fits ha⟩
  · exact ownFrame_of_idle rfl

/-- The threshold of the half in progress is one that the count can reach. -/
theorem OwnFrame.dueAt_lt {s : State} (h : OwnFrame s) (hinv : Inv s) (ha : s.tx.active = true) :
    dueAt s < 2 ^ s.par.timerWidth := by
  obtain ⟨h1, h2⟩ := hinv.thresholds ha (h.mode ha)
  have hfits := h.fits ha s.tx.phase.toNat hinv.phase
  have hle := phaseTicks_le s.par s.tx.phase.toNat s.tx.cmd
  unfold dueAt
  split
  · rw [h1, threshold_toNat hinv.par (hle.trans_lt hfits)]; exact hle.trans_lt hfits
  · rw [h2, threshold_toNat hinv.par hfits]; exact hfits

/-- A tick brings a waiting engine nearer to its threshold, and otherwise leaves what is to be done and what is awaited. -/
theorem timerAdvance_progress {s : State} (hinv : Inv s) (hown : OwnFrame s) (hallowed : tickAllowed s = true) :
    engineLeft (timerAdvance s) < engineLeft s ∨
      (engineLeft (timerAdvance s) = engineLeft s ∧ awaited (timerAdvance s) = awaited s) ∧
        awaited s ≠ .timerTick := by
  cases ha : s.tx.active with
  | false =>
    have hno : ∀ u : State, u.tx = s.tx → ticksLeft u = 0 ∧ txStepEnabled u = false := fun u hu => by
      simp [ticksLeft, txStepEnabled, hu, ha]
    have hs := hno s rfl
    have ht := hno (timerAdvance s) rfl
    refine .inr ⟨engineLeft_awaited_congr rfl rfl (ht.1.trans hs.1.symm) (ht.2.trans hs.2.symm), ?_⟩
    unfold awaited
    split_ifs <;> simp_all
  | true =>
    have hticks : ∀ u : State, u.tx = s.tx → ticksLeft u = dueAt s - u.pt.count := fun u hu => by
      simp [ticksLeft, dueAt, hu, ha]
    cases he : txStepEnabled s with
    | true =>
      have hkeeps : txStepEnabled (timerAdvance s) = true := (tickAllowed_of_txStep hallowed he).2.2
      have hdue : ∀ u : State, u.tx = s.tx → txStepEnabled u = true → ticksLeft u = 0 := fun u hu h => by
        rw [hticks u hu]
        rw [txStepEnabled_eq, hu, ha, Bool.true_and, decide_eq_true_eq, dueAt, hu] at h
        exact Nat.sub_eq_zero_of_le h
      refine .inr ⟨engineLeft_awaited_congr rfl rfl ?_ (hkeeps.trans he.symm), by simp [awaited, he]⟩
      rw [hdue s rfl he, hdue (timerAdvance s) rfl hkeeps]
    | false =>
      have hearly : s.pt.count < dueAt s := by simpa [txStepEnabled_eq, ha] using he
      have hlt := hown.dueAt_lt hinv ha
      have hnext : nextCount s = s.pt.count + 1 := by
        rw [nextCount, hinv.running ha (hown.mode ha), if_pos rfl, Nat.mod_eq_of_lt (by omega)]
      refine .inl (engineLeft_lt_of_ticks rfl ?_)
      rw [hticks s rfl, hticks (timerAdvance s) rfl]
      show dueAt s - nextCount s < dueAt s - s.pt.count
      omega

/-- What leaves the engine leaves what is to be done: an edge resets the count only with the input enabled, and so outside a
transmission (45_dispatcher.md R226). -/
theorem KeepsEngine.engineLeft_awaited {s t : State} (h : KeepsEngine s t) (hinv : Inv s) (hown : OwnFrame s) :
    engineLeft t = engineLeft s ∧ awaited t = awaited s := by
  rcases h.clock with ⟨hcount, _⟩ | ⟨hin, _⟩
  · refine engineLeft_awaited_congr h.tx h.dsp ?_ ?_
    · simp only [ticksLeft, dueAt, h.tx, hcount]
    · simp only [txStepEnabled, h.tx, hcount]
  · have ha : s.tx.active = false := by
      by_contra hn
      have hdsp := hown.dsp (by simpa using hn)
      simp [hinv.input.mp hin] at hdsp
    refine engineLeft_awaited_congr h.tx h.dsp ?_ ?_
    · simp [ticksLeft, h.tx, ha]
    · simp [txStepEnabled, h.tx, ha]

/-! ### One step, by which of the four fair steps it is -/

/-- What a step can do where nothing scheduled starts the engine: one of the four fair steps, enabled, or none of them. -/
inductive StepEffect (s t : State) : Option FairStep → Prop where
  | ticked (he : tickAllowed s = true) (ht : t = returning none (timerAdvance s)) : StepEffect s t (some .timerTick)
  | stepped (he : txStepEnabled s = true) (ht : t = returning none (txStep s)) : StepEffect s t (some .txStep)
  | returned (he : txReturnEnabled s = true) (ht : t = returning none (txReturn s)) : StepEffect s t (some .txReturn)
  | dispatched (he : dispatchEnabled s = true) (ht : exec .dispatch s = .next t) : StepEffect s t (some .dispatch)
  | kept (h : KeepsEngine s t) : StepEffect s t none

/-- Every step, on the state with its next move taken from the schedule, or, where a TIMER_TICK waits, put back. -/
theorem step_effect {s t : State} (h : step s = .next t) (hnone : noneAsksFor startsEngine s.sched) :
    ∃ rest : List Move, (rest = s.sched.tail ∨ rest = .request (encode .timerTick) :: s.sched.tail) ∧
      StepEffect { s with sched := rest } t (stepTaken s) := by
  cases hk : stepTaken s with
  | some k =>
    obtain ⟨he, rest, hrest, hstep⟩ := step_of_taken (step_next_par h) hk
    rw [hstep] at h
    refine ⟨rest, hrest, ?_⟩
    cases k <;> simp only [Host.Outcome.next.injEq] at h
    case timerTick => exact .ticked he h.symm
    case txStep => exact .stepped he h.symm
    case txReturn => exact .returned he h.symm
    case dispatch => exact .dispatched he h
  | none =>
    obtain ⟨rest, hrest, ⟨w, i, hs, hd, hi, _⟩ | hkeeps⟩ := step_untaken h hk
    · have hno := hnone w (by rw [hs]; exact List.mem_cons_self) i hd
      simp [hi] at hno
    · exact ⟨rest, .inl hrest, .kept hkeeps⟩

@[simp] theorem transmitting_dsp (c : Word16) (s : State) : (transmitting c s).dsp = .inTx := by rw [transmitting_eq]
@[simp] theorem transmitting_mode (c : Word16) (s : State) : (transmitting c s).tx.mode = .frame := by rw [transmitting_eq]
@[simp] theorem transmitting_par (c : Word16) (s : State) : (transmitting c s).par = s.par := by rw [transmitting_eq]
@[simp] theorem transmitting_sched (c : Word16) (s : State) : (transmitting c s).sched = s.sched := by rw [transmitting_eq]

/-- A DISPATCH leaves the schedule and the parameters. -/
theorem execDispatch_sched_par {s t : State} (h : execDispatch s = .next t) : t.sched = s.sched ∧ t.par = s.par := by
  rcases execDispatch_cases h with ⟨_, hkeeps, _⟩ | ⟨_, ⟨c, rfl⟩ | ⟨u, hu, rfl⟩⟩
  · exact ⟨hkeeps.sched, hkeeps.par⟩
  · exact ⟨rfl, rfl⟩
  · obtain ⟨_, hkeeps | ⟨c, rfl⟩⟩ := dispatchOne_cases hu
    · exact ⟨hkeeps.sched, hkeeps.par⟩
    · simp

theorem StepEffect.sched_par {s t : State} {k : Option FairStep} (h : StepEffect s t k) :
    t.sched = s.sched ∧ t.par = s.par := by
  cases h with
  | ticked _ ht => subst ht; simp
  | stepped _ ht => subst ht; simp
  | returned _ ht => subst ht; simp
  | dispatched _ ht => exact execDispatch_sched_par ht
  | kept h => exact ⟨h.sched, h.par⟩

/-- Only a DISPATCH and a TX_RETURN move the Dispatcher. -/
theorem StepEffect.dsp {s t : State} {k : Option FairStep} (h : StepEffect s t k) (hd : k ≠ some .dispatch)
    (hr : k ≠ some .txReturn) : t.dsp = s.dsp := by
  cases h with
  | ticked _ ht => subst ht; rfl
  | stepped _ ht => subst ht; exact txStep_dsp s
  | returned => exact absurd rfl hr
  | dispatched => exact absurd rfl hd
  | kept h => exact h.dsp

/-- A step that is no DISPATCH starts no other transmission. -/
theorem StepEffect.ownFrame {s t : State} {k : Option FairStep} (h : StepEffect s t k) (hd : k ≠ some .dispatch)
    (hown : OwnFrame s) : OwnFrame t := by
  cases h with
  | ticked _ ht => subst ht; exact hown.congr rfl rfl rfl
  | stepped he ht => subst ht; exact (hown.of_txStep he).congr rfl rfl rfl
  | returned he ht => subst ht; exact ownFrame_of_idle ((txReturnEnabled_iff s).mp he).2
  | dispatched => exact absurd rfl hd
  | kept h => exact hown.congr h.tx h.dsp h.par

/-- A step that is no DISPATCH lowers what the engine has to do, or leaves it and the awaited step, which it then is not. -/
theorem StepEffect.progress {s t : State} {k : Option FairStep} (h : StepEffect s t k) (hd : k ≠ some .dispatch)
    (hinv : Inv s) (hown : OwnFrame s) :
    engineLeft t < engineLeft s ∨
      (engineLeft t = engineLeft s ∧ awaited t = awaited s) ∧ k ≠ some (awaited s) := by
  cases h with
  | ticked he ht =>
    subst ht
    exact (timerAdvance_progress hinv hown he).imp_right fun ⟨hsame, hne⟩ =>
      ⟨hsame, fun hk => hne (Option.some.inj hk).symm⟩
  | stepped he ht => subst ht; exact .inl (engineLeft_txStep_lt he)
  | returned he ht => subst ht; exact .inl (engineLeft_txReturn_lt he)
  | dispatched => exact absurd rfl hd
  | kept h => exact .inr ⟨h.engineLeft_awaited hinv hown, nofun⟩

/-- The awaited step is enabled inside a transmission, and outside it while an event is unread. -/
theorem awaited_enabled {s : State} (h : s.dsp = .inTx ∨ queueEmpty s = false) : (awaited s).enabled s = true := by
  unfold awaited
  split_ifs with ht hr ha
  · exact ht
  · exact hr
  · simp [FairStep.enabled, tickAllowed, urgentEnabled, ht, hr]
  · cases hdsp : s.dsp
    · have hq := h.resolve_left (by simp [hdsp])
      simp [FairStep.enabled, dispatchEnabled, hdsp, ha, hq]
    · simp [txReturnEnabled, hdsp, ha] at hr

/-! ### The block left alone -/

/-- Steps of the block that lower a measure for as long as they do not reach a goal reach it. -/
theorem exists_runSteps {α : Type} [Preorder α] [WellFoundedLT α] {P Q : State → Prop} (left : State → α)
    (hstep : ∀ s, P s → ∃ t, step s = .next t ∧ (Q t ∨ P t ∧ left t < left s)) {s : State} (hs : P s) :
    ∃ n, Q (runSteps s n) := by
  induction hl : left s using WellFoundedLT.induction generalizing s with
  | ind a ih =>
    subst hl
    obtain ⟨t, ht, hq | ⟨hp, hlt⟩⟩ := hstep s hs
    · exact ⟨1, by rw [runSteps_one ht]; exact hq⟩
    · obtain ⟨n, hn⟩ := ih _ hlt hp rfl
      exact ⟨1 + n, by rw [runSteps_add, runSteps_one ht]; exact hn⟩

/-- Nothing is ever scheduled by the block itself. -/
theorem step_alone_sched {s t : State} (hs : s.sched = []) (h : step s = .next t) : t.sched = [] := by
  rw [step_alone (step_next_par h) hs] at h
  rcases runAlone_cases s with ⟨hu, e⟩ | ⟨_, _, e⟩ | ⟨_, _, e⟩ <;> rw [e] at h
  · cases h
    rcases urgentStep_cases hu with ⟨_, e⟩ | ⟨_, _, e⟩ <;> rw [e] <;> simpa using hs
  · exact (execDispatch_sched_par h).1.trans hs
  · cases h; exact hs

theorem noneAsksFor_nil (p : Instr → Bool) : noneAsksFor p [] := fun _ h => nomatch h

/-- Inside a transmission the block alone takes the step that it waits for. -/
theorem stepTaken_alone_inTx {s : State} (hs : s.sched = []) (hdsp : s.dsp = .inTx) : stepTaken s = some (awaited s) := by
  have hno : dispatchEnabled s = false := by simp [dispatchEnabled, hdsp]
  simp only [stepTaken, hs, takenAlone, awaited, urgentTaken, hno]
  cases ht : txStepEnabled s
  · cases hr : txReturnEnabled s
    · have ha : s.tx.active = true := by simpa [txReturnEnabled, hdsp] using hr
      simp [urgentEnabled, ht, hr, ha]
    · simp [urgentEnabled, ht, hr]
  · simp [urgentEnabled, ht]

/-- Reception is restored: the Dispatcher is at LOOP, the input enabled and the UART path armed (45_dispatcher.md R229). -/
def receptionRestored (s : State) : Prop := s.dsp = .loop ∧ s.inputEn = true ∧ s.hb.armed = true

theorem StepEffect.receptionRestored {s t : State} (h : StepEffect s t (some .txReturn)) : receptionRestored t := by
  cases h with
  | returned _ ht => subst ht; exact ⟨rfl, rfl, rfl⟩

/-- No DISPATCH is taken inside a transmission. -/
theorem StepEffect.ne_dispatch_of_inTx {s t : State} {k : Option FairStep} (h : StepEffect s t k) (hdsp : s.dsp = .inTx) :
    k ≠ some .dispatch := by
  rintro rfl
  cases h with
  | dispatched he => simp [dispatchEnabled, hdsp] at he

/-- A step that is no DISPATCH, under any schedule that starts no engine. -/
theorem step_progress {s t : State} (h : step s = .next t) (hnone : noneAsksFor startsEngine s.sched) (hinv : Inv s)
    (hown : OwnFrame s) (hd : stepTaken s ≠ some .dispatch) :
    OwnFrame t ∧ (engineLeft t < engineLeft s ∨
      (engineLeft t = engineLeft s ∧ awaited t = awaited s) ∧ stepTaken s ≠ some (awaited s)) := by
  obtain ⟨rest, _, heffect⟩ := step_effect h hnone
  have hrest : Inv { s with sched := rest } := hinv.of_sched rest
  have hown' : OwnFrame { s with sched := rest } := hown.congr rfl rfl rfl
  exact ⟨heffect.ownFrame hd hown', heffect.progress hd hrest hown'⟩

/-- A step inside a transmission restores reception, or stays inside it with less for the engine to do, or with as much and the
awaited step still to come. -/
theorem step_inTx {s t : State} (h : step s = .next t) (hnone : noneAsksFor startsEngine s.sched) (hinv : Inv s)
    (hown : OwnFrame s) (hdsp : s.dsp = .inTx) :
    receptionRestored t ∨ t.dsp = .inTx ∧ OwnFrame t ∧ (engineLeft t < engineLeft s ∨
      (engineLeft t = engineLeft s ∧ awaited t = awaited s) ∧ stepTaken s ≠ some (awaited s)) := by
  obtain ⟨rest, _, heffect⟩ := step_effect h hnone
  have hd := heffect.ne_dispatch_of_inTx hdsp
  by_cases hr : stepTaken s = some .txReturn
  · rw [hr] at heffect; exact .inl heffect.receptionRestored
  · exact .inr ⟨(heffect.dsp hd hr).trans hdsp, step_progress h hnone hinv hown hd⟩

/-- Settles O45: every step of the block alone lowers what the engine has to do, until TX_RETURN restores reception. -/
theorem transmissionEndsWithReceptionRestored : Obligations.TransmissionEndsWithReceptionRestored := by
  intro s hinv hs hdsp ha hm hfits
  refine exists_runSteps (P := fun s => Inv s ∧ s.sched = [] ∧ s.dsp = .inTx ∧ OwnFrame s) (Q := receptionRestored)
    engineLeft ?_ ⟨hinv, hs, hdsp, fun _ => hdsp, fun _ => hm, fun _ => hfits⟩
  intro s ⟨hinv, hs, hdsp, hown⟩
  obtain ⟨t, ht⟩ := exists_step_next hinv.par
  refine ⟨t, ht, ?_⟩
  rcases step_inTx ht (by rw [hs]; exact noneAsksFor_nil _) hinv hown hdsp with hdone | ⟨hdsp', hown', hprogress⟩
  · exact .inl hdone
  · have hlt := hprogress.resolve_right fun hsame => hsame.2 (stepTaken_alone_inTx hs hdsp)
    exact .inr ⟨⟨hinv.of_step ht, step_alone_sched hs ht, hdsp', hown'⟩, hlt⟩

/-- A parse of HB.LEN bytes stays within the array (00_scope.md R8). -/
theorem Inv.len_le_hbCap {s : State} (h : Inv s) : s.hb.len ≤ s.par.hbCap := by
  have hp := h.par
  simp only [Params.wellFormed, Params.thresholdOk, Bool.and_eq_true, decide_eq_true_eq] at hp
  exact h.len.trans hp.1.2

/-- Under the invariant an unread event is dispatched without a fault. -/
theorem Inv.exists_dispatchOne {s : State} (h : Inv s) (hq : queueEmpty s = false) : ∃ u, dispatchOne s = .ok u := by
  obtain ⟨e, he, _⟩ := unread_eq_cons h.queue hq
  rw [dispatchOne_of_slot hq he]
  cases e with
  | uartCommandReady =>
    simp only [onUartReady_eq]
    rw [if_pos h.len_le_hbCap]
    split <;> exact ⟨_, rfl⟩
  | _ => exact ⟨_, rfl⟩

theorem dispatchEnabled_iff (s : State) :
    dispatchEnabled s = true ↔ s.dsp = .loop ∧ s.tx.active = false ∧ queueEmpty s = false := by
  simp [dispatchEnabled, and_assoc]

/-- Under the invariant an enabled DISPATCH takes the oldest event and handles it. -/
theorem Inv.dispatched {s t : State} (h : Inv s) (he : dispatchEnabled s = true) (ht : exec .dispatch s = .next t) :
    t.q = (popped s).q ∧ t.par = s.par ∧ (t.tx = s.tx ∧ t.dsp = s.dsp ∨ t.dsp = .inTx ∧ t.tx.mode = .frame) := by
  obtain ⟨hloop, hidle, hq⟩ := (dispatchEnabled_iff s).mp he
  obtain ⟨u, hu⟩ := h.exists_dispatchOne hq
  rw [exec_dispatch_of_dispatchOne hloop hidle hq hu] at ht
  cases ht
  obtain ⟨hqueue, hkeeps | ⟨c, rfl⟩⟩ := dispatchOne_cases hu
  · exact ⟨hqueue, hkeeps.par, .inl ⟨hkeeps.tx, hkeeps.dsp⟩⟩
  · exact ⟨hqueue, by simp, .inr (by simp)⟩

theorem queueCount_congr {s t : State} (hq : t.q = s.q) (hp : t.par = s.par) : queueCount t = queueCount s := by
  simp only [queueCount, ringSize, hq, hp]

/-- Settles O52: a DISPATCH takes an event, and an urgent step leaves the events and fewer urgent steps to come, so that a tick
is all that is left. -/
theorem timePassesWhenTheBlockRunsAlone : Obligations.TimePassesWhenTheBlockRunsAlone := by
  intro s₀ hinv hs
  refine exists_runSteps (P := fun s => Inv s ∧ s.sched = [] ∧ s.m.time = s₀.m.time)
    (Q := fun s => s.m.time = s₀.m.time + 1) (fun s => toLex (queueCount s, urgentLeft s)) ?_ ⟨hinv, hs, rfl⟩
  intro s ⟨hinv, hs, htime⟩
  obtain ⟨t, ht⟩ := exists_step_next hinv.par
  refine ⟨t, ht, ?_⟩
  have hnext : Inv t ∧ t.sched = [] := ⟨hinv.of_step ht, step_alone_sched hs ht⟩
  rw [step_alone hinv.par hs] at ht
  rcases runAlone_cases s with ⟨hu, e⟩ | ⟨_, hd, e⟩ | ⟨_, _, e⟩ <;> rw [e] at ht
  · cases ht
    have hq : (returning none (urgentStep s)).q = s.q ∧ (returning none (urgentStep s)).par = s.par := by
      rcases urgentStep_cases hu with ⟨_, e⟩ | ⟨_, _, e⟩ <;> simp [e]
    exact .inr ⟨⟨hnext.1, hnext.2, (urgentStep_time s).trans htime⟩,
      Prod.Lex.toLex_lt_toLex.mpr (.inr ⟨queueCount_congr hq.1 hq.2, urgentLeft_lt hu⟩)⟩
  · obtain ⟨hq, hp, _⟩ := hinv.dispatched hd ht
    obtain ⟨_, _, hne⟩ := (dispatchEnabled_iff s).mp hd
    have hcount := queueCount_popped hinv.queue hne
    refine .inr ⟨⟨hnext.1, hnext.2, (execDispatch_time ht).trans htime⟩, Prod.Lex.toLex_lt_toLex.mpr (.inl ?_)⟩
    show queueCount t < queueCount s
    rw [queueCount_congr (s := popped s) hq hp, hcount]
    exact Nat.lt_succ_self _
  · cases ht; exact .inl (congrArg (· + 1) htime)

/-! ### Fair runs (R276) -/

/-- The rule of progress on a fair run: where a helpful step is enabled, and every step reaches the goal or keeps the premise
with a lower measure, or with the same measure and helpful step, which it was not, the goal is reached. -/
theorem FairRun.reaches {α : Type} [Preorder α] [WellFoundedLT α] {run : Nat → State} {inputs : Nat → List Move}
    (h : FairRun run inputs) {P Q : Nat → Prop} (left : State → α) (helpful : State → FairStep)
    (henabled : ∀ n, P n → (helpful (run n)).enabled (run n) = true)
    (hstep : ∀ n, P n → Q n ∨ P (n + 1) ∧ (left (run (n + 1)) < left (run n) ∨
      (left (run (n + 1)) = left (run n) ∧ helpful (run (n + 1)) = helpful (run n)) ∧
        stepTaken (offer (inputs n) (run n)) ≠ some (helpful (run n))))
    {n : Nat} (hn : P n) : ∃ m, n ≤ m ∧ Q m ∧ ∀ j, n ≤ j → j ≤ m → P j := by
  induction hl : left (run n) using WellFoundedLT.induction generalizing n with
  | ind a ih =>
    subst hl
    by_contra hnever
    have hstays : ∀ m, n ≤ m → (∀ j, n ≤ j → j ≤ m → P j) →
        left (run m) = left (run n) ∧ helpful (run m) = helpful (run n) →
        (P (m + 1) ∧ left (run (m + 1)) = left (run n) ∧ helpful (run (m + 1)) = helpful (run n)) ∧
          stepTaken (offer (inputs m) (run m)) ≠ some (helpful (run n)) := by
      intro m hm hbefore ⟨hleft, hhelp⟩
      rcases hstep m (hbefore m hm le_rfl) with hq | ⟨hp, hlt | ⟨⟨hleft', hhelp'⟩, hne⟩⟩
      · exact absurd ⟨m, hm, hq, hbefore⟩ hnever
      · obtain ⟨m', hm', hq, hafter⟩ := ih _ (hleft ▸ hlt) hp rfl
        refine absurd ⟨m', by omega, hq, fun j hj hj' => ?_⟩ hnever
        by_cases hjm : j ≤ m
        · exact hbefore j hj hjm
        · exact hafter j (by omega) hj'
      · exact ⟨⟨hp, hleft'.trans hleft, hhelp'.trans hhelp⟩, hhelp ▸ hne⟩
    have hforever : ∀ m, n ≤ m → (∀ j, n ≤ j → j ≤ m → P j) ∧
        left (run m) = left (run n) ∧ helpful (run m) = helpful (run n) := by
      intro m hm
      induction m, hm using Nat.le_induction with
      | base => exact ⟨fun j hj hj' => by rwa [show j = n by omega], rfl, rfl⟩
      | succ m hm ihm =>
        obtain ⟨⟨hp, hsame⟩, _⟩ := hstays m hm ihm.1 ihm.2
        refine ⟨fun j hj hj' => ?_, hsame⟩
        by_cases hjm : j ≤ m
        · exact ihm.1 j hj hjm
        · rwa [show j = m + 1 by omega]
    obtain ⟨m, hm, htaken⟩ := h.fair (helpful (run n)) ⟨n, fun m hm => by
      rw [← (hforever m hm).2.2]
      exact henabled m ((hforever m hm).1 m hm le_rfl)⟩ n
    exact (hstays m hm (hforever m hm).1 (hforever m hm).2).2 htaken

theorem noneAsksFor.append {p : Instr → Bool} {ms ns : List Move} (hm : noneAsksFor p ms) (hn : noneAsksFor p ns) :
    noneAsksFor p (ms ++ ns) := fun w hw i hd => (List.mem_append.mp hw).elim (hm w · i hd) (hn w · i hd)

theorem noneAsksFor.mono {p q : Instr → Bool} {ms : List Move} (h : noneAsksFor p ms) (hpq : ∀ i, q i = true → p i = true) :
    noneAsksFor q ms := fun w hw i hd => Bool.eq_false_iff.mpr fun hq => absurd (hpq i hq) (by simp [h w hw i hd])

/-- A step only takes the next move, or puts a waiting TIMER_TICK back. -/
theorem noneAsksFor.of_step {p : Instr → Bool} {s t : State} (hs : noneAsksFor p s.sched)
    (hstart : ∀ i, startsEngine i = true → p i = true) (htick : p .timerTick = false) (h : step s = .next t) :
    noneAsksFor p t.sched := by
  obtain ⟨rest, hrest, heffect⟩ := step_effect h (hs.mono hstart)
  have htail : noneAsksFor p s.sched.tail := fun w hw => hs w (List.mem_of_mem_tail hw)
  rw [heffect.sched_par.1]
  show noneAsksFor p rest
  rcases hrest with rfl | rfl
  · exact htail
  · refine .append (ms := [_]) (fun w hw i hd => ?_) htail
    obtain rfl : w = encode .timerTick := by simpa using hw
    rw [decode_encode] at hd
    cases hd
    exact htick

/-- What holds all along a run: the invariant, that nothing scheduled asks for what is never offered, and the parameters. -/
structure RunOk (p : Instr → Bool) (par : Params) (s : State) : Prop where
  inv : Inv s
  sched : noneAsksFor p s.sched
  par_eq : s.par = par

theorem RunOk.of_offer {p : Instr → Bool} {par : Params} {s : State} (h : RunOk p par s) {ms : List Move}
    (hms : noneAsksFor p ms) : RunOk p par (offer ms s) :=
  ⟨h.inv.of_sched _, h.sched.append hms, h.par_eq⟩

theorem RunOk.of_step {p : Instr → Bool} {par : Params} {s t : State} (h : RunOk p par s)
    (hstart : ∀ i, startsEngine i = true → p i = true) (htick : p .timerTick = false) (ht : step s = .next t) :
    RunOk p par t := by
  obtain ⟨rest, _, heffect⟩ := step_effect ht (h.sched.mono hstart)
  exact ⟨h.inv.of_step ht, h.sched.of_step hstart htick ht, heffect.sched_par.2.trans h.par_eq⟩

theorem FairRun.runOk {run : Nat → State} {inputs : Nat → List Move} (h : FairRun run inputs) {p : Instr → Bool}
    (hin : ∀ n, noneAsksFor p (inputs n)) (hstart : ∀ i, startsEngine i = true → p i = true) (htick : p .timerTick = false)
    (hs : (run 0).sched = []) (hinv : Inv (run 0)) (n : Nat) : RunOk p (run 0).par (run n) := by
  induction n with
  | zero => exact ⟨hinv, by rw [hs]; exact noneAsksFor_nil p, rfl⟩
  | succ n ih => exact (ih.of_offer (hin n)).of_step hstart htick (h.next n)

/-- Settles O46: inside a transmission no DISPATCH is taken, so what the engine has to do falls until TX_RETURN is taken. -/
theorem transmissionEndsOnEveryFairRun : Obligations.TransmissionEndsOnEveryFairRun := by
  intro run inputs hrun hin hs hinv hdsp ha hm hfits
  have hok := hrun.runOk hin (fun _ => id) rfl hs hinv
  obtain ⟨m, _, hdone, _⟩ := hrun.reaches (P := fun n => (run n).dsp = .inTx ∧ OwnFrame (run n))
    (Q := fun n => receptionRestored (run (n + 1))) engineLeft awaited (fun n hn => awaited_enabled (.inl hn.1))
    (fun n ⟨hdsp, hown⟩ => by
      have hoff := (hok n).of_offer (hin n)
      exact (step_inTx (hrun.next n) hoff.sched hoff.inv (hown.congr rfl rfl rfl) hdsp).imp_right fun hstays =>
        and_assoc.mpr hstays)
    ⟨hdsp, fun _ => hdsp, fun _ => hm, fun _ => hfits⟩
  exact ⟨m + 1, hdone⟩

/-! ### The place of an unread event in the queue (44_queue.md R193, R199) -/

/-- The unread events before slot i: `(i - Q.TAIL) mod (N+1)`, as `Q.count` is for Q.HEAD (10_state.md R30). -/
def eventsAhead (s : State) (i : Nat) : Nat := (i + ringSize s - s.q.tail) % ringSize s

theorem eventsAhead_congr {s t : State} (hq : t.q = s.q) (hp : t.par = s.par) (i : Nat) :
    eventsAhead t i = eventsAhead s i := by
  simp only [eventsAhead, ringSize, hq, hp]

theorem unreadAt_congr {s t : State} (hq : t.q = s.q) (hp : t.par = s.par) (i : Nat) : unreadAt t i ↔ unreadAt s i := by
  simp only [unreadAt, queueCount_congr hq hp, unreadIndex, ringSize, hq, hp]

section
variable {s : State} (h : QueueOk s) {i : Nat}
include h

theorem eventsAhead_unreadIndex {k : Nat} (hk : k ≤ s.par.queueN) : eventsAhead s (unreadIndex s k) = k := by
  have htail := h.tail_le
  unfold eventsAhead unreadIndex ringSize
  rw [mod_of_lt_double (x := s.q.tail + k) (by omega), mod_of_lt_double (by split <;> omega)]
  split <;> split <;> omega

theorem unreadIndex_eventsAhead (hi : i ≤ s.par.queueN) : unreadIndex s (eventsAhead s i) = i := by
  have htail := h.tail_le
  unfold eventsAhead unreadIndex ringSize
  rw [mod_of_lt_double (x := i + (s.par.queueN + 1) - s.q.tail) (by omega), mod_of_lt_double (by split <;> omega)]
  split <;> split <;> omega

/-- Slot i is unread exactly when fewer events lie before it than are unread. -/
theorem unreadAt_iff : unreadAt s i ↔ i ≤ s.par.queueN ∧ eventsAhead s i < queueCount s := by
  constructor
  · rintro ⟨k, hk, rfl⟩
    rw [eventsAhead_unreadIndex h (hk.le.trans (queueCount_le s))]
    exact ⟨Nat.lt_succ_iff.mp (Nat.mod_lt _ (Nat.succ_pos _)), hk⟩
  · rintro ⟨hi, hlt⟩
    exact ⟨_, hlt, unreadIndex_eventsAhead h hi⟩

/-- Q.HEAD is no unread slot: as many events lie before it as are unread. -/
theorem unreadAt_ne_head (hi : unreadAt s i) : s.q.head ≠ i := by
  rintro rfl
  exact lt_irrefl (queueCount s) ((unreadAt_iff h).mp hi).2

theorem queueEmpty_of_unreadAt (hi : unreadAt s i) : queueEmpty s = false := by
  by_contra hn
  have hzero := (queueCount_eq_zero_iff h).mpr (by simpa using hn)
  have hlt := ((unreadAt_iff h).mp hi).2
  omega

/-- Once the oldest event is taken, one event less lies before each of the others. -/
theorem eventsAhead_popped (hi : i ≤ s.par.queueN) (hne : i ≠ s.q.tail) :
    eventsAhead s i = eventsAhead (popped s) i + 1 := by
  have htail := h.tail_le
  show (i + (s.par.queueN + 1) - s.q.tail) % (s.par.queueN + 1) =
    (i + (s.par.queueN + 1) - (s.q.tail + 1) % (s.par.queueN + 1)) % (s.par.queueN + 1) + 1
  rw [mod_of_lt_double (x := s.q.tail + 1) (by omega), mod_of_lt_double (x := i + (s.par.queueN + 1) - s.q.tail) (by omega),
    mod_of_lt_double (by split <;> omega)]
  split <;> split <;> split <;> omega

/-- The slot of a taken event comes last in the ring. -/
theorem eventsAhead_popped_tail : eventsAhead (popped s) s.q.tail = s.par.queueN := by
  have htail := h.tail_le
  show (s.q.tail + (s.par.queueN + 1) - (s.q.tail + 1) % (s.par.queueN + 1)) % (s.par.queueN + 1) = s.par.queueN
  rw [mod_of_lt_double (x := s.q.tail + 1) (by omega), mod_of_lt_double (by split <;> omega)]
  split <;> split <;> omega

/-- Taking the oldest event: its slot is unread no more, and any other unread slot stays so, one place nearer. -/
theorem unreadAt_popped_cases (hi : unreadAt s i) :
    (s.q.tail = i ∧ ¬unreadAt (popped s) i) ∨
      (unreadAt (popped s) i ∧ eventsAhead (popped s) i < eventsAhead s i) := by
  have hcount := queueCount_popped h (queueEmpty_of_unreadAt h hi)
  obtain ⟨hle, hlt⟩ := (unreadAt_iff h).mp hi
  by_cases htail : s.q.tail = i
  · subst htail
    refine .inl ⟨rfl, fun hun => ?_⟩
    have hlt' := ((unreadAt_iff (queueOk_popped h)).mp hun).2
    rw [eventsAhead_popped_tail h] at hlt'
    have hmax := queueCount_le s
    omega
  · have hahead := eventsAhead_popped h hle (Ne.symm htail)
    exact .inr ⟨(unreadAt_iff (queueOk_popped h)).mpr ⟨hle, by omega⟩, by omega⟩

/-- A `put` that finds room leaves an unread slot unread, in its place. -/
theorem unreadAt_putState_of_room (e : Event) (hf : queueFull s = false) (hi : unreadAt s i) :
    unreadAt (putState e s) i ∧ eventsAhead (putState e s) i = eventsAhead s i := by
  have hput := queueOk_putState e h
  have hcount : queueCount (putState e s) = queueCount s + 1 := by
    rw [← unread_length hput, unread_putState_of_room e h hf, List.length_append, unread_length h]
    rfl
  have hahead : eventsAhead (putState e s) i = eventsAhead s i := by simp [eventsAhead, putState, hf, ringSize]
  obtain ⟨hle, hlt⟩ := (unreadAt_iff h).mp hi
  exact ⟨(unreadAt_iff hput).mpr ⟨hle, by omega⟩, hahead⟩

theorem queueFull_popped (hf : queueFull s = true) : queueFull (popped s) = false := by
  have hN := (queueFull_iff h).mp hf
  have hcap := h.capacity
  have hq : queueEmpty s = false := by
    by_contra hn
    have hzero := (queueCount_eq_zero_iff h).mpr (by simpa using hn)
    omega
  have hcount := queueCount_popped h hq
  by_contra hn
  have hN' : queueCount (popped s) = s.par.queueN := (queueFull_iff (queueOk_popped h)).mp (by simpa using hn)
  omega

/-- A `put` on a full queue makes of it what it makes of the queue whose oldest event is taken (44_queue.md R191). -/
theorem putState_q_of_full (e : Event) (hf : queueFull s = true) : (putState e s).q = (putState e (popped s)).q := by
  have hroom := queueFull_popped h hf
  simp only [putState, hf, hroom, if_true]
  rfl

/-- A `put`: the oldest slot of a full queue is unread no more, and any other unread slot stays so, no further back. -/
theorem unreadAt_putState_cases (e : Event) (hi : unreadAt s i) :
    (queueFull s = true ∧ s.q.tail = i ∧ ¬unreadAt (putState e s) i) ∨
      (unreadAt (putState e s) i ∧ eventsAhead (putState e s) i ≤ eventsAhead s i) := by
  cases hf : queueFull s with
  | false =>
    obtain ⟨hun, hahead⟩ := unreadAt_putState_of_room h e hf hi
    exact .inr ⟨hun, hahead.le⟩
  | true =>
    have hpop := queueOk_popped h
    have hroom := queueFull_popped h hf
    have hq := putState_q_of_full h e hf
    rw [unreadAt_congr (s := putState e (popped s)) hq rfl, eventsAhead_congr (s := putState e (popped s)) hq rfl]
    rcases unreadAt_popped_cases h hi with ⟨htail, hgone⟩ | ⟨hun, hlt⟩
    · have hhead : (putState e (popped s)).q.head = s.q.tail := beq_iff_eq.mp hf
      exact .inl ⟨rfl, htail, fun hun => unreadAt_ne_head (queueOk_putState e hpop) hun (hhead.trans htail)⟩
    · obtain ⟨hun', hahead⟩ := unreadAt_putState_of_room hpop e hroom hun
      exact .inr ⟨hun', by omega⟩

/-- A `put` writes no unread slot. -/
theorem putState_slot_of_unreadAt (e : Event) (hi : unreadAt s i) : (putState e s).q.slot[i]? = s.q.slot[i]? :=
  List.getElem?_set_ne (unreadAt_ne_head h hi)

end

theorem queueEmpty_putState (e : Event) {s : State} (h : QueueOk s) : queueEmpty (putState e s) = false := by
  by_contra hn
  have hnil := (unread_eq_nil_iff (queueOk_putState e h)).mpr (by simpa using hn)
  simp [unread_putState e h] at hnil

/-! ### The queue at one step -/

/-- A step that is no DISPATCH, under a schedule that takes no events, leaves the queue or puts one event. -/
theorem step_queue {s t : State} (h : step s = .next t) (hstart : noneAsksFor startsEngine s.sched)
    (htake : noneAsksFor takesEvents s.sched) (hd : stepTaken s ≠ some .dispatch) : t.q = s.q ∨ PutsOne s t := by
  cases hk : stepTaken s with
  | none =>
    rcases step_untaken_queue h hk with hq | hput | ⟨w, rest, i, hs, hdec, hi⟩
    · exact .inl hq
    · exact .inr hput
    · have hno := htake w (by rw [hs]; exact List.mem_cons_self) i hdec
      simp [hi] at hno
  | some k =>
    obtain ⟨rest, _, heffect⟩ := step_effect h hstart
    rw [hk] at heffect hd
    cases heffect with
    | ticked _ ht => subst ht; simp
    | stepped _ ht => subst ht; simp
    | returned _ ht => subst ht; simp
    | dispatched => exact absurd rfl hd

/-- A DISPATCH that is taken, under the invariant: the operation on the state with some rest of the schedule, which takes the
oldest event and leaves the engine or starts the Dispatcher's own frame. -/
theorem step_dispatched {s t : State} (h : step s = .next t) (hstart : noneAsksFor startsEngine s.sched) (hinv : Inv s)
    (hd : stepTaken s = some .dispatch) :
    (∃ rest, exec .dispatch { s with sched := rest } = .next t) ∧ t.q = (popped s).q ∧
      (t.tx = s.tx ∧ t.dsp = s.dsp ∨ t.dsp = .inTx ∧ t.tx.mode = .frame) := by
  obtain ⟨rest, _, heffect⟩ := step_effect h hstart
  rw [hd] at heffect
  cases heffect with
  | dispatched he ht =>
    have hrest : Inv { s with sched := rest } := hinv.of_sched rest
    obtain ⟨hq, _, hengine⟩ := hrest.dispatched he ht
    exact ⟨⟨rest, ht⟩, hq, hengine⟩

/-- What becomes of an unread slot at one step: it is the oldest and is dispatched or dropped, or it stays unread and as it is,
no further back, and nearer after a DISPATCH. -/
theorem step_unreadAt {s t : State} {i : Nat} (h : step s = .next t) (hstart : noneAsksFor startsEngine s.sched)
    (htake : noneAsksFor takesEvents s.sched) (hinv : Inv s) (hpar : t.par = s.par) (hi : unreadAt s i) :
    (s.q.tail = i ∧ ¬unreadAt t i ∧
        ((stepTaken s = some .dispatch ∧ ∃ rest, exec .dispatch { s with sched := rest } = .next t) ∨
          t.m.out = s.m.out ++ [.drop .queueOverflow])) ∨
      (unreadAt t i ∧ t.q.slot[i]? = s.q.slot[i]? ∧ eventsAhead t i ≤ eventsAhead s i ∧
        (stepTaken s = some .dispatch → eventsAhead t i < eventsAhead s i)) := by
  by_cases hd : stepTaken s = some .dispatch
  · obtain ⟨hexec, hq, _⟩ := step_dispatched h hstart hinv hd
    rw [unreadAt_congr (s := popped s) hq hpar, eventsAhead_congr (s := popped s) hq hpar, hq]
    rcases unreadAt_popped_cases hinv.queue hi with ⟨htail, hgone⟩ | ⟨hun, hlt⟩
    · exact .inl ⟨htail, hgone, .inl ⟨hd, hexec⟩⟩
    · exact .inr ⟨hun, rfl, hlt.le, fun _ => hlt⟩
  · rcases step_queue h hstart htake hd with hq | ⟨e, hq, hout⟩
    · rw [unreadAt_congr hq hpar, eventsAhead_congr hq hpar, hq]
      exact .inr ⟨hi, rfl, le_rfl, fun hk => absurd hk hd⟩
    · rw [unreadAt_congr (s := putState e s) hq hpar, eventsAhead_congr (s := putState e s) hq hpar, hq, hout]
      rcases unreadAt_putState_cases hinv.queue e hi with ⟨hf, htail, hgone⟩ | ⟨hun, hle⟩
      · exact .inl ⟨htail, hgone, .inr (by simp [putState, hf])⟩
      · exact .inr ⟨hun, putState_slot_of_unreadAt hinv.queue e hi, hle, fun hk => absurd hk hd⟩

/-- A step that is no DISPATCH, at LOOP with the engine idle and an event unread: all three stay so. -/
theorem step_loop_idle {s t : State} (h : step s = .next t) (hstart : noneAsksFor startsEngine s.sched)
    (htake : noneAsksFor takesEvents s.sched) (hinv : Inv s) (hd : stepTaken s ≠ some .dispatch)
    (hs : dispatchEnabled s = true) : t.dsp = .loop ∧ t.tx.active = false ∧ queueEmpty t = false := by
  obtain ⟨hloop, hidle, hq⟩ := (dispatchEnabled_iff s).mp hs
  obtain ⟨rest, _, heffect⟩ := step_effect h hstart
  have hr : stepTaken s ≠ some .txReturn := fun hk => by
    rw [hk] at heffect
    cases heffect with
    | returned he => simp [txReturnEnabled, hloop] at he
  have hloop' : t.dsp = .loop := (heffect.dsp hd hr).trans hloop
  have hown := (step_progress h hstart hinv (ownFrame_of_idle hidle) hd).1
  refine ⟨hloop', Bool.eq_false_iff.mpr fun ha => ?_, ?_⟩
  · exact absurd (hloop'.symm.trans (hown.dsp ha)) nofun
  · rcases step_queue h hstart htake hd with hqueue | ⟨e, hqueue, _⟩
    · simpa only [queueEmpty, hqueue] using hq
    · simpa only [queueEmpty, hqueue] using queueEmpty_putState e hinv.queue

/-- Every step keeps a transmission one of the Dispatcher's own, where the phases of every command fit the timer: a DISPATCH
begins a frame, and no other step begins any. -/
theorem step_ownFrame {s t : State} (h : step s = .next t) (hstart : noneAsksFor startsEngine s.sched) (hinv : Inv s)
    (hpar : t.par = s.par) (hown : OwnFrame s)
    (hfits : ∀ (c : Word16) (k : Nat), k ≤ 13 → (phaseTicks s.par k c).2 < 2 ^ s.par.timerWidth) : OwnFrame t := by
  by_cases hd : stepTaken s = some .dispatch
  · obtain ⟨_, _, ⟨htx, hdsp⟩ | ⟨hdsp, hmode⟩⟩ := step_dispatched h hstart hinv hd
    · exact hown.congr htx hdsp hpar
    · exact ⟨fun _ => hdsp, fun _ => hmode, fun _ => by rw [hpar]; exact hfits _⟩
  · exact (step_progress h hstart hinv hown hd).1

/-- The events before slot i, and then what the engine has still to do before the next DISPATCH. -/
def slotLeft (i : Nat) (s : State) : ℕ ×ₗ (ℕ ×ₗ ℕ) := toLex (eventsAhead s i, engineLeft s)

/-- While slot i stays unread, a step brings it nearer, or leaves less for the engine to do, or leaves the awaited step still
to come. -/
theorem step_slotLeft {s t : State} {i : Nat} (h : step s = .next t) (hstart : noneAsksFor startsEngine s.sched)
    (hinv : Inv s) (hown : OwnFrame s) (hle : eventsAhead t i ≤ eventsAhead s i)
    (hlt : stepTaken s = some .dispatch → eventsAhead t i < eventsAhead s i) :
    slotLeft i t < slotLeft i s ∨
      (slotLeft i t = slotLeft i s ∧ awaited t = awaited s) ∧ stepTaken s ≠ some (awaited s) := by
  rcases hle.lt_or_eq with hnearer | hsame
  · exact .inl (Prod.Lex.toLex_lt_toLex.mpr (.inl hnearer))
  · have hd : stepTaken s ≠ some .dispatch := fun hk => (hlt hk).ne hsame
    rcases (step_progress h hstart hinv hown hd).2 with hless | ⟨⟨heq, hawaited⟩, hne⟩
    · exact .inl (Prod.Lex.toLex_lt_toLex.mpr (.inr ⟨hsame, hless⟩))
    · exact .inr ⟨⟨by rw [slotLeft, slotLeft, hsame, heq], hawaited⟩, hne⟩

/-! ### The unread events of a fair run (R276) -/

/-- Moves that ask for neither of two kinds of operation. -/
theorem noneAsksFor.split {p q : Instr → Bool} {ms : List Move} (h : noneAsksFor (fun i => p i || q i) ms) :
    noneAsksFor p ms ∧ noneAsksFor q ms :=
  ⟨h.mono fun _ hi => by simp [hi], h.mono fun _ hi => by simp [hi]⟩

section
variable {run : Nat → State} {inputs : Nat → List Move} (hrun : FairRun run inputs) {p : Params}
  (hok : ∀ n, RunOk (fun i => startsEngine i || takesEvents i) p (offer (inputs n) (run n)))
include hrun hok

/-- At LOOP with the engine idle the awaited step is the DISPATCH, which stays enabled until it is taken. -/
theorem FairRun.dispatch_taken {n : Nat} (hn : dispatchEnabled (run n) = true) :
    ∃ m, n ≤ m ∧ stepTaken (offer (inputs m) (run m)) = some .dispatch := by
  obtain ⟨m, hm, hdone, _⟩ := hrun.reaches (P := fun n => dispatchEnabled (run n) = true)
    (Q := fun n => stepTaken (offer (inputs n) (run n)) = some .dispatch) engineLeft awaited
    (fun n hn => awaited_enabled (.inr ((dispatchEnabled_iff _).mp hn).2.2)) (fun n hn => by
      obtain ⟨hinv, hsched, _⟩ := hok n
      obtain ⟨hstart, htake⟩ := hsched.split
      by_cases hd : stepTaken (offer (inputs n) (run n)) = some .dispatch
      · exact .inl hd
      · have hown := ownFrame_of_idle (s := offer (inputs n) (run n)) ((dispatchEnabled_iff _).mp hn).2.1
        exact .inr ⟨(dispatchEnabled_iff _).mpr (step_loop_idle (hrun.next n) hstart htake hinv hd hn),
          (step_progress (hrun.next n) hstart hinv hown hd).2⟩) hn
  exact ⟨m, hm, hdone⟩

/-- An unread slot keeps its event until it is the oldest, and is then dispatched or dropped by a `put` on the full queue. -/
theorem FairRun.unread_dispatched_or_dropped (hpar : ∀ n, (run n).par = p)
    (hfits : ∀ (c : Word16) (k : Nat), k ≤ 13 → (phaseTicks p k c).2 < 2 ^ p.timerWidth)
    {n i : Nat} (hown : OwnFrame (run n)) (hi : unreadAt (run n) i) :
    ∃ m, n ≤ m ∧ (∀ j, n ≤ j → j ≤ m → unreadAt (run j) i ∧ (run j).q.slot[i]? = (run n).q.slot[i]?) ∧
      (run m).q.tail = i ∧ ¬unreadAt (run (m + 1)) i ∧
      ((stepTaken (offer (inputs m) (run m)) = some .dispatch ∧
          ∃ rest, exec .dispatch { run m with sched := rest } = .next (run (m + 1))) ∨
        (run (m + 1)).m.out = (run m).m.out ++ [.drop .queueOverflow]) := by
  obtain ⟨m, hm, hdone, hkept⟩ := hrun.reaches
    (P := fun j => OwnFrame (run j) ∧ unreadAt (run j) i ∧ (run j).q.slot[i]? = (run n).q.slot[i]?)
    (Q := fun m => (run m).q.tail = i ∧ ¬unreadAt (run (m + 1)) i ∧
      ((stepTaken (offer (inputs m) (run m)) = some .dispatch ∧
          ∃ rest, exec .dispatch { run m with sched := rest } = .next (run (m + 1))) ∨
        (run (m + 1)).m.out = (run m).m.out ++ [.drop .queueOverflow]))
    (slotLeft i) awaited
    (fun j ⟨_, hi, _⟩ => awaited_enabled (.inr (queueEmpty_of_unreadAt (s := run j) { (hok j).inv.queue with } hi)))
    (fun j ⟨hown, hi, hslot⟩ => by
      obtain ⟨hinv, hsched, hp⟩ := hok j
      obtain ⟨hstart, htake⟩ := hsched.split
      have hpar' : (run (j + 1)).par = (offer (inputs j) (run j)).par := (hpar (j + 1)).trans hp.symm
      have hown' : OwnFrame (offer (inputs j) (run j)) := hown.congr rfl rfl rfl
      refine (step_unreadAt (hrun.next j) hstart htake hinv hpar' hi).imp_right fun ⟨hun, hslot', hle, hlt⟩ => ?_
      exact ⟨⟨step_ownFrame (hrun.next j) hstart hinv hpar' hown' (by rw [hp]; exact hfits), hun, hslot'.trans hslot⟩,
        step_slotLeft (hrun.next j) hstart hinv hown' hle hlt⟩)
    ⟨hown, hi, rfl⟩
  exact ⟨m, hm, fun j hj hj' => (hkept j hj hj').2, hdone⟩

end

/-- Settles O47: the DISPATCH at an idle LOOP, and the way of an unread slot to the front of the queue. -/
theorem unreadEventsAreDispatchedOrOverwrittenOnEveryFairRun :
    Obligations.UnreadEventsAreDispatchedOrOverwrittenOnEveryFairRun := by
  intro run inputs n hrun hin hs hinv
  have hok := hrun.runOk hin (fun _ hi => by simp [hi]) rfl hs hinv
  have hoffered := fun n => (hok n).of_offer (hin n)
  refine ⟨fun hloop hidle hne => ?_, fun hfits hframe i hi => ?_⟩
  · exact hrun.dispatch_taken hoffered (dispatchEnabled_of_loop_idle hloop hidle (queueEmpty_eq_false_of_ne hne))
  · have hown : OwnFrame (run n) :=
      ⟨fun ha => (hframe ha).1, fun ha => (hframe ha).2, fun _ => by rw [(hok n).par_eq]; exact hfits _⟩
    exact hrun.unread_dispatched_or_dropped hoffered (fun n => (hok n).par_eq) hfits hown hi

end Sys2Proof.Machine
end

section
/-! Proofs of the statements of 70_reset_and_hazards.md: reset is a clean and quiescent state of the invariant (R290, R291,
R294), and a UartCommandReady that is lost while the UART path is disarmed stays lost (R300). Of the second there is one lemma
for each thing an operation can do to the path, the Dispatcher and the unread events. -/

namespace Sys2Proof.Machine

/-! ### Reset (R290, R291, R294) -/

theorem one_le_queueN {p : Params} (hp : p.wellFormed = true) : 1 ≤ p.queueN := by
  simp only [Params.wellFormed, Params.queueOk, Bool.and_eq_true, decide_eq_true_eq] at hp
  exact hp.1.1.2

section
variable {p : Params} {slots : List Event} (hp : p.wellFormed = true) (hslots : slots.length = p.queueN + 1)
include hp hslots

theorem queueOk_resetOf : QueueOk (State.resetOf p slots) where
  capacity := one_le_queueN hp
  slots := hslots
  head_le := Nat.zero_le _
  tail_le := Nat.zero_le _

theorem inv_resetOf : Inv (State.resetOf p slots) where
  par := hp
  tick := Nat.zero_le _
  queue := queueOk_resetOf hp hslots
  memory := Memory.wf_clear
  len := Nat.zero_le _
  unfilled := fun i _ => Memory.read_nil i
  phase := Nat.zero_le _
  single := nofun
  count := Nat.two_pow_pos _
  input := ⟨fun _ => rfl, fun _ => rfl⟩
  pin := ⟨nofun, nofun⟩
  idle := fun _ => rfl
  thresholds := nofun
  running := nofun
  history := rfl
  stamps := nofun

end

theorem cleanEntry_resetOf (p : Params) (slots : List Event) : cleanEntry (State.resetOf p slots) :=
  ⟨⟨rfl, rfl⟩, rfl, rfl, rfl, rfl, rfl, rfl, Memory.read_nil, rfl, rfl⟩

/-- The launch premise asks for more than a quiescent state (45_dispatcher.md R233). -/
theorem quiescent_of_cleanEntry {s : State} (h : cleanEntry s) : quiescent s := by
  obtain ⟨_, hidle, hloop, _, _, _, _, _, hempty, _⟩ := h
  exact ⟨hloop, hidle, hempty⟩

/-- Settles O54. -/
theorem resetIsCleanAndKeepsTheInvariant : Obligations.ResetIsCleanAndKeepsTheInvariant := fun p slots hp hslots =>
  have hclean := cleanEntry_resetOf p slots
  ⟨inv_resetOf hp hslots, hclean, quiescent_of_cleanEntry hclean⟩

/-! ### The unread events after a `put` and a `get` -/

/-- A `put` makes nothing unread but its own event, whatever it drops. -/
theorem unread_putState_subset (e : Event) {s : State} (h : QueueOk s) : unread (putState e s) ⊆ unread s ++ [e] := by
  rw [unread_putState e h]
  split
  · exact List.append_subset.mpr
      ⟨List.subset_append_of_subset_left _ (List.drop_subset 1 _), List.subset_append_right _ _⟩
  · exact List.Subset.refl _

theorem unread_popped_subset {s : State} (h : QueueOk s) (hq : queueEmpty s = false) : unread (popped s) ⊆ unread s := by
  obtain ⟨e, _, hcons⟩ := unread_eq_cons h hq
  rw [hcons]
  exact List.subset_cons_self e _

/-! ### A lost UartCommandReady (R300) -/

/-- An operation that neither arms the path nor moves the Dispatcher, and after which nothing new is unread. -/
theorem readyEventLost.of_subset {s t : State} (h : readyEventLost s) (harmed : t.hb.armed = s.hb.armed)
    (hdsp : t.dsp = s.dsp) (hunread : unread t ⊆ unread s) : readyEventLost t := by
  obtain ⟨hoff, hloop, hlost⟩ := h
  exact ⟨harmed.trans hoff, hdsp.trans hloop, fun hready => hlost (hunread hready)⟩

/-- An operation that leaves the path, the Dispatcher and the queue. -/
theorem readyEventLost.congr {s t : State} (h : readyEventLost s) (harmed : t.hb.armed = s.hb.armed)
    (hdsp : t.dsp = s.dsp) (hq : t.q = s.q) (hpar : t.par = s.par) : readyEventLost t := by
  have hunread : unread t = unread s := by simp only [unread, unreadIndex, queueCount, ringSize, hq, hpar]
  exact h.of_subset harmed hdsp fun e he => hunread ▸ he

/-- A raised fault discards every write, so an operation keeps the event lost where its answers do. -/
theorem readyEventLost.of_commit {s : State} (h : readyEventLost s) {r : Except FaultCode (State × Option Result)}
    (hr : ∀ t res, r = .ok (t, res) → readyEventLost t) : readyEventLost (commit s r) := by
  cases r with
  | ok a => exact hr a.1 a.2 rfl
  | error c => exact h

theorem readyEventLost.of_commit_noResult {s : State} (h : readyEventLost s) {r : Except FaultCode State}
    (hr : ∀ t, r = .ok t → readyEventLost t) : readyEventLost (commit s (noResult r)) := by
  cases r with
  | ok t => exact hr t rfl
  | error c => exact h

theorem readyEventLost.of_put {s t : State} {e : Event} (h : readyEventLost s) (hqueue : QueueOk s)
    (he : e ≠ .uartCommandReady) (ht : putEvent e s = .ok t) : readyEventLost t := by
  obtain ⟨_, rfl⟩ := (putEvent_ok_iff _ _ _).mp ht
  obtain ⟨hoff, hloop, hlost⟩ := h
  refine ⟨hoff, hloop, fun hready => ?_⟩
  rcases List.mem_append.mp (unread_putState_subset e hqueue hready) with hold | hnew
  · exact hlost hold
  · exact he (List.mem_singleton.mp hnew).symm

theorem readyEventLost.of_popped {s : State} (h : readyEventLost s) (hqueue : QueueOk s) (hq : queueEmpty s = false) :
    readyEventLost (popped s) :=
  h.of_subset rfl rfl (unread_popped_subset hqueue hq)

theorem readyEventLost.of_getEvent {s t : State} {e : Event} (h : readyEventLost s) (hqueue : QueueOk s)
    (ht : getEvent s = .ok (e, t)) : readyEventLost t := by
  rcases getEvent_cases s with ⟨_, e'⟩ | ⟨_, _, e'⟩ | ⟨_, hq, _, e'⟩ <;> rw [e'] at ht <;> cases ht
  exact h.of_popped hqueue hq

/-- No Symbol becomes a UartCommandReady (30_encoding.md R73). -/
theorem readyEventLost.of_handleEdge {s t : State} {dir : Dir} (h : readyEventLost s) (hqueue : QueueOk s)
    (ht : handleEdge dir s = .ok t) : readyEventLost t := by
  have hreset : readyEventLost (timerReset s) := h.congr rfl rfl rfl rfl
  rw [handleEdge_eq] at ht
  split at ht
  next => cases ht; exact hreset.congr rfl rfl rfl rfl
  next e he =>
    refine hreset.of_put { hqueue with } (fun hready => ?_) ht
    exact edgeEvent_ne_uartCommandReady s.par (dir, s.pt.count) (hready ▸ he)

/-- A disarmed path raises no UartCommandReady: the byte is dropped (43_hexparse.md R173). -/
theorem readyEventLost.of_uartByte {s t : State} {b : Byte} (h : readyEventLost s) (ht : exec (.uartByte b) s = .next t) :
    readyEventLost t := by
  have hoff : s.hb.armed = false := h.1
  rw [uartByteWhileDisarmedIsDropped b s hoff] at ht
  cases ht
  exact h.congr rfl rfl rfl rfl

/-- A parse clears the buffer and leaves HB.ARMED (43_hexparse.md R176). -/
theorem readyEventLost.of_parseAndClear {s t : State} {r : Option Word16} (h : readyEventLost s)
    (ht : parseAndClear s = .ok (r, t)) : readyEventLost t := by
  rw [parseAndClear_eq] at ht
  split at ht
  · split at ht <;> cases ht <;> exact h.congr rfl rfl rfl rfl
  · cases ht

theorem readyEventLost.of_onBit {s : State} (h : readyEventLost s) (b : Bool) : readyEventLost (onBit b s) := by
  rw [onBit_eq_hearBit]
  exact h.congr rfl rfl rfl rfl

/-- The event that a DISPATCH handles is unread, so it is no UartCommandReady; a header or a bit does not re-arm the path. -/
theorem readyEventLost.of_dispatchOne {s t : State} (h : readyEventLost s) (hqueue : QueueOk s)
    (hq : queueEmpty s = false) (ht : dispatchOne s = .ok t) : readyEventLost t := by
  have hpopped := h.of_popped hqueue hq
  obtain ⟨_, _, hlost⟩ := h
  obtain ⟨e, he, hcons⟩ := unread_eq_cons hqueue hq
  rw [dispatchOne_of_slot hq he] at ht
  cases e with
  | bitLow => cases ht; exact hpopped.of_onBit false
  | bitHigh => cases ht; exact hpopped.of_onBit true
  | frameStart => cases ht; exact hpopped.congr rfl rfl rfl rfl
  | uartCommandReady => exact absurd (hcons ▸ List.mem_cons_self) hlost

@[simp] theorem txStep_hb (s : State) : (txStep s).hb = s.hb := by
  rcases txStep_cases s with ⟨_, e⟩ | ⟨_, _, e⟩ | ⟨_, _, _, e⟩ | ⟨_, _, _, e⟩ <;> simp [e]

theorem readyEventLost.of_txStep {s : State} (h : readyEventLost s) : readyEventLost (txStep s) :=
  h.congr (by rw [txStep_hb]) (txStep_dsp s) (txStep_q s) (txStep_par s)

/-- TX_RETURN, which re-arms the path, is enabled only while the Dispatcher is in its own transmission. -/
theorem readyEventLost.txReturnEnabled_eq_false {s : State} (h : readyEventLost s) : txReturnEnabled s = false := by
  obtain ⟨_, hloop, _⟩ := h
  simp [txReturnEnabled, hloop]

theorem readyEventLost.of_urgentStep {s : State} (h : readyEventLost s) : readyEventLost (urgentStep s) := by
  unfold urgentStep
  split
  · exact h.of_txStep
  · rw [if_neg (by simp [h.txReturnEnabled_eq_false])]
    exact h

/-- Of all operations, only a direct PUT can bring a UartCommandReady back. -/
theorem readyEventLost.of_exec {i : Instr} {s t : State} (h : readyEventLost s) (hqueue : QueueOk s)
    (hput : i ≠ .put .uartCommandReady) (ht : exec i s = .next t) : readyEventLost t := by
  cases i
  case uartByte => exact h.of_uartByte ht
  all_goals simp only [exec] at ht; injection ht with ht; subst ht
  case edge =>
    split
    · exact h.of_commit_noResult fun _ => h.of_handleEdge hqueue
    · exact h.congr rfl rfl rfl rfl
  case put e => exact h.of_commit_noResult fun _ => h.of_put hqueue fun he => hput (he ▸ rfl)
  case get =>
    refine h.of_commit fun u _ hu => ?_
    split at hu <;> cases hu
    exact h.of_getEvent hqueue (by assumption)
  case qreset => exact h.of_subset rfl rfl (by simp [unread_eq_nil_of_head_eq_tail])
  case parseHex =>
    refine h.of_commit fun u _ hu => ?_
    split at hu <;> cases hu
    exact h.of_parseAndClear (by assumption)
  case transmit => split <;> exact h.congr (by simp) (by simp) (by simp) (by simp)
  case outTick => split <;> exact h.congr (by simp) (by simp) (by simp) (by simp)
  case dispatch =>
    split
    · exact h.congr rfl rfl rfl rfl
    split
    · exact h.congr rfl rfl rfl rfl
    next hq => exact h.of_commit_noResult fun _ => h.of_dispatchOne hqueue (Bool.eq_false_iff.mpr hq)
  case timerTick =>
    split
    · exact h.congr rfl rfl rfl rfl
    · exact h.of_urgentStep.congr rfl rfl rfl rfl
  all_goals exact h.congr rfl rfl rfl rfl

/-- Settles O49: none of the four fair steps recovers the event, TX_RETURN not being enabled, and of the operations only the
excepted PUT does. -/
theorem lostReadyEventIsNeverRecovered : Obligations.LostReadyEventIsNeverRecovered := by
  intro s t hinv hlost ht hput
  have hlost' : ∀ rest, readyEventLost { s with sched := rest } := fun _ => hlost.congr rfl rfl rfl rfl
  have hqueue : ∀ rest, QueueOk { s with sched := rest } := fun _ => { hinv.queue with }
  cases hk : stepTaken s with
  | some k =>
    obtain ⟨henabled, rest, _, hstep⟩ := step_of_taken (step_next_par ht) hk
    rw [hstep] at ht
    cases k <;> simp only [Host.Outcome.next.injEq] at ht
    case timerTick => subst ht; exact hlost.congr rfl rfl rfl rfl
    case txStep => subst ht; exact (hlost' rest).of_txStep.congr rfl rfl rfl rfl
    case txReturn => exact absurd (hlost.txReturnEnabled_eq_false.symm.trans henabled) nofun
    case dispatch => exact (hlost' rest).of_exec (i := .dispatch) (hqueue rest) nofun ht
  | none =>
    obtain ⟨rest, rfl | rfl | ⟨i, hs, hexec⟩⟩ := step_next_of_untaken ht hk
    · exact hlost.congr rfl rfl rfl rfl
    · exact hlost.congr rfl rfl rfl rfl
    · exact (hlost' rest).of_exec (hqueue rest) (fun hi => hput rest (hi ▸ hs)) hexec

end Sys2Proof.Machine
end
